-- ==== Sys2Proof/Word.lean ====
section
/-! DEFINITION. The word types of the CORE (spec 00_scope.md R9 to R11) and their plainest arithmetic. -/

namespace Sys2Proof

/-- An octet, the spec's "byte" and "symbol" (R9). Bit 7 is the most significant bit (R10). -/
abbrev Byte := BitVec 8

/-- A host-visible register value and a command word: `REG_W` = 64 bits (R8). -/
abbrev Word := BitVec 64

/-- A bit string: a finite sequence of bits, first bit first, its length tracked exactly (R11). -/
abbrev Bits := List Bool

/-- `ceil8(L)`, the number of octets that hold `L` bits (R12). -/
def ceil8 (l : Nat) : Nat := (l + 7) / 8

end Sys2Proof
end

