-- ==== Sys2Proof/Config.lean ====
section
/-! DEFINITION. What is fixed for one machine: the constants of spec 00_scope.md R7, the parameters of R8, the
identifier ROMs of 44_codec_interface.md R247, and the free values (values the spec says are any value). -/

namespace Sys2Proof

/-- The two parameters the spec leaves open (R8): the capacities of IBUF and OBUF in octets. -/
structure Config where
  /-- `N_MAX`, the capacity of IBUF and the largest ILEN a command accepts. -/
  nMax : Nat
  /-- `M_MAX`, the capacity of OBUF and the largest OLEN a command may produce. -/
  mMax : Nat
deriving DecidableEq, Repr

/-- The bounds R8 puts on the parameters. -/
abbrev Config.Valid (c : Config) : Prop :=
  1 ≤ c.nMax ∧ c.nMax < 2 ^ 56 ∧ 1 ≤ c.mMax ∧ c.mMax < 2 ^ 63

/-- `WEIGHT_W` (R8), the width of a frequency counter and of a node weight: the smallest `w` with `N_MAX < 2^w`. -/
def Config.weightWidth (c : Config) : Nat := if c.nMax = 0 then 0 else Nat.log2 c.nMax + 1

/-- The values R8 suggests for testing, `N_MAX = M_MAX = 2^20`. DESIGN CHOICE (log 3): the reset state of the model has
them; unsafe, for a statement about that one state. -/
def Config.suggested : Config := { nMax := 2 ^ 20, mMax := 2 ^ 20 }

/-- `ALPHABET` (R7): the number of symbols. -/
def Config.alphabet : Nat := 256
/-- `MAX_REPEAT` (R7): the largest count of a Repeat run. -/
def Config.maxRepeat : Nat := 129
/-- `MAX_LITERAL` (R7): the largest length of a Literal run. -/
def Config.maxLiteral : Nat := 128
/-- `HDR_LEN` (R7): the length of the container header, the offset of the code table. -/
def Config.hdrLen : Nat := 12
/-- `L_MAX` (R7): the largest Huffman code length in bits. -/
def Config.maxCodeLen : Nat := 255
/-- `NODE_MAX` (R7): the most tree nodes. -/
def Config.nodeMax : Nat := 511

/-- The TAG_RLE ROM, `.cmprRLE` (R247). Its ASCII octets are the spec's own general knowledge (log 21). -/
def Config.tagRle : List Byte := [0x2E, 0x63, 0x6D, 0x70, 0x72, 0x52, 0x4C, 0x45]

/-- The TAG_HUF ROM, `.cmprHaffman`, spelled so (R247). Its ASCII octets are the spec's own general knowledge (log 21). -/
def Config.tagHuf : List Byte := [0x2E, 0x63, 0x6D, 0x70, 0x72, 0x48, 0x61, 0x66, 0x66, 0x6D, 0x61, 0x6E]

/-- FREE VALUE (log 5): the octet IBUF holds at an index nothing has written since the reset drawn as `epoch`
(10_state.md R46, 70_reset_and_hazards.md R291). -/
opaque Config.ibufFree (epoch index : Nat) : Byte

/-- FREE VALUE (logs 5 and 6): an octet of OBUF the spec calls unspecified (10_state.md R34, 93_implementation_defined.md
U22, U23), by the draw `epoch`. -/
opaque Config.obufFree (epoch index : Nat) : Byte

/-- FREE VALUE (log 6): what a host read of OLEN returns while BUSY (10_state.md R25), by the draw. -/
opaque Config.olenFree (draw : Nat) : Word

/-- The scratch registers and files of 10_state.md R26 and R38 to R44, but for OP and PHASE: what a free value is drawn
for. -/
inductive ScratchReg where
  | ipos | opos | pkAcc | pkCnt | upIdx | rMode | rSym | rCnt | lCnt | litBuf | dSvc
  | freq | nodeW | nodeLeaf | nodeSym | nodeLeft | nodeRight | live | nLeaf | nNode | nLive | root | path | clen | cbits
  | btot | tlen | hB | hT | tpos | dlen | dbits | cur
deriving DecidableEq, Repr

/-- FREE VALUE (log 18): what a scratch register, or entry `index` of a scratch file, holds after a command has ended
(93_implementation_defined.md U30), by the draw; cut to the register's width where it is used. -/
opaque Config.scratchFree (draw : Nat) (reg : ScratchReg) (index : Nat) : Nat

/-- FREE VALUE (log 18): the same for the scratch registers that hold a bit string. -/
opaque Config.scratchBitsFree (draw : Nat) (reg : ScratchReg) (index : Nat) : Bits

end Sys2Proof
end

