-- ==== Sys2Proof/Syntax.lean ====
section
/-! DEFINITION. The instructions of spec/opcode_table.json, one constructor a row. -/

namespace Sys2Proof

/-- The five commands the host writes to CMD (30_encoding.md R92) and the three stream-level instructions that RLE_DEC
and HUF_DEC carry out on their input (R97, R99, R104). -/
inductive Instr where
  /-- `CLR` (R246). -/
  | clr
  /-- `RLE_ENC` (R151). -/
  | rleEnc
  /-- `RLE_DEC` (R157). -/
  | rleDec
  /-- `HUF_ENC` (R170). -/
  | hufEnc
  /-- `HUF_DEC` (R210). -/
  | hufDec
  /-- `RLE.REPEAT` (R97): stored count `n` and the payload symbol. -/
  | rleRepeat (n : BitVec 7) (sym : Byte)
  /-- `RLE.LITERAL` (R99): stored count `n` and the payload symbols. -/
  | rleLiteral (n : BitVec 7) (syms : List Byte)
  /-- `HUF.ENTRY` (R104): code length, symbol, and the code octets with whatever unused bits they hold. -/
  | hufEntry (len : Byte) (sym : Byte) (code : List Byte)
deriving DecidableEq, Repr

end Sys2Proof
end

