-- ==== Sys2Proof/Machine/State.lean ====
section
/-! DEFINITION. The state of the CORE (spec 10_state.md) as plain data, the ways a step can stop, and the state after
reset (R46, 70_reset_and_hazards.md R290). Counters and cursors are naturals: no operation of the CORE wraps, and each
register is as wide as its values need (00_scope.md R14; DEDUCED, log 13). -/

namespace Sys2Proof.Machine

/-- `STATUS.STATE` (R23). -/
inductive RunState where
  /-- 0: no result held. -/
  | idle
  /-- 1: a command is executing. -/
  | busy
  /-- 2: the last command succeeded. -/
  | done
  /-- 3: the last command failed. -/
  | error
deriving DecidableEq, Repr

/-- The error kinds of 60_exceptions.md; `STATUS.ERRKIND` is one of them or None (R23). -/
inductive ErrorKind where
  /-- Code 1 (R261). -/
  | emptyInput
  /-- Code 2 (R262). -/
  | malformedStream
  /-- Code 3 (R263). -/
  | codeTooLong
  /-- Code 4 (R264). -/
  | encodeError
  /-- Code 5 (R271). -/
  | capacityExceeded
  /-- Code 6 (R272). -/
  | badCommand
deriving DecidableEq, Repr

/-- `PHASE` (R31), which step of the command is running; no host access reads its number. -/
inductive Phase where
  /-- 0, P_IDLE: no command running. -/
  | idle
  /-- 1, P_CHECK: the entry checks. -/
  | check
  /-- 2, P_RLE_E. -/
  | rleE
  /-- 3, P_RLE_D. -/
  | rleD
  /-- 4, P_H_FREQ. -/
  | hFreq
  /-- 5, P_H_TREE. -/
  | hTree
  /-- 6, P_H_CODE. -/
  | hCode
  /-- 7, P_H_TAB. -/
  | hTab
  /-- 8, P_H_PAY. -/
  | hPay
  /-- 9, P_H_HDR. -/
  | hHdr
  /-- 10, P_H_DTAB. -/
  | hDtab
  /-- 11, P_H_DPAY. -/
  | hDpay
  /-- 12, P_END: completion. It is passed through inside one transition (R244) and never rests. -/
  | fin
deriving DecidableEq, Repr

/-- `R_MODE` (R38), the kind of the run being accumulated. -/
inductive RunMode where
  | none | lit | rep
deriving DecidableEq, Repr

/-- An octet buffer as (index, octet) pairs in strictly rising order of index. An index that is not listed holds no known
octet: reading it gives a free value (log 5). -/
abbrev Memory := List Host.Cell

/-- The bit packer (R36). -/
structure Packer where
  /-- `PK_ACC`, the partly filled output octet. -/
  acc : Byte
  /-- `PK_CNT`, the number of bits held in it. -/
  cnt : Nat
deriving DecidableEq, Repr

/-- The RLE encoder's registers (R38). -/
structure RleEncUnit where
  /-- `R_MODE`. -/
  mode : RunMode
  /-- `R_SYM`. -/
  sym : Byte
  /-- `R_CNT`. -/
  cnt : Nat
  /-- `LITBUF[0..127]`. -/
  litBuf : Vector Byte 128
  /-- `L_CNT`. -/
  lCnt : Nat
deriving DecidableEq, Repr

/-- An entry of the node store (R41). -/
structure Node where
  /-- Weight, of WEIGHT_W bits (`Config.weightWidth`). -/
  w : Nat
  /-- 1 = Leaf, 0 = Branch. -/
  leaf : Bool
  /-- The symbol of a Leaf. -/
  sym : Byte
  /-- Left child of a Branch. -/
  left : Nat
  /-- Right child of a Branch. -/
  right : Nat
deriving DecidableEq, Repr

/-- The Huffman encoder's registers (R26, R40 to R43). -/
structure HufEncUnit where
  /-- `FREQ[0..255]`, of WEIGHT_W bits each (`Config.weightWidth`). -/
  freq : Vector Nat 256
  /-- `NLEAF`. -/
  nLeaf : Nat
  /-- `NNODE`. -/
  nNode : Nat
  /-- `NLIVE`. -/
  nLive : Nat
  /-- `ROOT`. -/
  root : Nat
  /-- `NODE[0..510]`. -/
  node : Vector Node 511
  /-- `LIVE[0..510]`. -/
  live : Vector Bool 511
  /-- `PATH`; its length is `PLEN`. -/
  path : Bits
  /-- `CLEN[0..255]`. -/
  clen : Vector Nat 256
  /-- `CBITS[0..255]`. -/
  cbits : Vector Bits 256
  /-- `BTOT`. -/
  btot : Nat
  /-- `TLEN`. -/
  tlen : Nat
deriving DecidableEq, Repr

/-- `PLEN` (R26): the length of `PATH`, stored once (log 14). -/
def HufEncUnit.plen (h : HufEncUnit) : Nat := h.path.length

/-- The Huffman decoder's registers (R26, R37, R44). -/
structure HufDecUnit where
  /-- `H_B`. -/
  hB : BitVec 64
  /-- `H_T`. -/
  hT : BitVec 32
  /-- `TPOS`. -/
  tpos : Nat
  /-- `DLEN[0..255]`. -/
  dlen : Vector Nat 256
  /-- `DBITS[0..255]`. -/
  dbits : Vector Bits 256
  /-- `UP_IDX` of the bit unpacker. -/
  upIdx : Nat
  /-- `CUR`; its length is `CURLEN`. -/
  cur : Bits
deriving DecidableEq, Repr

/-- `CURLEN` (R26): the length of `CUR`, stored once (log 14). -/
def HufDecUnit.curLen (h : HufDecUnit) : Nat := h.cur.length

/-- The octet spaces of the host port (20_memory.md R60). -/
inductive OctetSpace where
  | ibuf | obuf | tagRle | tagHuf
deriving DecidableEq, Repr

/-- What can happen at the boundary of the CORE: a host action (20_memory.md R62), reset (R290), or a turn of the
sequencer before the next host action. The last says when the Execute step of 44_codec_interface.md R243 happens among
the host's actions (DESIGN CHOICE, log 2). -/
inductive PortEvent where
  /-- `HostRead(REG, n)`. -/
  | readReg (n : Nat)
  /-- `HostWrite(REG, n, v)`. -/
  | writeReg (n : Nat) (v : Word)
  /-- `HostRead(sp, a)` of an octet space. -/
  | readOctet (sp : OctetSpace) (a : Nat)
  /-- `HostWrite(sp, a, v)` of an octet space. -/
  | writeOctet (sp : OctetSpace) (a : Nat) (v : Byte)
  /-- Reset is applied. -/
  | reset
  /-- The sequencer takes a turn. -/
  | turn
deriving DecidableEq, Repr

/-- What the last `HostRead` returned to the host. -/
inductive Reply where
  /-- Nothing read yet. -/
  | none
  /-- A register's value. -/
  | word (v : Word)
  /-- An octet. -/
  | octet (v : Byte)
deriving DecidableEq, Repr

/-- The whole state: the spec's (R21) and, in the last five fields, the model's own. -/
structure State where
  /-- The parameters `N_MAX`, `M_MAX`, read as `CAP_IN`, `CAP_OUT` (R27). -/
  cfg : Config
  /-- `STATUS.STATE`. -/
  runState : RunState
  /-- `STATUS.ERRKIND`. -/
  errKind : Option ErrorKind
  /-- `ILEN`. -/
  ilen : Word
  /-- `OLEN`. -/
  olen : Word
  /-- `IBUF`. -/
  ibuf : Memory
  /-- `OBUF`. -/
  obuf : Memory
  /-- `OP`. -/
  op : BitVec 3
  /-- `PHASE`. -/
  phase : Phase
  /-- `IPOS`. -/
  ipos : Nat
  /-- `OPOS`. -/
  opos : Nat
  /-- The bit packer. -/
  pk : Packer
  /-- The RLE encoder. -/
  re : RleEncUnit
  /-- `D_SVC` of the RLE decoder (R39). -/
  dSvc : Byte
  /-- The Huffman encoder. -/
  he : HufEncUnit
  /-- The Huffman decoder. -/
  hd : HufDecUnit
  /-- The model's own (log 2): the host's actions still to come, in issue order. -/
  port : List PortEvent
  /-- The model's own: the value the last host read returned. -/
  reply : Reply
  /-- The model's own (log 5): the draw behind the octets of IBUF that nothing has written. -/
  ibufEpoch : Nat
  /-- The model's own (log 5): the draw behind the unspecified octets of OBUF. -/
  obufEpoch : Nat
  /-- The model's own (log 5): the next draw of a free value. -/
  fresh : Nat
deriving DecidableEq, Repr

/-- Reasons a step stops with a fault. -/
inductive Fault where
  /-- Raised by the sequencer's turn when STATE = BUSY and OP is none of 1 to 4. 44_codec_interface.md R242 says this cannot
  be, and no run from reset reaches it. Safe. -/
  | noProcedure
deriving DecidableEq, Repr

/-- Reasons a step has no meaning. -/
inductive Refusal where
  /-- Raised by an arm of `exec` for an instruction without a meaning; no arm raises it now. Safe. -/
  | notModelled (mnemonic : String)
  /-- Raised by the meanings of RLE.LITERAL and HUF.ENTRY on a term whose operands contradict its counts, which the decoder
  never gives (log 12). Safe. -/
  | illFormed
  /-- Raised by a host action at an index that does not exist: 20_memory.md R65 makes it no action. Safe. -/
  | noSuchIndex
deriving DecidableEq, Repr

/-- Zero in every field: a node store entry before any command (log 4). -/
def Node.zero : Node := { w := 0, leaf := false, sym := 0, left := 0, right := 0 }

/-- The packer's registers at reset. The spec gives no values (R46); zero is the model's, log 4. -/
def Packer.zero : Packer := { acc := 0, cnt := 0 }

/-- The RLE encoder's registers at reset. The spec gives no values (R46); zero is the model's, log 4. -/
def RleEncUnit.zero : RleEncUnit :=
  { mode := .none, sym := 0, cnt := 0, litBuf := Vector.replicate 128 0, lCnt := 0 }

/-- The Huffman encoder's registers at reset. The spec gives no values (R46); zero is the model's, log 4. -/
def HufEncUnit.zero : HufEncUnit :=
  { freq := Vector.replicate 256 0, nLeaf := 0, nNode := 0, nLive := 0, root := 0,
    node := Vector.replicate 511 Node.zero, live := Vector.replicate 511 false, path := [],
    clen := Vector.replicate 256 0, cbits := Vector.replicate 256 [], btot := 0, tlen := 0 }

/-- The Huffman decoder's registers at reset. The spec gives no values (R46); zero is the model's, log 4. -/
def HufDecUnit.zero : HufDecUnit :=
  { hB := 0, hT := 0, tpos := 0, dlen := Vector.replicate 256 0, dbits := Vector.replicate 256 [],
    upIdx := 0, cur := [] }

/-- The machine of parameters `c` right after reset (R46): STATUS, ILEN and OLEN 0, PHASE P_IDLE. IBUF and OBUF list
nothing, so every octet of them is a free value. Scratch is zero (log 4). -/
def State.resetWith (c : Config) : State :=
  { cfg := c, runState := .idle, errKind := none, ilen := 0, olen := 0, ibuf := [], obuf := [], op := 0, phase := .idle,
    ipos := 0, opos := 0, pk := Packer.zero, re := RleEncUnit.zero, dSvc := 0, he := HufEncUnit.zero,
    hd := HufDecUnit.zero, port := [], reply := .none, ibufEpoch := 0, obufEpoch := 0, fresh := 1 }

/-- The machine right after reset, with the parameters R8 suggests (log 3). -/
def State.reset : State := State.resetWith Config.suggested

end Sys2Proof.Machine
end

