-- ==== Sys2Proof/Machine/Ops.lean ====
section
/-! DEFINITION. The named operations over the buffers and registers: buffer reads and writes, `Append` (20_memory.md R72),
command issue and BadCommand (44_codec_interface.md R240), completion (R244), the error entry (60_exceptions.md R266) and
the ways out of ERROR (R268), and reset (70_reset_and_hazards.md R290). -/

namespace Sys2Proof.Machine

/-! ### Buffers -/

/-- The octet listed at index `a`, if any. -/
def Memory.lookup : Memory → Nat → Option Byte
  | [], _ => none
  | (k, v) :: m, a => if a = k then some v else Memory.lookup m a

/-- Lists octet `v` at index `a`, in the place that keeps the indices rising. -/
def Memory.insert : Memory → Nat → Byte → Memory
  | [], a, v => [(a, v)]
  | (k, u) :: m, a, v =>
    if a < k then (a, v) :: (k, u) :: m
    else if a = k then (a, v) :: m
    else (k, u) :: Memory.insert m a v

/-- Lists the octets `vs` at `a`, `a + 1`, … -/
def Memory.insertAll : Memory → Nat → List Byte → Memory
  | m, _, [] => m
  | m, a, v :: vs => Memory.insertAll (Memory.insert m a v) (a + 1) vs

/-- Every index of `m` is above `a`. -/
def Memory.above (a : Nat) (m : Memory) : Bool := m.all (fun c => decide (a < c.1))

/-- The canonical form: indices strictly rising. An index that is not listed reads as no octet at all (`lookup` answers
`none`), so no listed entry equals what an unlisted index reads as. -/
def Memory.wf : Memory → Bool
  | [] => true
  | c :: m => Memory.above c.1 m && Memory.wf m

/-- `IBUF[a]` (R63): the octet written there, or a free value if nothing has been written since reset (R291, log 5). -/
def readIbuf (s : State) (a : Nat) : Byte :=
  (Memory.lookup s.ibuf a).getD (Config.ibufFree s.ibufEpoch a)

/-- `OBUF[a]` outside BUSY: the octet the last command left there, or a free value if it is unspecified (10_state.md R34,
log 5). -/
def readObuf (s : State) (a : Nat) : Byte :=
  (Memory.lookup s.obuf a).getD (Config.obufFree s.obufEpoch a)

/-- The octets `IBUF[o..o+n)`. -/
def ibufOctets (s : State) (o n : Nat) : List Byte := (List.range n).map (fun j => readIbuf s (o + j))

/-- The octets `OBUF[o..o+n)`. -/
def obufOctets (s : State) (o n : Nat) : List Byte := (List.range n).map (fun j => readObuf s (o + j))

/-- `OBUF[a] <- v` (R63). An index at or past `M_MAX` has no cell (R60, log 20). -/
def writeObuf (a : Nat) (v : Byte) (s : State) : State :=
  if a < s.cfg.mMax then { s with obuf := Memory.insert s.obuf a v } else s

/-- `OBUF[a], OBUF[a+1], … <- vs`: the back-fill of header octets (R72). -/
def writeObufAll : Nat → List Byte → State → State
  | _, [], s => s
  | a, v :: vs, s => writeObufAll (a + 1) vs (writeObuf a v s)

/-- `Append(v)` (R72): the one way a result grows; past `M_MAX` it raises CapacityExceeded (60_exceptions.md R271). -/
def append (v : Byte) (s : State) : Except ErrorKind State :=
  if s.cfg.mMax ≤ s.opos then .error .capacityExceeded
  else .ok { writeObuf s.opos v s with opos := s.opos + 1 }

/-- `Append` of each octet in turn. -/
def appendAll : List Byte → State → Except ErrorKind State
  | [], s => .ok s
  | v :: vs, s => do
    let s ← append v s
    appendAll vs s

/-- Every octet of OBUF becomes unspecified (10_state.md R34, 93_implementation_defined.md U22): nothing is listed, and a
new draw stands behind the octets (log 5). -/
def forgetObuf (s : State) : State :=
  { s with obuf := [], obufEpoch := s.fresh, fresh := s.fresh + 1 }

/-! ### Scratch after a command -/

/-- The `n` values `f 0`, `f 1`, … -/
def tabulate {α : Type} (n : Nat) (f : Nat → α) : Vector α n := ⟨((List.range n).map f).toArray, by simp⟩

/-- Any value of a scratch register of `w` bits. -/
def freeReg (draw w : Nat) (reg : ScratchReg) (index : Nat := 0) : Nat := Config.scratchFree draw reg index % 2 ^ w

/-- Any octet in a scratch register. -/
def freeOctet (draw : Nat) (reg : ScratchReg) (index : Nat := 0) : Byte := BitVec.ofNat 8 (freeReg draw 8 reg index)

/-- Any bit string a scratch register of `w` bits can hold. -/
def freeBits (draw w : Nat) (reg : ScratchReg) (index : Nat := 0) : Bits := (Config.scratchBitsFree draw reg index).take w

/-- Any contents of the bit packer. -/
def freePacker (draw : Nat) : Packer := { acc := freeOctet draw .pkAcc, cnt := freeReg draw 3 .pkCnt }

/-- Any contents of the RLE encoder's registers. -/
def freeRleEncUnit (draw : Nat) : RleEncUnit :=
  { mode := match freeReg draw 2 .rMode with
      | 1 => .lit
      | 2 => .rep
      | _ => .none,
    sym := freeOctet draw .rSym, cnt := freeReg draw 8 .rCnt, litBuf := tabulate 128 (fun i => freeOctet draw .litBuf i),
    lCnt := freeReg draw 8 .lCnt }

/-- Any contents of entry `i` of the node store, a weight having `weightW` bits (10_state.md R41). -/
def freeNode (weightW draw i : Nat) : Node :=
  { w := freeReg draw weightW .nodeW i, leaf := freeReg draw 1 .nodeLeaf i == 1, sym := freeOctet draw .nodeSym i,
    left := freeReg draw 9 .nodeLeft i, right := freeReg draw 9 .nodeRight i }

/-- Any contents of the Huffman encoder's registers, a counter or weight having `weightW` bits (10_state.md R40, R41). -/
def freeHufEncUnit (weightW draw : Nat) : HufEncUnit :=
  { freq := tabulate 256 (fun i => freeReg draw weightW .freq i), nLeaf := freeReg draw 9 .nLeaf,
    nNode := freeReg draw 10 .nNode, nLive := freeReg draw 9 .nLive, root := freeReg draw 9 .root,
    node := tabulate 511 (freeNode weightW draw),
    live := tabulate 511 (fun i => freeReg draw 1 .live i == 1), path := freeBits draw 256 .path,
    clen := tabulate 256 (fun i => freeReg draw 9 .clen i), cbits := tabulate 256 (fun i => freeBits draw 255 .cbits i),
    btot := freeReg draw 64 .btot, tlen := freeReg draw 32 .tlen }

/-- Any contents of the Huffman decoder's registers. -/
def freeHufDecUnit (draw : Nat) : HufDecUnit :=
  { hB := BitVec.ofNat 64 (freeReg draw 64 .hB), hT := BitVec.ofNat 32 (freeReg draw 32 .hT), tpos := freeReg draw 64 .tpos,
    dlen := tabulate 256 (fun i => freeReg draw 9 .dlen i), dbits := tabulate 256 (fun i => freeBits draw 255 .dbits i),
    upIdx := freeReg draw 64 .upIdx, cur := freeBits draw 256 .cur }

/-- The end of a command leaves any value in every scratch register and file (93_implementation_defined.md U30,
60_exceptions.md R266), in the register's width: a new draw. FREQ and the weights have WEIGHT_W bits (R8). OP keeps its value until the next accepted command (10_state.md R29), and PHASE is
written by the completion itself. -/
def forgetScratch (s : State) : State :=
  { s with ipos := freeReg s.fresh 64 .ipos, opos := freeReg s.fresh 64 .opos, pk := freePacker s.fresh,
           re := freeRleEncUnit s.fresh, dSvc := freeOctet s.fresh .dSvc,
           he := freeHufEncUnit s.cfg.weightWidth s.fresh,
           hd := freeHufDecUnit s.fresh, fresh := s.fresh + 1 }

/-! ### Issue, completion, errors, reset -/

/-- An accepted codec command is issued (R240): OP latched, STATE BUSY, ERRKIND None, PHASE P_CHECK. The result of the
command before it is given up: OBUF becomes unspecified (R295). -/
def issue (op : BitVec 3) (s : State) : State :=
  forgetObuf { s with op := op, runState := .busy, errKind := none, phase := .check }

/-- The error entry `raise k` (R266), shared by every error of every command: OLEN 0, STATE ERROR, ERRKIND the kind, OBUF
unspecified, PHASE P_IDLE. IBUF and ILEN stay. Nothing is saved and control goes nowhere (R265). The scratch registers,
which only a running command writes, become any value where a command ends (`failCommand`). -/
def raiseError (k : ErrorKind) (s : State) : State :=
  forgetObuf { s with olen := 0, runState := .error, errKind := some k, phase := .idle }

/-- The effect of CLR outside BUSY (R246), one of the ways out of ERROR (R268; a new command is the other, there is no
return instruction): STATE IDLE, ERRKIND None, OLEN 0, OBUF unspecified. -/
def clearStatus (s : State) : State :=
  forgetObuf { s with olen := 0, runState := .idle, errKind := none }

/-- Successful completion (R244): the OPOS octets appended are the result. -/
def completeDone (s : State) : State :=
  forgetScratch { s with olen := BitVec.ofNat 64 s.opos, runState := .done, errKind := none, phase := .idle }

/-- A running command ends with error `k` (R244, R266): the error entry, and scratch left unspecified. -/
def failCommand (k : ErrorKind) (s : State) : State := forgetScratch (raiseError k s)

/-- Completion (R244) of a command begun in `s`: with the state its procedure ended in, or with an error. -/
def complete (s : State) : Except ErrorKind State → State
  | .ok t => completeDone t
  | .error k => failCommand k s

/-- The entry check of every codec command (R241). -/
def entryCheck (s : State) : Except ErrorKind State :=
  if s.cfg.nMax < s.ilen.toNat then .error .capacityExceeded else .ok s

/-- The Execute step (R243) of the command whose procedure is `proc`: entry check, procedure, completion, in one
transition. -/
def execute (proc : State → Except ErrorKind State) (s : State) : State :=
  complete s (entryCheck s >>= proc)

/-- A codec command (R240, R243): outside BUSY its word has been written to CMD, and it is issued; in BUSY it is the
command in execution, and Execute carries it out (log 10). -/
def codecCommand (op : BitVec 3) (proc : State → Except ErrorKind State) (s : State) : State :=
  if s.runState = .busy then execute proc s else issue op s

/-- A stream-level instruction as a step of its own (log 8): its effect, or the error it raises. -/
def streamStep (s : State) : Except ErrorKind State → State
  | .ok t => t
  | .error k => failCommand k s

/-- Reset (R290): every field as in the reset state, with the parameters kept, the unspecified octets of both buffers
drawn anew (R291), and the model's own list of host actions and last reply kept (log 23). -/
def resetFrom (s : State) : State :=
  { State.resetWith s.cfg with
    port := s.port, reply := s.reply, ibufEpoch := s.fresh, obufEpoch := s.fresh, fresh := s.fresh + 1 }

end Sys2Proof.Machine
end

