-- ==== Sys2Proof/Machine/BitIO.lean ====
section
/-! DEFINITION. Component A, the bit I/O primitives (40_bitio.md R130 to R140): the bit packer and unpacker and the
fixed-width fields, as register-level procedures and as functions. -/

namespace Sys2Proof.Machine

/-! ### The packer -/

/-- Bit `i` of an octet set to `b`. -/
def setBit (acc : Byte) (i : Nat) (b : Bool) : Byte :=
  if b then acc ||| BitVec.twoPow 8 i else acc &&& ~~~ BitVec.twoPow 8 i

/-- `PackInit` (R130). -/
def packInit (s : State) : State := { s with pk := { acc := 0, cnt := 0 } }

/-- `PackBit(b)` (R131). -/
def packBit (b : Bool) (s : State) : Except ErrorKind State :=
  let acc := setBit s.pk.acc (7 - s.pk.cnt) b
  if s.pk.cnt = 7 then do
    let s ← append acc s
    .ok { s with pk := { acc := 0, cnt := 0 } }
  else .ok { s with pk := { acc := acc, cnt := s.pk.cnt + 1 } }

/-- `PackBit` of each bit in turn. -/
def packBits : Bits → State → Except ErrorKind State
  | [], s => .ok s
  | b :: bs, s => do
    let s ← packBit b s
    packBits bs s

/-- `PackFlush` (R132). -/
def packFlush (s : State) : Except ErrorKind State :=
  if s.pk.cnt = 0 then .ok s
  else do
    let s ← append s.pk.acc s
    .ok { s with pk := { acc := 0, cnt := 0 } }

/-- The octet whose bit `7 - p` is bit `p` of `bits`, 0 past its end. -/
def packOctet (bits : Bits) : Byte :=
  BitVec.ofNat 8 ((List.range 8).foldl (fun acc p => acc * 2 + (bits.getD p false).toNat) 0)

/-- `Pack(bits)` (R133): octet `q` holds bits `8q` to `8q + 7`, first bit highest, zero past the end. -/
def pack (bits : Bits) : List Byte :=
  (List.range (ceil8 bits.length)).map (fun q => packOctet (bits.drop (8 * q)))

/-- `PackCode(code)` as a procedure (R140): the packer initialised, the code's bits, the packer flushed. -/
def packCode (code : Bits) (s : State) : Except ErrorKind State := do
  let s ← packBits code (packInit s)
  packFlush s

/-! ### The unpacker -/

/-- `UnpackBit(base)` (R134): the next payload bit, and UP_IDX moved past it. -/
def unpackBit (base : Nat) (s : State) : Bool × State :=
  ((readIbuf s (base + s.hd.upIdx / 8)).getLsbD (7 - s.hd.upIdx % 8),
   { s with hd := { s.hd with upIdx := s.hd.upIdx + 1 } })

/-- `Unpack(octets, n)` (R135): the first `n` bits. -/
def unpack (octets : List Byte) (n : Nat) : Bits :=
  (List.range n).map (fun i => (octets.getD (i / 8) 0).getLsbD (7 - i % 8))

/-! ### Fixed-width fields -/

/-- `PutBE(v, w)` (R136): the `w` octets of `v`, most significant first. -/
def putBE (v : Nat) : Nat → List Byte
  | 0 => []
  | w + 1 => BitVec.ofNat 8 (v / 256 ^ w) :: putBE v w

/-- The natural whose octets are `os`, most significant first. -/
def beNat (os : List Byte) : Nat := os.foldl (fun acc o => acc * 256 + o.toNat) 0

/-- `GetBE(buf, o, w)` (R137). -/
def getBE (buf : List Byte) (o w : Nat) : Nat := beNat ((buf.drop o).take w)

/-- `InsertField(buf, o, v, w)` (R138), the document's insertion primitive; the CORE back-fills instead (20_memory.md
R72). -/
def insertField (buf : List Byte) (o v w : Nat) : List Byte := buf.take o ++ putBE v w ++ buf.drop o

end Sys2Proof.Machine
end

