-- ==== Sys2Proof/WellFormed.lean ====
section
/-! DEFINITION. Which terms of the syntax stand for an instruction of the encoding. -/

namespace Sys2Proof

/-- A literal group carries `N + 1` symbols (30_encoding.md R99). A table entry has a length in 1..255 (R107) and
`ceil8(L)` code octets (R104). Every term of the other constructors is well formed. -/
def Instr.wellFormed : Instr → Bool
  | .clr => true
  | .rleEnc => true
  | .rleDec => true
  | .hufEnc => true
  | .hufDec => true
  | .rleRepeat _ _ => true
  | .rleLiteral n syms => syms.length == n.toNat + 1
  | .hufEntry len _ code => len != 0 && code.length == ceil8 len.toNat

/-- `wellFormed` as a proposition. -/
abbrev Instr.WellFormed (i : Instr) : Prop := i.wellFormed = true

end Sys2Proof
end

