-- ==== Sys2Proof/Decode.lean ====
section
/-! DEFINITION. The decoder of the three formats of 30_encoding.md R90 (command word, RLE group, code-table entry), total
on any bits and rejecting by name, and after it the encoder, written from the same tables. -/

namespace Sys2Proof

/-- Why bits stand for no instruction. -/
inductive Reject where
  /-- A command word with `OP` 5 to 7 or a bit of 63:3 set (R93). -/
  | reservedCommand
  /-- No octet where a group or an entry should start. -/
  | noOctets
  /-- An RLE group whose payload is not all there (41_rle.md R159). -/
  | truncatedGroup
  /-- A table entry whose length octet is 0 (R107). -/
  | zeroLength
  /-- A table entry whose symbol or code octets are not all there (R106). -/
  | truncatedEntry
deriving DecidableEq, Repr

/-- The encoded form of an instruction: a 64-bit command word (no byte order at the host port, 20_memory.md R68), or the
octets of a stream-level instruction in stream order. -/
inductive Code where
  | command (w : Word)
  | group (octets : List Byte)
  | entry (octets : List Byte)
deriving DecidableEq, Repr

/-! ### Decoding -/

/-- The command a 64-bit word stands for (R91 to R93): opcode in bits 2:0, bits 63:3 zero. -/
def decodeCommand (w : Word) : Except Reject Instr :=
  if w.extractLsb' 3 61 = 0 then
    match (w.extractLsb' 0 3).toNat with
    | 0 => .ok .clr
    | 1 => .ok .rleEnc
    | 2 => .ok .rleDec
    | 3 => .ok .hufEnc
    | 4 => .ok .hufDec
    | _ => .error .reservedCommand
  else .error .reservedCommand

/-- The first RLE group of a stream, and the octets after it (R96 to R101): bit 7 of the service octet is the kind, bits
6:0 the stored count. -/
def decodeGroup : List Byte → Except Reject (Instr × List Byte)
  | [] => .error .noOctets
  | svc :: rest =>
    let n : BitVec 7 := svc.extractLsb' 0 7
    if svc.getLsbD 7 then
      match rest with
      | [] => .error .truncatedGroup
      | sym :: rest => .ok (.rleRepeat n sym, rest)
    else if rest.length < n.toNat + 1 then .error .truncatedGroup
    else .ok (.rleLiteral n (rest.take (n.toNat + 1)), rest.drop (n.toNat + 1))

/-- The first code-table entry of a table, and the octets after it (R104 to R107), with the checks in the order of
43_huffman_decoder.md R214: room for the two header octets, length not 0, room for the code octets. -/
def decodeEntry : List Byte → Except Reject (Instr × List Byte)
  | [] => .error .noOctets
  | [_] => .error .truncatedEntry
  | len :: sym :: rest =>
    if len = 0 then .error .zeroLength
    else if rest.length < ceil8 len.toNat then .error .truncatedEntry
    else .ok (.hufEntry len sym (rest.take (ceil8 len.toNat)), rest.drop (ceil8 len.toNat))

/-- The decoder: an encoded form gives an instruction and the octets left over (none for a command). -/
def decode : Code → Except Reject (Instr × List Byte)
  | .command w => (decodeCommand w).map (fun i => (i, []))
  | .group octets => decodeGroup octets
  | .entry octets => decodeEntry octets

/-! ### Encoding -/

/-- The opcode of a command (R92). -/
def commandWord (op : BitVec 3) : Word := op.zeroExtend 64

/-- The service octet of kind `k` (true is Repeat) and stored count `n` (R96). -/
def serviceOctet (k : Bool) (n : BitVec 7) : Byte := BitVec.ofBool k ++ n

/-- The encoded form of an instruction (R92, R97, R99, R104). -/
def encode : Instr → Code
  | .clr => .command (commandWord 0)
  | .rleEnc => .command (commandWord 1)
  | .rleDec => .command (commandWord 2)
  | .hufEnc => .command (commandWord 3)
  | .hufDec => .command (commandWord 4)
  | .rleRepeat n sym => .group [serviceOctet true n, sym]
  | .rleLiteral n syms => .group (serviceOctet false n :: syms)
  | .hufEntry len sym code => .entry (len :: sym :: code)

/-- An encoded form with further octets after it; a command word has none after it. -/
def Code.followedBy : Code → List Byte → Code
  | .command w, _ => .command w
  | .group octets, rest => .group (octets ++ rest)
  | .entry octets, rest => .entry (octets ++ rest)

/-- How many octets an encoded form takes; a command word is 8 octets wide (64 bits, R91). -/
def Code.size : Code → Nat
  | .command _ => 8
  | .group octets => octets.length
  | .entry octets => octets.length

/-! ### The numbering of spec/opcode_table.json -/

/-- The `k` octets of `w`, the least significant octet first: the table numbers bits from the least significant bit of
the first octet. -/
def octetsOf : Nat → Nat → List Byte
  | 0, _ => []
  | k + 1, w => BitVec.ofNat 8 (w % 256) :: octetsOf k (w / 256)

/-- The longest RLE group, 129 octets (R101). -/
def longestGroup : Nat := 129

/-- The longest table entry, 34 octets (R104). -/
def longestEntry : Nat := 34

/-- The encoded form that `nbits` bits of value `w` stand for, the octets above them zero: 64 bits are a command word,
8 bits the service octet of an RLE group, any other width the octets of a table entry. DESIGN CHOICE (log 15): the three
formats share no opcode space, so the width names the format. -/
def tableCode (nbits w : Nat) : Code :=
  if nbits = 64 then .command (BitVec.ofNat 64 w)
  else if nbits = 8 then .group (octetsOf longestGroup (w % 2 ^ nbits))
  else .entry (octetsOf longestEntry (w % 2 ^ nbits))

/-- The instruction the decoder reads from an opcode-table word of `nbits` bits. -/
def decodeTableWord (nbits w : Nat) : Option Instr :=
  match decode (tableCode nbits w) with
  | .ok (i, _) => some i
  | .error _ => none

end Sys2Proof
end

