-- ==== Sys2Proof/Machine/Operands.lean ====
section
/-! DEFINITION. The operands of the commands and of the stream-level instructions. A command's are implicit: ILEN and
IBUF[0..ILEN), its result OBUF[0..OLEN) (30_encoding.md R91). A stream-level instruction's stand in the stream. -/

namespace Sys2Proof.Machine

/-- The input byte buffer `IBUF[0..ILEN)` (10_state.md R24). -/
def State.input (s : State) : List Byte := ibufOctets s 0 s.ilen.toNat

/-- The output byte buffer `OBUF[0..OLEN)` (R25). -/
def State.result (s : State) : List Byte := obufOctets s 0 s.olen.toNat

/-- The count of a Repeat group, 2..129 (R97, R98). -/
def repeatCount (n : BitVec 7) : Nat := n.toNat + 2

/-- The length of a Literal group, 1..128 (R98, R99). -/
def literalCount (n : BitVec 7) : Nat := n.toNat + 1

/-- The stored count of a Repeat run of `c` symbols (R98). -/
def storedRepeat (c : Nat) : BitVec 7 := BitVec.ofNat 7 (c - 2)

/-- The stored count of a Literal run of `k` symbols (R98). -/
def storedLiteral (k : Nat) : BitVec 7 := BitVec.ofNat 7 (k - 1)

/-- The octets of the input from IPOS on that the next RLE group can take, at most the longest group. -/
def groupWindow (s : State) : List Byte := ibufOctets s s.ipos (min longestGroup (s.ilen.toNat - s.ipos))

/-- `END` of the code table, `12 + H_T` (43_huffman_decoder.md R214), as a natural (00_scope.md R15). -/
def tableEnd (s : State) : Nat := 12 + s.hd.hT.toNat

/-- The octets of the code table from TPOS on that the next entry can take, at most the longest entry; never past END
(R215). -/
def entryWindow (s : State) : List Byte := ibufOctets s s.hd.tpos (min longestEntry (tableEnd s - s.hd.tpos))

end Sys2Proof.Machine
end

