-- ==== Sys2Proof/Machine/HuffmanDecoder.lean ====
section
/-! DEFINITION. Component C, decode side: the command HUF_DEC as the register-level procedures of 43_huffman_decoder.md
(R210 to R224), and the stream-level instruction HUF.ENTRY that its table walk carries out. -/

namespace Sys2Proof.Machine

/-! ### Header (R211 to R213) -/

/-- The initial values of R211. IPOS stays 0 from here on: TPOS and UP_IDX say where this command reads (log 17). -/
def hufDecInit (s : State) : State :=
  { s with phase := .hHdr, ipos := 0, opos := 0,
           hd := { s.hd with dlen := Vector.replicate 256 0, cur := [], upIdx := 0 } }

/-- `H_B` and `H_T`, read most significant octet first (R212). -/
def readHeader (s : State) : State :=
  { s with hd := { s.hd with hB := BitVec.ofNat 64 (beNat (ibufOctets s 0 8)),
                             hT := BitVec.ofNat 32 (beNat (ibufOctets s 8 4)) } }

/-! ### Code-table deserialiser (R214 to R218) -/

/-- The symbol whose entry has code `code`, if any: length and bits both equal (R218, R220). -/
def lookupCode (h : HufDecUnit) (code : Bits) : Option Nat :=
  (h.dlen.toList.zip h.dbits.toList).findIdx? (fun e => e.1 == code.length && e.2 == code)

/-- `DLEN[sym] <- L ; DBITS[sym] <- code`. -/
def setEntry (len sym : Byte) (code : Bits) (h : HufDecUnit) : HufDecUnit :=
  { h with dlen := h.dlen.setIfInBounds sym.toNat len.toNat, dbits := h.dbits.setIfInBounds sym.toNat code }

/-- The decoder's action on an entry that lies inside the table (R214): a symbol named before (R217) or a code given
before (R218) raises MalformedStream; the unused low bits of the last code octet are dropped (R216). -/
def tableEntry (len sym : Byte) (code : List Byte) (s : State) : Except ErrorKind State :=
  let bits := unpack code len.toNat
  if s.hd.dlen.toList.getD sym.toNat 0 ≠ 0 then .error .malformedStream
  else if (lookupCode s.hd bits).isSome then .error .malformedStream
  else .ok { s with hd := { setEntry len sym bits s.hd with tpos := s.hd.tpos + (2 + ceil8 len.toNat) } }

/-- The decoder's action on the entry at TPOS. An entry that crosses the end of the table (R215) or has length 0 (R216)
raises MalformedStream. -/
def nextEntry (s : State) : Except ErrorKind State :=
  match decodeEntry (entryWindow s) with
  | .ok (.hufEntry len sym code, _) => tableEntry len sym code s
  | .ok _ => .error .malformedStream
  | .error _ => .error .malformedStream

/-- The loop `while TPOS < END` of R214, at most `fuel` entries. -/
def tableLoop : Nat → State → Except ErrorKind State
  | 0, s => .ok s
  | fuel + 1, s =>
    if s.hd.tpos < tableEnd s then do
      let s ← nextEntry s
      tableLoop fuel s
    else .ok s

/-! ### Bit unpacker and symbol mapper (R219 to R222) -/

/-- `CUR[CURLEN] <- b ; CURLEN <- CURLEN + 1`. -/
def pushBit (b : Bool) (s : State) : State := { s with hd := { s.hd with cur := s.hd.cur ++ [b] } }

/-- `CURLEN <- 0`. -/
def clearCur (s : State) : State := { s with hd := { s.hd with cur := [] } }

/-- One payload bit (R220): appended to the running buffer, which must not reach 256 bits (R221), then looked up. -/
def mapBit (s : State) : Except ErrorKind State :=
  let (b, s) := unpackBit (tableEnd s) s
  let s := pushBit b s
  if Config.maxCodeLen < s.hd.curLen then .error .malformedStream
  else match lookupCode s.hd s.hd.cur with
    | none => .ok s
    | some sym => do
      let s ← append (BitVec.ofNat 8 sym) s
      .ok (clearCur s)

/-- The loop `while UP_IDX < H_B` of R220, at most `fuel` bits. -/
def mapLoop : Nat → State → Except ErrorKind State
  | 0, s => .ok s
  | fuel + 1, s =>
    if s.hd.upIdx < s.hd.hB.toNat then do
      let s ← mapBit s
      mapLoop fuel s
    else .ok s

/-- The payload phase (R219 to R222): the bound, the bits, and no incomplete code left over. -/
def hufDecPayload (s : State) : Except ErrorKind State :=
  if 8 * (s.ilen.toNat - tableEnd s) < s.hd.hB.toNat then .error .malformedStream
  else do
    let s ← mapLoop s.hd.hB.toNat
      { s with phase := .hDpay, opos := 0, hd := { s.hd with upIdx := 0, cur := [] } }
    if s.hd.curLen = 0 then .ok s else .error .malformedStream

/-- The procedure of HUF_DEC (R210). -/
def hufDecProc (s : State) : Except ErrorKind State :=
  let s := hufDecInit s
  if s.ilen.toNat < Config.hdrLen then .error .malformedStream
  else
    let s := readHeader s
    if s.ilen.toNat < tableEnd s then .error .malformedStream
    else do
      let s ← tableLoop s.hd.hT.toNat { s with phase := .hDtab, hd := { s.hd with tpos := Config.hdrLen } }
      hufDecPayload s

/-! ### The meanings -/

/-- HUF_DEC (R210). -/
def execHufDec (s : State) : Host.Outcome State Fault Refusal := .next (codecCommand 4 hufDecProc s)

/-- HUF.ENTRY (R104): the symbol's code is recorded and TPOS moves past the entry. -/
def execHufEntry (len sym : Byte) (code : List Byte) (s : State) : Host.Outcome State Fault Refusal :=
  if (Instr.hufEntry len sym code).wellFormed then .next (streamStep s (tableEntry len sym code s))
  else .refused .illFormed

end Sys2Proof.Machine
end

