-- ==== Sys2Proof/Machine/HuffmanEncoder.lean ====
section
/-! DEFINITION. Component C, encode side: the command HUF_ENC as the register-level procedures of 42_huffman_encoder.md
(R170 to R187). -/

namespace Sys2Proof.Machine

/-! ### Frequency counter (R171) -/

/-- `FREQ[c] <- FREQ[c] + 1`. -/
def countSymbol (c : Byte) (h : HufEncUnit) : HufEncUnit :=
  { h with freq := h.freq.setIfInBounds c.toNat (h.freq.toList.getD c.toNat 0 + 1) }

/-- The counting pass over `IBUF[IPOS..ILEN)`, at most `fuel` symbols. -/
def freqLoop : Nat → State → State
  | 0, s => s
  | fuel + 1, s =>
    if s.ipos < s.ilen.toNat then
      freqLoop fuel { s with he := countSymbol (readIbuf s s.ipos) s.he, ipos := s.ipos + 1 }
    else s

/-- `Frequencies(x)` (R171): the counters cleared, then one count per input symbol. -/
def frequencies (s : State) : State :=
  freqLoop s.ilen.toNat
    { s with phase := .hFreq, ipos := 0, opos := 0, he := { s.he with freq := Vector.replicate 256 0 } }

/-! ### Tree builder (R172 to R174) -/

/-- `NODE[i]`. -/
def nodeAt (h : HufEncUnit) (i : Nat) : Node := h.node.toList.getD i Node.zero

/-- `NODE[NNODE] <- n ; LIVE[NNODE] <- 1 ; NLIVE <- NLIVE + 1 ; NNODE <- NNODE + 1`. -/
def pushNode (n : Node) (h : HufEncUnit) : HufEncUnit :=
  { h with node := h.node.setIfInBounds h.nNode n, live := h.live.setIfInBounds h.nNode true,
           nLive := h.nLive + 1, nNode := h.nNode + 1 }

/-- The leaf of symbol `s`, if it is present. The child fields of a leaf have no meaning and stay as stored (log 16). -/
def pushLeaf (s : Nat) (h : HufEncUnit) : HufEncUnit :=
  let f := h.freq.toList.getD s 0
  if 0 < f then pushNode { nodeAt h h.nNode with w := f, leaf := true, sym := BitVec.ofNat 8 s } h else h

/-- The leaves, in ascending order of symbol (R172). -/
def pushLeaves (h : HufEncUnit) : HufEncUnit :=
  let h := (List.range 256).foldl (fun h s => pushLeaf s h)
    { h with nNode := 0, nLive := 0, live := Vector.replicate 511 false }
  { h with nLeaf := h.nNode }

/-- The live node of the least (weight, index) among those given, the first having index `i`; `best` is the least of the
nodes before them. -/
def minLive : List Node → List Bool → Nat → Option (Nat × Nat) → Option (Nat × Nat)
  | n :: ns, l :: ls, i, best =>
    let here : Option (Nat × Nat) := if l then some (n.w, i) else none
    let best := match best, here with
      | none, x => x
      | some b, none => some b
      | some b, some x => if x.1 < b.1 then some x else some b
    minLive ns ls (i + 1) best
  | _, _, _, best => best

/-- `PopMin()` (R173): the live node of the least (weight, index) leaves the queue. It is called only while a node is
live. -/
def popMin (h : HufEncUnit) : Nat × HufEncUnit :=
  let i := match minLive h.node.toList h.live.toList 0 none with
    | none => 0
    | some b => b.2
  (i, { h with live := h.live.setIfInBounds i false, nLive := h.nLive - 1 })

/-- The branch over nodes `a` (left) and `b` (right). The symbol field of a branch has no meaning and stays as stored
(log 16). -/
def pushBranch (a b : Nat) (h : HufEncUnit) : HufEncUnit :=
  pushNode { nodeAt h h.nNode with w := (nodeAt h a).w + (nodeAt h b).w, leaf := false, left := a, right := b } h

/-- The loop `while NLIVE > 1` of R174, at most `fuel` branches; the first node popped is the left child. -/
def buildLoop : Nat → HufEncUnit → HufEncUnit
  | 0, h => h
  | fuel + 1, h =>
    if 1 < h.nLive then
      let (a, h) := popMin h
      let (b, h) := popMin h
      buildLoop fuel (pushBranch a b h)
    else h

/-- `BuildTree` (R174): branches until one node is left, which is the root. -/
def buildTree (h : HufEncUnit) : HufEncUnit :=
  let (r, h) := popMin (buildLoop Config.alphabet h)
  { h with root := r }

/-! ### Code assigner (R175 to R177) -/

/-- `CLEN[sym] <- len(code) ; CBITS[sym] <- code`. -/
def setCode (sym : Byte) (code : Bits) (h : HufEncUnit) : HufEncUnit :=
  { h with clen := h.clen.setIfInBounds sym.toNat code.length, cbits := h.cbits.setIfInBounds sym.toNat code }

/-- `Walk(i, path)` (R176), PATH holding the path of the node being visited. A leaf deeper than 255 edges raises
CodeTooLong (R177). A path of `fuel` = 511 edges has no shorter leaf below it (log 22). -/
def walk : Nat → Nat → Bits → HufEncUnit → Except ErrorKind HufEncUnit
  | 0, _, _, _ => .error .codeTooLong
  | fuel + 1, i, path, h =>
    let h := { h with path := path }
    let n := nodeAt h i
    if n.leaf then
      if Config.maxCodeLen < path.length then .error .codeTooLong else .ok (setCode n.sym path h)
    else do
      let h ← walk fuel n.left (path ++ [false]) h
      walk fuel n.right (path ++ [true]) h

/-- The code assignment (R176); the single leaf of a one-symbol input gets the code "0" (R175). -/
def assignCodes (h : HufEncUnit) : Except ErrorKind HufEncUnit :=
  let h := { h with clen := Vector.replicate 256 0 }
  let root := nodeAt h h.root
  if root.leaf then .ok (setCode root.sym [false] h) else walk Config.nodeMax h.root [] h

/-! ### Code-table serialiser and payload (R178 to R183) -/

/-- `CLEN[s]`. -/
def codeLen (h : HufEncUnit) (s : Nat) : Nat := h.clen.toList.getD s 0

/-- `CBITS[s]`. -/
def codeBits (h : HufEncUnit) (s : Nat) : Bits := h.cbits.toList.getD s []

/-- The table entry of symbol `sym`, if it has a code (R178, R140). -/
def writeEntry (sym : Nat) (s : State) : Except ErrorKind State :=
  if 0 < codeLen s.he sym then do
    let s ← append (BitVec.ofNat 8 (codeLen s.he sym)) s
    let s ← append (BitVec.ofNat 8 sym) s
    packCode (codeBits s.he sym) s
  else .ok s

/-- The table entries of the symbols given, in their order (R178). -/
def writeEntries : List Nat → State → Except ErrorKind State
  | [], s => .ok s
  | sym :: syms, s => do
    let s ← writeEntry sym s
    writeEntries syms s

/-- The code table from `OBUF[12]` on, in ascending order of symbol, `TLEN`, and the field `T` (R178 to R180). -/
def writeTable (s : State) : Except ErrorKind State := do
  let s ← writeEntries (List.range 256) { s with phase := .hTab, opos := Config.hdrLen }
  let s := { s with he := { s.he with tlen := s.opos - Config.hdrLen } }
  .ok (writeObufAll 8 (putBE s.he.tlen 4) s)

/-- The payload bits of one input symbol (R181); a symbol without a code raises EncodeError (R185). -/
def packSymbol (c : Byte) (s : State) : Except ErrorKind State :=
  if codeLen s.he c.toNat = 0 then .error .encodeError
  else do
    let s ← packBits (codeBits s.he c.toNat) s
    .ok { s with he := { s.he with btot := s.he.btot + codeLen s.he c.toNat } }

/-- The payload pass over `IBUF[IPOS..ILEN)`, at most `fuel` symbols (R181). -/
def payloadLoop : Nat → State → Except ErrorKind State
  | 0, s => .ok s
  | fuel + 1, s =>
    if s.ipos < s.ilen.toNat then do
      let s ← packSymbol (readIbuf s s.ipos) { s with ipos := s.ipos + 1 }
      payloadLoop fuel s
    else .ok s

/-- The payload, its flush, and the field `B` (R181 to R183). IPOS starts the second pass at 0 (log 17). -/
def writePayload (s : State) : Except ErrorKind State := do
  let s ← payloadLoop s.ilen.toNat (packInit { s with phase := .hPay, ipos := 0, he := { s.he with btot := 0 } })
  let s ← packFlush s
  .ok (writeObufAll 0 (putBE s.he.btot 8) s)

/-- The procedure of HUF_ENC (R170, R186). -/
def hufEncProc (s : State) : Except ErrorKind State :=
  if s.ilen = 0 then .error .emptyInput
  else do
    let s := frequencies s
    let s := { s with phase := .hTree, he := buildTree (pushLeaves s.he) }
    let h ← assignCodes s.he
    let s ← writeTable { s with phase := .hCode, he := h }
    writePayload s

/-- HUF_ENC (R170). -/
def execHufEnc (s : State) : Host.Outcome State Fault Refusal := .next (codecCommand 3 hufEncProc s)

end Sys2Proof.Machine
end

