-- ==== Sys2Proof/Machine/Flags.lean ====
section
/-! DEFINITION. The only flags of the CORE, the two fields of STATUS (10_state.md R32), and the word a host reads them in
(R23). -/

namespace Sys2Proof.Machine

/-- The code of `STATUS.STATE` (R23). -/
def RunState.code : RunState → BitVec 2
  | .idle => 0
  | .busy => 1
  | .done => 2
  | .error => 3

/-- The code of an error kind in `STATUS.ERRKIND` (R23, 60_exceptions.md). -/
def ErrorKind.code : ErrorKind → BitVec 4
  | .emptyInput => 1
  | .malformedStream => 2
  | .codeTooLong => 3
  | .encodeError => 4
  | .capacityExceeded => 5
  | .badCommand => 6

/-- The code of `STATUS.ERRKIND`, None being 0. -/
def errCode : Option ErrorKind → BitVec 4
  | none => 0
  | some k => k.code

/-- The value of STATUS (R23): STATE in bits 1:0, ERRKIND in bits 7:4, every other bit 0. -/
def statusWord (s : State) : Word :=
  (0 : BitVec 56) ++ (errCode s.errKind ++ ((0 : BitVec 2) ++ s.runState.code))

end Sys2Proof.Machine
end

