-- ==== Sys2Proof/Machine/Interface.lean ====
section
/-! DEFINITION. Component D, the codec interface: the command CLR (44_codec_interface.md R246) and the host port's actions
(20_memory.md R62 to R65, R76) but for the write to CMD, which runs an instruction (Step.lean). -/

namespace Sys2Proof.Machine

/-- CLR (R246): outside BUSY it returns STATUS and OLEN to 0; in BUSY it is ignored like every write. -/
def execClr (s : State) : Host.Outcome State Fault Refusal :=
  .next (if s.runState = .busy then s else clearStatus s)

/-- The value of register `n` and the state after the read (R64); no register above 7 (R65). While BUSY, OLEN reads as
any value, possibly another at each read (R76): a fresh draw of a free value (log 6). -/
def readReg (n : Nat) (s : State) : Option (Word × State) :=
  match n with
  | 0 => some (0, s)
  | 1 => some (statusWord s, s)
  | 2 => some (s.ilen, s)
  | 3 =>
    if s.runState = .busy then some (Config.olenFree s.fresh, { s with fresh := s.fresh + 1 })
    else some (s.olen, s)
  | 4 => some (BitVec.ofNat 64 s.cfg.nMax, s)
  | 5 => some (BitVec.ofNat 64 s.cfg.mMax, s)
  | 6 => some (0, s)
  | 7 => some (0, s)
  | _ => none

/-- The state after a write of `v` to register `n` other than CMD (R64): ILEN is stored unless BUSY, every other write is
ignored; no register above 7 (R65). -/
def writeReg (n : Nat) (v : Word) (s : State) : Option State :=
  if n = 2 then some (if s.runState = .busy then s else { s with ilen := v })
  else if n < 8 then some s
  else none

/-- The octet at index `a` of a space and the state after the read (R60, R63, R247). While BUSY, OBUF reads as any value,
possibly another at each read (R76): a fresh draw of a free value (log 6). -/
def readOctet (sp : OctetSpace) (a : Nat) (s : State) : Option (Byte × State) :=
  match sp with
  | .ibuf => if a < s.cfg.nMax then some (readIbuf s a, s) else none
  | .obuf =>
    if a < s.cfg.mMax then
      if s.runState = .busy then some (Config.obufFree s.fresh a, { s with fresh := s.fresh + 1 })
      else some (readObuf s a, s)
    else none
  | .tagRle => Config.tagRle[a]?.map (fun o => (o, s))
  | .tagHuf => Config.tagHuf[a]?.map (fun o => (o, s))

/-- The state after a write of `v` at index `a` of a space (R60): IBUF is written unless BUSY; writes to OBUF and to the
ROMs are ignored; no index outside the space (R65). -/
def writeOctet (sp : OctetSpace) (a : Nat) (v : Byte) (s : State) : Option State :=
  match sp with
  | .ibuf =>
    if a < s.cfg.nMax then
      some (if s.runState = .busy then s else { s with ibuf := Memory.insert s.ibuf a v })
    else none
  | .obuf => if a < s.cfg.mMax then some s else none
  | .tagRle => if a < Config.tagRle.length then some s else none
  | .tagHuf => if a < Config.tagHuf.length then some s else none

/-- A read's value goes to the host. -/
def answerWord : Option (Word × State) → Host.Outcome State Fault Refusal
  | some (v, s) => .next { s with reply := .word v }
  | none => .refused .noSuchIndex

/-- A read's octet goes to the host. -/
def answerOctet : Option (Byte × State) → Host.Outcome State Fault Refusal
  | some (v, s) => .next { s with reply := .octet v }
  | none => .refused .noSuchIndex

/-- A write is done, or is no action. -/
def answerWrite : Option State → Host.Outcome State Fault Refusal
  | some s => .next s
  | none => .refused .noSuchIndex

end Sys2Proof.Machine
end

