-- ==== Sys2Proof/Machine/Rle.lean ====
section
/-! DEFINITION. Component B, the RLE codec (41_rle.md): the commands RLE_ENC and RLE_DEC as the register-level procedures
of R152 and R158, and the stream-level instructions RLE.REPEAT and RLE.LITERAL that RLE_DEC carries out. -/

namespace Sys2Proof.Machine

/-! ### The encoder -/

/-- `LITBUF[i]`. -/
def litAt (s : State) (i : Nat) : Byte := s.re.litBuf.toList.getD i 0

/-- `LITBUF[i] <- c ; L_CNT <- i + 1 ; R_MODE <- LIT`. -/
def holdLiteral (i : Nat) (c : Byte) (s : State) : State :=
  { s with re := { s.re with litBuf := s.re.litBuf.setIfInBounds i c, lCnt := i + 1, mode := .lit } }

/-- `R_MODE <- NONE ; L_CNT <- 0`: no open run. -/
def closeRun (s : State) : State := { s with re := { s.re with mode := .none, lCnt := 0 } }

/-- `R_SYM <- c ; R_CNT <- 2 ; R_MODE <- REP ; L_CNT <- 0`: a repeat run starts. -/
def startRepeat (c : Byte) (s : State) : State :=
  { s with re := { s.re with sym := c, cnt := 2, mode := .rep, lCnt := 0 } }

/-- `R_CNT <- R_CNT + 1`. -/
def countRepeat (s : State) : State := { s with re := { s.re with cnt := s.re.cnt + 1 } }

/-- `EmitRepeat()` (R153). -/
def emitRepeat (s : State) : Except ErrorKind State :=
  appendAll [serviceOctet true (storedRepeat s.re.cnt), s.re.sym] s

/-- `EmitLiteral()` (R154) of the first `k` held symbols. -/
def emitLiteral (k : Nat) (s : State) : Except ErrorKind State :=
  appendAll (serviceOctet false (storedLiteral k) :: s.re.litBuf.toList.take k) s

/-- One input symbol of the run classification (R152), by the kind of the open run. -/
def rleSymbol (c : Byte) (s : State) : Except ErrorKind State :=
  match s.re.mode with
  | .none => .ok (holdLiteral 0 c s)
  | .lit =>
    if c = litAt s (s.re.lCnt - 1) then do
      let s ← if 0 < s.re.lCnt - 1 then emitLiteral (s.re.lCnt - 1) s else .ok s
      .ok (startRepeat c s)
    else
      let s := holdLiteral s.re.lCnt c s
      if s.re.lCnt = Config.maxLiteral then do
        let s ← emitLiteral s.re.lCnt s
        .ok (closeRun s)
      else .ok s
  | .rep =>
    if c = s.re.sym then
      let s := countRepeat s
      if s.re.cnt = Config.maxRepeat then do
        let s ← emitRepeat s
        .ok (closeRun s)
      else .ok s
    else do
      let s ← emitRepeat s
      .ok (holdLiteral 0 c s)

/-- The loop `while IPOS < ILEN` of R152, at most `fuel` symbols; ILEN is enough (R243). -/
def rleEncLoop : Nat → State → Except ErrorKind State
  | 0, s => .ok s
  | fuel + 1, s =>
    if s.ipos < s.ilen.toNat then do
      let s ← rleSymbol (readIbuf s s.ipos) { s with ipos := s.ipos + 1 }
      rleEncLoop fuel s
    else .ok s

/-- The flush of the trailing run at the end of the input (R152). -/
def rleFlush (s : State) : Except ErrorKind State :=
  match s.re.mode with
  | .none => .ok s
  | .lit => emitLiteral s.re.lCnt s
  | .rep => emitRepeat s

/-- The procedure of RLE_ENC (R150 to R152). -/
def rleEncProc (s : State) : Except ErrorKind State :=
  if s.ilen = 0 then .error .emptyInput
  else do
    let s ← rleEncLoop s.ilen.toNat (closeRun { s with phase := .rleE, ipos := 0, opos := 0 })
    rleFlush s

/-! ### The decoder -/

/-- The decoder's action on a Repeat group (R158, 30_encoding.md R97). -/
def repeatGroup (n : BitVec 7) (sym : Byte) (s : State) : Except ErrorKind State :=
  appendAll (List.replicate (repeatCount n) sym)
    { s with dSvc := serviceOctet true n, ipos := s.ipos + 2 }

/-- The decoder's action on a Literal group (R158, 30_encoding.md R99). -/
def literalGroup (n : BitVec 7) (syms : List Byte) (s : State) : Except ErrorKind State :=
  appendAll syms { s with dSvc := serviceOctet false n, ipos := s.ipos + (1 + literalCount n) }

/-- The decoder's action on the group at IPOS; a group cut off by the end of the input raises MalformedStream before any
of it is appended (R158, R159). -/
def nextGroup (s : State) : Except ErrorKind State :=
  match decodeGroup (groupWindow s) with
  | .ok (.rleRepeat n sym, _) => repeatGroup n sym s
  | .ok (.rleLiteral n syms, _) => literalGroup n syms s
  | .ok _ => .error .malformedStream
  | .error _ => .error .malformedStream

/-- The loop `while IPOS < ILEN` of R158, at most `fuel` groups; ILEN is enough (R243). -/
def rleDecLoop : Nat → State → Except ErrorKind State
  | 0, s => .ok s
  | fuel + 1, s =>
    if s.ipos < s.ilen.toNat then do
      let s ← nextGroup s
      rleDecLoop fuel s
    else .ok s

/-- The procedure of RLE_DEC (R157, R158). -/
def rleDecProc (s : State) : Except ErrorKind State :=
  rleDecLoop s.ilen.toNat { s with phase := .rleD, ipos := 0, opos := 0 }

/-! ### The meanings -/

/-- RLE_ENC (R151). -/
def execRleEnc (s : State) : Host.Outcome State Fault Refusal := .next (codecCommand 1 rleEncProc s)

/-- RLE_DEC (R157). -/
def execRleDec (s : State) : Host.Outcome State Fault Refusal := .next (codecCommand 2 rleDecProc s)

/-- RLE.REPEAT (R97): `N + 2` copies of the symbol are appended and IPOS moves past the group. -/
def execRleRepeat (n : BitVec 7) (sym : Byte) (s : State) : Host.Outcome State Fault Refusal :=
  .next (streamStep s (repeatGroup n sym s))

/-- RLE.LITERAL (R99): the `N + 1` symbols are appended and IPOS moves past the group. -/
def execRleLiteral (n : BitVec 7) (syms : List Byte) (s : State) : Host.Outcome State Fault Refusal :=
  if (Instr.rleLiteral n syms).wellFormed then .next (streamStep s (literalGroup n syms s))
  else .refused .illFormed

end Sys2Proof.Machine
end

