-- ==== Sys2Proof/Machine/Fetch.lean ====
section
/-! DEFINITION. Where the sequencer finds what to do next. There is no program counter (10_state.md R30): in BUSY the command
is in OP (R29), and inside RLE_DEC and HUF_DEC the stream-level instruction is in IBUF at IPOS or TPOS. -/

namespace Sys2Proof.Machine

/-- What a turn of the sequencer does. -/
inductive Fetched where
  /-- Nothing: STATE is not BUSY. -/
  | wait
  /-- An instruction runs. -/
  | run (i : Instr)
  /-- The stream holds no instruction where one must be. -/
  | raise (k : ErrorKind)
  /-- The stream's instructions are all done. -/
  | finish
  /-- OP names no procedure (never in BUSY, R242). -/
  | noProcedure
deriving DecidableEq, Repr

/-- The command whose opcode OP holds: 1 to 4 (R242). -/
def opInstr (op : BitVec 3) : Option Instr :=
  match op.toNat with
  | 1 => some .rleEnc
  | 2 => some .rleDec
  | 3 => some .hufEnc
  | 4 => some .hufDec
  | _ => none

/-- The command in OP, for the Execute step. -/
def fetchCommand (s : State) : Fetched :=
  match opInstr s.op with
  | some i => .run i
  | none => .noProcedure

/-- The group at IPOS, or the end of the stream (41_rle.md R158). -/
def fetchGroup (s : State) : Fetched :=
  if s.ipos < s.ilen.toNat then
    match decodeGroup (groupWindow s) with
    | .ok (i, _) => .run i
    | .error _ => .raise .malformedStream
  else .finish

/-- The table entry at TPOS, or the end of the table (43_huffman_decoder.md R214). -/
def fetchEntry (s : State) : Fetched :=
  if s.hd.tpos < tableEnd s then
    match decodeEntry (entryWindow s) with
    | .ok (i, _) => .run i
    | .error _ => .raise .malformedStream
  else .finish

/-- What the sequencer does next. A command between its issue and its Execute step rests in P_CHECK and runs whole (R243).
A state that rests inside P_RLE_D or P_H_DTAB, which no run from reset reaches, goes on by one stream-level instruction
(log 8). -/
def fetch (s : State) : Fetched :=
  if s.runState = .busy then
    match s.phase with
    | .rleD => fetchGroup s
    | .hDtab => fetchEntry s
    | _ => fetchCommand s
  else .wait

/-- The rest of the command after its last stream-level instruction: completion for RLE_DEC, the payload and completion
for HUF_DEC. -/
def finish (s : State) : State :=
  match s.phase with
  | .hDtab => complete s (hufDecPayload s)
  | _ => completeDone s

/-! ### Placing an instruction where the sequencer looks for it (log 1) -/

/-- The host's actions, kept for after the sequencer's turn. -/
def turnFirst : List PortEvent → List PortEvent
  | [] => []
  | es => .turn :: es

/-- A command word. A codec command is placed as issued: BUSY, in OP, in P_CHECK. CLR and a reserved word have no
execution after the write itself (44_codec_interface.md R240): the write is placed as the host's next action. -/
def placeCommand (w : Word) (s : State) : State :=
  match decodeCommand w with
  | .ok .rleEnc | .ok .rleDec | .ok .hufEnc | .ok .hufDec =>
    { s with op := w.extractLsb' 0 3, runState := .busy, errKind := none, phase := .check, port := turnFirst s.port }
  | _ =>
    { s with runState := if s.runState = .busy then .idle else s.runState, phase := .idle,
             port := .writeReg 0 w :: s.port }

/-- The octets of an RLE group: the input of an RLE_DEC that is at its first group. -/
def placeGroup (octets : List Byte) (s : State) : State :=
  { s with op := 2, runState := .busy, errKind := none, phase := .rleD, ipos := 0,
           ilen := BitVec.ofNat 64 octets.length, ibuf := Memory.insertAll s.ibuf 0 octets, port := turnFirst s.port }

/-- The octets of a table entry: the table of a HUF_DEC that is at its first entry. -/
def placeEntry (octets : List Byte) (s : State) : State :=
  { s with op := 4, runState := .busy, errKind := none, phase := .hDtab,
           ilen := BitVec.ofNat 64 (12 + octets.length), ibuf := Memory.insertAll s.ibuf 12 octets,
           hd := { s.hd with tpos := 12, hT := BitVec.ofNat 32 octets.length }, port := turnFirst s.port }

/-- An encoded form, placed. -/
def placeCode (c : Code) (s : State) : State :=
  match c with
  | .command w => placeCommand w s
  | .group octets => placeGroup octets s
  | .entry octets => placeEntry octets s

end Sys2Proof.Machine
end

