-- ==== Sys2Proof/Machine/Dispatch.lean ====
section
/-! DEFINITION. The dispatch of the instructions to their meanings. -/

namespace Sys2Proof.Machine

def exec (i : Instr) (s : State) : Host.Outcome State Fault Refusal :=
  match i with
  | .clr => Sys2Proof.Machine.execClr s
  | .rleEnc => Sys2Proof.Machine.execRleEnc s
  | .rleDec => Sys2Proof.Machine.execRleDec s
  | .hufEnc => Sys2Proof.Machine.execHufEnc s
  | .hufDec => Sys2Proof.Machine.execHufDec s
  | .rleRepeat n sym => Sys2Proof.Machine.execRleRepeat n sym s
  | .rleLiteral n syms => Sys2Proof.Machine.execRleLiteral n syms s
  | .hufEntry len sym code => Sys2Proof.Machine.execHufEntry len sym code s

end Sys2Proof.Machine
end

