-- ==== Sys2Proof/Machine/Step.lean ====
section
/-! DEFINITION. One step of the machine: the next host action, reset, or a turn of the sequencer. -/

namespace Sys2Proof.Machine

/-- A turn of the sequencer: outside BUSY it waits (60_exceptions.md R285); in BUSY it runs what it fetches. -/
def sequencerTurn (s : State) : Host.Outcome State Fault Refusal :=
  match fetch s with
  | .wait => .next s
  | .run i => exec i s
  | .raise k => .next (failCommand k s)
  | .finish => .next (finish s)
  | .noProcedure => .fault .noProcedure

/-- A host write to CMD (44_codec_interface.md R240): ignored in BUSY, BadCommand for a reserved word (R272), else the
command it decodes to. -/
def commandWrite (v : Word) (s : State) : Host.Outcome State Fault Refusal :=
  if s.runState = .busy then .next s
  else match decodeCommand v with
    | .ok i => exec i s
    | .error _ => .next (raiseError .badCommand s)

/-- What an event at the boundary does. -/
def portStep (e : PortEvent) (s : State) : Host.Outcome State Fault Refusal :=
  match e with
  | .readReg n => answerWord (readReg n s)
  | .writeReg n v => if n = 0 then commandWrite v s else answerWrite (writeReg n v s)
  | .readOctet sp a => answerOctet (readOctet sp a s)
  | .writeOctet sp a v => answerWrite (writeOctet sp a v s)
  | .reset => .next (resetFrom s)
  | .turn => sequencerTurn s

/-- One step: the next event of the host port; with none left, the sequencer's turn (R243: the CORE makes progress
regardless). -/
def step (s : State) : Host.Outcome State Fault Refusal :=
  match s.port with
  | [] => sequencerTurn s
  | e :: es => portStep e { s with port := es }

/-- `s` with the instruction of `nbits` bits `w` placed where the very next step finds it (log 1). -/
def State.withFetchWord (s : State) (nbits w : Nat) : State := placeCode (tableCode nbits w) s

end Sys2Proof.Machine
end

