-- ==== Sys2Proof/Machine/Functions.lean ====
section
/-! DEFINITION. The commands as functions of the input buffer, the spec's normative reading (00_scope.md R13): R155 and R151,
R157, R170, R210, each with the capacity of R271 and the order of errors of R274. The meanings are the register-level
procedures; that they compute these functions is stated in the obligations. -/

namespace Sys2Proof.Machine

/-! ### RLE -/

/-- An RLE run (41_rle.md R155). -/
inductive Run where
  | rep (s : Byte) (c : Nat)
  | lit (ss : List Byte)
deriving DecidableEq, Repr

/-- How many symbols at the head of `xs` equal `x`. -/
def sameCount (x : Byte) : List Byte → Nat
  | [] => 0
  | y :: ys => if y = x then sameCount x ys + 1 else 0

/-- How many symbols at the head of `xs` go on a stretch, begun by `x`, with no two neighbours equal. -/
def stretchCount (x : Byte) : List Byte → Nat
  | [] => 0
  | y :: ys => if y = x then 0 else stretchCount y ys + 1

/-- `Runs(x)` (R155) with at most `fuel` runs; the length of `x` is enough. -/
def runsFuel : Nat → List Byte → List Run
  | 0, _ => []
  | _, [] => []
  | fuel + 1, x :: xs =>
    let m := sameCount x xs + 1
    let q := stretchCount x xs + 1
    if 2 ≤ m then
      Run.rep x (min m 129) :: runsFuel fuel ((x :: xs).drop (min m 129))
    else if 128 ≤ q then
      Run.lit ((x :: xs).take 128) :: runsFuel fuel ((x :: xs).drop 128)
    else if q = xs.length + 1 then [Run.lit (x :: xs)]
    else Run.lit ((x :: xs).take (q - 1)) :: runsFuel fuel ((x :: xs).drop (q - 1))

/-- `Runs(x)` (R155). -/
def runs (x : List Byte) : List Run := runsFuel x.length x

/-- The octets of a run (R153, R154). -/
def Run.octets : Run → List Byte
  | .rep s c => [serviceOctet true (storedRepeat c), s]
  | .lit ss => serviceOctet false (storedLiteral ss.length) :: ss

/-- The symbols a run stands for. -/
def Run.symbols : Run → List Byte
  | .rep s c => List.replicate c s
  | .lit ss => ss

/-- The runs R155 allows: a Repeat of 2 to 129, a Literal of 1 to 128. -/
def Run.inRange : Run → Bool
  | .rep _ c => decide (2 ≤ c) && decide (c ≤ 129)
  | .lit ss => decide (1 ≤ ss.length) && decide (ss.length ≤ 128)

/-- The stream RLE_ENC gives for `x` (R151). -/
def rleStream (x : List Byte) : List Byte := (runs x).flatMap Run.octets

/-- RLE_ENC as a function (R150, R151, R271). -/
def rleEncFn (c : Config) (x : List Byte) : Except ErrorKind (List Byte) :=
  if x = [] then .error .emptyInput
  else if c.mMax < (rleStream x).length then .error .capacityExceeded
  else .ok (rleStream x)

/-- `Dec` (R157) after the output `out`, with at most `fuel` groups; the length of `y` is enough. In each group the
truncation check comes before its appends (R274). -/
def rleDecFuel (c : Config) : Nat → List Byte → List Byte → Except ErrorKind (List Byte)
  | _, [], out => .ok out
  | 0, _ :: _, out => .ok out
  | fuel + 1, svc :: rest, out =>
    let n : BitVec 7 := svc.extractLsb' 0 7
    if svc.getLsbD 7 then
      match rest with
      | [] => .error .malformedStream
      | sym :: rest =>
        if c.mMax < out.length + repeatCount n then .error .capacityExceeded
        else rleDecFuel c fuel rest (out ++ List.replicate (repeatCount n) sym)
    else if rest.length < literalCount n then .error .malformedStream
    else if c.mMax < out.length + literalCount n then .error .capacityExceeded
    else rleDecFuel c fuel (rest.drop (literalCount n)) (out ++ rest.take (literalCount n))

/-- RLE_DEC as a function (R157, R271, R274). -/
def rleDecFn (c : Config) (y : List Byte) : Except ErrorKind (List Byte) := rleDecFuel c y.length y []

/-! ### Huffman encode -/

/-- A Huffman tree (10_state.md R41). -/
inductive Tree where
  | leaf (w : Nat) (sym : Byte)
  | branch (w : Nat) (l r : Tree)
deriving DecidableEq, Repr

/-- The weight of a tree. -/
def Tree.weight : Tree → Nat
  | .leaf w _ => w
  | .branch w _ _ => w

/-- The leaves of `x`, numbered from 0 in ascending order of symbol (42_huffman_encoder.md R171, R172). -/
def leaves (x : List Byte) : List (Nat × Tree) :=
  let present := (List.range 256).filter (fun s => 0 < x.count (BitVec.ofNat 8 s))
  present.zipIdx.map (fun p => (p.2, Tree.leaf (x.count (BitVec.ofNat 8 p.1)) (BitVec.ofNat 8 p.1)))

/-- The entry of the least (weight, number) among `q :: qs` (R173). -/
def leastOf (q : Nat × Tree) (qs : List (Nat × Tree)) : Nat × Tree :=
  qs.foldl (fun b e =>
    if e.2.weight < b.2.weight ∨ (e.2.weight = b.2.weight ∧ e.1 < b.1) then e else b) q

/-- `BuildTree` (R174) on the queue `qs`, the next branch taking number `next`; the first two popped become the left and
the right child. -/
def treeFuel : Nat → Nat → List (Nat × Tree) → Option Tree
  | _, _, [] => none
  | 0, _, q :: _ => some q.2
  | _, _, [q] => some q.2
  | fuel + 1, next, q :: qs =>
    let a := leastOf q qs
    match (q :: qs).filter (fun e => e.1 != a.1) with
    | [] => none
    | r :: rs =>
      let b := leastOf r rs
      treeFuel fuel (next + 1)
        ((r :: rs).filter (fun e => e.1 != b.1) ++ [(next, Tree.branch (a.2.weight + b.2.weight) a.2 b.2)])

/-- The tree of `x` (R172 to R174), if `x` is not empty. -/
def huffTree (x : List Byte) : Option Tree := treeFuel 256 (leaves x).length (leaves x)

/-- The codes of the leaves of a tree below `path` (R176). -/
def Tree.codesBelow : Tree → Bits → List (Byte × Bits)
  | .leaf _ sym, path => [(sym, path)]
  | .branch _ l r, path => l.codesBelow (path ++ [false]) ++ r.codesBelow (path ++ [true])

/-- The codes of a tree (R175, R176): a single leaf has the code "0". -/
def Tree.codes : Tree → List (Byte × Bits)
  | .leaf _ sym => [(sym, [false])]
  | .branch w l r => (Tree.branch w l r).codesBelow []

/-- The code of a symbol in a list of codes. -/
def codeOf (codes : List (Byte × Bits)) (s : Byte) : Option Bits :=
  (codes.find? (fun e => e.1 == s)).map (fun e => e.2)

/-- The code table of `codes` in ascending order of symbol (R178). -/
def tableOctets (codes : List (Byte × Bits)) : List Byte :=
  (List.range 256).flatMap (fun s =>
    match codeOf codes (BitVec.ofNat 8 s) with
    | none => []
    | some code => BitVec.ofNat 8 code.length :: BitVec.ofNat 8 s :: pack code)

/-- The payload bits of `x` (R181). -/
def payloadBits (codes : List (Byte × Bits)) (x : List Byte) : Bits :=
  x.flatMap (fun s => (codeOf codes s).getD [])

/-- The container of a table and payload bits (R170, R183). -/
def container (table : List Byte) (bits : Bits) : List Byte :=
  putBE bits.length 8 ++ putBE table.length 4 ++ table ++ pack bits

/-- The container HUF_ENC gives for `x` when its codes are `codes`. -/
def hufStream (codes : List (Byte × Bits)) (x : List Byte) : List Byte :=
  container (tableOctets codes) (payloadBits codes x)

/-- HUF_ENC as a function (R170, R177, R185, R186, R271, R274). -/
def hufEncFn (c : Config) (x : List Byte) : Except ErrorKind (List Byte) :=
  match huffTree x with
  | none => .error .emptyInput
  | some t =>
    if t.codes.any (fun e => decide (255 < e.2.length)) then .error .codeTooLong
    else if c.mMax < (hufStream t.codes x).length then .error .capacityExceeded
    else .ok (hufStream t.codes x)

/-! ### Huffman decode -/

/-- The entries of a code table, in table order after those in `got` (43_huffman_decoder.md R214 to R218), with at most
`fuel` entries; the length of the table is enough. -/
def parseFuel : Nat → List Byte → List (Byte × Bits) → Except ErrorKind (List (Byte × Bits))
  | _, [], got => .ok got
  | 0, _ :: _, got => .ok got
  | _ + 1, [_], _ => .error .malformedStream
  | fuel + 1, len :: sym :: rest, got =>
    let nb := ceil8 len.toNat
    let code := unpack (rest.take nb) len.toNat
    if len = 0 then .error .malformedStream
    else if rest.length < nb then .error .malformedStream
    else if got.any (fun e => e.1 == sym) then .error .malformedStream
    else if got.any (fun e => e.2 == code) then .error .malformedStream
    else parseFuel fuel (rest.drop nb) (got ++ [(sym, code)])

/-- `ParseTable` (R210). -/
def parseTable (table : List Byte) : Except ErrorKind (List (Byte × Bits)) := parseFuel table.length table []

/-- The symbol mapping of R220 to R222 after the output `out` with the running buffer `cur`; an output past the capacity
raises CapacityExceeded where it is met (R274). -/
def mapBits (c : Config) (table : List (Byte × Bits)) : Bits → Bits → List Byte → Except ErrorKind (List Byte)
  | [], cur, out => if cur = [] then .ok out else .error .malformedStream
  | b :: bs, cur, out =>
    if 255 < cur.length + 1 then .error .malformedStream
    else match table.find? (fun e => e.2 == cur ++ [b]) with
      | none => mapBits c table bs (cur ++ [b]) out
      | some e =>
        if c.mMax ≤ out.length then .error .capacityExceeded else mapBits c table bs [] (out ++ [e.1])

/-- HUF_DEC as a function (R210, R271, R274). -/
def hufDecFn (c : Config) (y : List Byte) : Except ErrorKind (List Byte) :=
  if y.length < 12 then .error .malformedStream
  else
    let b := getBE y 0 8
    let t := getBE y 8 4
    if y.length < 12 + t then .error .malformedStream
    else do
      let table ← parseTable ((y.drop 12).take t)
      if 8 * (y.length - (12 + t)) < b then .error .malformedStream
      else mapBits c table (unpack (y.drop (12 + t)) b) [] []

/-! ### Commands -/

/-- The outcome of a codec command on the input in `s` (R241, R245): the entry check, then its function. -/
def outcomeOf (fn : Config → List Byte → Except ErrorKind (List Byte)) (s : State) : Except ErrorKind (List Byte) :=
  if s.cfg.nMax < s.ilen.toNat then .error .capacityExceeded else fn s.cfg s.input

end Sys2Proof.Machine
end

