-- ==== Sys2Proof/Safety.lean ====
section
/-! DEFINITION. What statements about the CORE are in terms of: the invariant of its states at rest, and what it is for a
state to be the completion of a command. -/

namespace Sys2Proof.Machine

/-- The indices listed in a buffer lie below its capacity. -/
def Memory.below (n : Nat) (m : Memory) : Bool := m.all (fun c => decide (c.1 < n))

/-- ERRKIND is not None if and only if STATE is ERROR (10_state.md R23). -/
abbrev State.statusOk (s : State) : Prop := s.errKind ≠ none ↔ s.runState = .error

/-- In BUSY, OP holds 1 to 4 (44_codec_interface.md R242). -/
abbrev State.opOk (s : State) : Prop := s.runState = .busy → 1 ≤ s.op.toNat ∧ s.op.toNat ≤ 4

/-- At rest PHASE is P_CHECK in BUSY and P_IDLE otherwise (R31, R240, R244). -/
abbrev State.phaseOk (s : State) : Prop := s.phase = if s.runState = .busy then .check else .idle

/-- In DONE the result fits OBUF and all its octets are specified (R25, R34, R244). -/
abbrev State.resultOk (s : State) : Prop :=
  s.runState = .done →
    s.olen.toNat ≤ s.cfg.mMax ∧ ∀ a, a < s.olen.toNat → (Memory.lookup s.obuf a).isSome = true

/-- In IDLE and ERROR there is no result: OLEN is 0 (R25, R46, R246). -/
abbrev State.olenOk (s : State) : Prop := s.runState = .idle ∨ s.runState = .error → s.olen = 0

/-- Both buffers are in canonical form and list no index outside them (20_memory.md R60). -/
abbrev State.buffersOk (s : State) : Prop :=
  s.ibuf.wf = true ∧ s.obuf.wf = true ∧ s.ibuf.below s.cfg.nMax = true ∧ s.obuf.below s.cfg.mMax = true

/-- The invariant of the states at rest between steps. -/
structure State.Inv (s : State) : Prop where
  /-- The parameters are in the bounds of R8. -/
  valid : s.cfg.Valid
  status : s.statusOk
  op : s.opOk
  phase : s.phaseOk
  result : s.resultOk
  olen : s.olenOk
  buffers : s.buffersOk

/-- Every counter, cursor and bit string of State that is not a word or an octet fits the width 10_state.md R26 and R40 to
R44 give its register; FREQ and the weights have WEIGHT_W bits (00_scope.md R8, R14). -/
structure State.WidthsOk (s : State) : Prop where
  cursors : s.ipos < 2 ^ 64 ∧ s.opos < 2 ^ 64
  packer : s.pk.cnt < 2 ^ 3
  runs : s.re.cnt < 2 ^ 8 ∧ s.re.lCnt < 2 ^ 8
  freq : ∀ f ∈ s.he.freq.toList, f < 2 ^ s.cfg.weightWidth
  node : ∀ n ∈ s.he.node.toList, n.w < 2 ^ s.cfg.weightWidth ∧ n.left < 2 ^ 9 ∧ n.right < 2 ^ 9
  counts : s.he.nLeaf < 2 ^ 9 ∧ s.he.nNode < 2 ^ 10 ∧ s.he.nLive < 2 ^ 9 ∧ s.he.root < 2 ^ 9
  path : s.he.path.length ≤ 256
  clen : ∀ l ∈ s.he.clen.toList, l < 2 ^ 9
  cbits : ∀ b ∈ s.he.cbits.toList, b.length ≤ 255
  totals : s.he.btot < 2 ^ 64 ∧ s.he.tlen < 2 ^ 32
  table : s.hd.tpos < 2 ^ 64 ∧ s.hd.upIdx < 2 ^ 64
  dlen : ∀ l ∈ s.hd.dlen.toList, l < 2 ^ 9
  dbits : ∀ b ∈ s.hd.dbits.toList, b.length ≤ 255
  cur : s.hd.cur.length ≤ 256

/-- `t` is the successful completion of a command begun in `s`, with result `out` (R244): DONE, ERRKIND None, OLEN and
OBUF[0..OLEN) the result, P_IDLE; IBUF, ILEN, OP and the parameters are as before. -/
structure DoneWith (s t : State) (out : List Byte) : Prop where
  state : t.runState = .done
  errKind : t.errKind = none
  olen : t.olen.toNat = out.length
  result : t.result = out
  phase : t.phase = .idle
  ibuf : ∀ a, readIbuf t a = readIbuf s a
  ilen : t.ilen = s.ilen
  op : t.op = s.op
  cfg : t.cfg = s.cfg
  port : t.port = s.port
  reply : t.reply = s.reply

/-- `t` is the completion of a command begun in `s` with error `k` (R244, R266): ERROR, the kind, OLEN 0, P_IDLE; IBUF, ILEN,
OP and the parameters are as before. -/
structure ErrorWith (s t : State) (k : ErrorKind) : Prop where
  state : t.runState = .error
  errKind : t.errKind = some k
  olen : t.olen = 0
  phase : t.phase = .idle
  ibuf : ∀ a, readIbuf t a = readIbuf s a
  ilen : t.ilen = s.ilen
  op : t.op = s.op
  cfg : t.cfg = s.cfg
  port : t.port = s.port
  reply : t.reply = s.reply

/-- `t` completes a command begun in `s` whose outcome is `r` (R244). -/
def CompletesWith (s t : State) (r : Except ErrorKind (List Byte)) : Prop :=
  match r with
  | .ok out => DoneWith s t out
  | .error k => ErrorWith s t k

/-- The codec command of an opcode in the sense of R242, with its function. -/
def codecFn : Instr → Option (Config → List Byte → Except ErrorKind (List Byte))
  | .rleEnc => some rleEncFn
  | .rleDec => some rleDecFn
  | .hufEnc => some hufEncFn
  | .hufDec => some hufDecFn
  | .clr => none
  | .rleRepeat _ _ => none
  | .rleLiteral _ _ => none
  | .hufEntry _ _ _ => none

end Sys2Proof.Machine
end

