-- ==== Sys2Proof/Certificates/Slice0/Obligations.lean ====
section
/-! DEFINITION. The statements for the provers. Each docstring names the rules of spec/ it rests on. "BUSY" in a hypothesis is
where the Execute step is enabled (44_codec_interface.md R243). -/

open Sys2Proof Sys2Proof.Machine

/-! ### Encoding -/

/-- Decoding the encoding of a well-formed instruction gives it back, alone or with further stream octets after it
(30_encoding.md R91, R92, R97, R99, R101, R104, R106). -/
def Obligations.DecodeReadsBackEveryEncoding : Prop :=
  (∀ i : Instr, i.WellFormed → decode (encode i) = .ok (i, [])) ∧
  (∀ (i : Instr) (rest : List Byte), i.WellFormed → (∀ w, encode i ≠ .command w) →
    decode ((encode i).followedBy rest) = .ok (i, rest))

/-- What the decoder accepts is well formed, and encoding it gives the bits that were decoded: no bit is dropped and no two
encodings share a meaning. -/
def Obligations.DecodedFormsEncodeBack : Prop :=
  ∀ (c : Code) (i : Instr) (rest : List Byte), decode c = .ok (i, rest) →
    i.WellFormed ∧ (encode i).followedBy rest = c

/-- Some words written out from the encoding tables decode to what they stand for (R92, R97, R99, R104). -/
def Obligations.SampleWordsDecode : Prop :=
  decode (.command 0x0000000000000000) = .ok (.clr, []) ∧
  decode (.command 0x0000000000000003) = .ok (.hufEnc, []) ∧
  decode (.group [0x82, 0xAA]) = .ok (.rleRepeat 2 0xAA, []) ∧
  decode (.group [0x02, 0x41, 0x42, 0x43]) = .ok (.rleLiteral 2 [0x41, 0x42, 0x43], []) ∧
  decode (.entry [0x03, 0x42, 0xC0]) = .ok (.hufEntry 3 0x42 [0xC0], [])

/-- The opcodes of R92, and the reserved command words of R93: `OP` 5, 6, 7, or a bit of 63:3 set. -/
def Obligations.CommandWordsAreTheOpcodes : Prop :=
  decodeCommand 0 = .ok .clr ∧ decodeCommand 1 = .ok .rleEnc ∧ decodeCommand 2 = .ok .rleDec ∧
  decodeCommand 3 = .ok .hufEnc ∧ decodeCommand 4 = .ok .hufDec ∧
  ∀ w : Word, decodeCommand w = .error .reservedCommand ↔
    (w.extractLsb' 3 61 ≠ 0 ∨ w.extractLsb' 0 3 = 5 ∨ w.extractLsb' 0 3 = 6 ∨ w.extractLsb' 0 3 = 7)

/-- Every service octet opens a group: 00..7F a Literal of 1 to 128 symbols, 80..FF a Repeat of 2 to 129, and a stream of
one group is wrong only by ending inside it (R100). -/
def Obligations.EveryServiceOctetOpensAGroup : Prop :=
  ∀ svc : Byte,
    (svc.toNat < 128 → ∀ syms rest : List Byte, syms.length = svc.toNat + 1 →
      ∃ n, decodeGroup (svc :: (syms ++ rest)) = .ok (.rleLiteral n syms, rest) ∧ literalCount n = svc.toNat + 1) ∧
    (128 ≤ svc.toNat → ∀ (sym : Byte) (rest : List Byte),
      ∃ n, decodeGroup (svc :: sym :: rest) = .ok (.rleRepeat n sym, rest) ∧ repeatCount n = svc.toNat - 128 + 2) ∧
    (∀ (rest : List Byte) (e : Reject), decodeGroup (svc :: rest) = .error e →
      rest.length < if svc.toNat < 128 then svc.toNat + 1 else 1)

/-! ### Bit I/O -/

/-- The octets of `Pack` (40_bitio.md R133), and the packer's procedure appends exactly them, leaving the packer empty. -/
def Obligations.PackerAppendsThePackedOctets : Prop :=
  (∀ bits : Bits, (pack bits).length = ceil8 bits.length ∧
    ∀ q p, q < ceil8 bits.length → p < 8 →
      ((pack bits).getD q 0).getLsbD (7 - p) = bits.getD (8 * q + p) false) ∧
  (∀ (bits : Bits) (s : State), packCode bits s =
    (appendAll (pack bits) s).map (fun t => { t with pk := { acc := 0, cnt := 0 } }))

/-- The laws of `Unpack` (40_bitio.md R135). -/
def Obligations.UnpackInvertsPack : Prop :=
  (∀ bits : Bits, unpack (pack bits) bits.length = bits) ∧
  (∀ (octets : List Byte) (n : Nat), n ≤ 8 * octets.length →
    (unpack octets n).length = n ∧
    (∀ i, i < n → (unpack octets n).getD i false = (octets.getD (i / 8) 0).getLsbD (7 - i % 8)) ∧
    (pack (unpack octets n)).length = ceil8 n ∧
    ∀ q p, q < ceil8 n → p < 8 →
      ((pack (unpack octets n)).getD q 0).getLsbD (7 - p) =
        (decide (8 * q + p < n) && (octets.getD q 0).getLsbD (7 - p)))

/-- The field writer gives the octets most significant first, the reader weighs them so, and a field written is read back
at any offset (40_bitio.md R136, R137). -/
def Obligations.FieldsReadBackBigEndian : Prop :=
  (∀ v w : Nat, (putBE v w).length = w ∧
    ∀ i, i < w → (putBE v w).getD i 0 = BitVec.ofNat 8 (v / 256 ^ (w - 1 - i) % 256)) ∧
  (∀ (buf : List Byte) (o w : Nat), o + w ≤ buf.length →
    getBE buf o w = ((List.range w).map (fun i => (buf.getD (o + i) 0).toNat * 256 ^ (w - 1 - i))).sum) ∧
  (∀ (v w : Nat) (before after : List Byte), v < 256 ^ w →
    getBE (before ++ putBE v w ++ after) before.length w = v)

/-- The back-filled container is the document's two insertions (40_bitio.md R138). -/
def Obligations.ContainerIsTwoInsertions : Prop :=
  ∀ (table : List Byte) (bits : Bits),
    container table bits = insertField (insertField table 0 table.length 4 ++ pack bits) 0 bits.length 8

/-! ### Reset, registers and the host port -/

/-- Reset, in any state, leaves what 10_state.md R46 states: STATUS, ILEN, OLEN, CMD and registers 6 and 7 read 0, CAP_IN and
CAP_OUT their constants, PHASE is P_IDLE, and no octet of IBUF or OBUF is specified. -/
def Obligations.ResetLeavesTheStatedValues : Prop :=
  ∀ (s : State) (es : List PortEvent), s.port = .reset :: es →
    ∃ t, step s = .next t ∧ t.runState = .idle ∧ t.errKind = none ∧ statusWord t = 0 ∧ t.ilen = 0 ∧ t.olen = 0 ∧
      t.phase = .idle ∧ t.port = es ∧
      (readReg 0 t).map Prod.fst = some 0 ∧ (readReg 4 t).map Prod.fst = some (BitVec.ofNat 64 s.cfg.nMax) ∧
      (readReg 5 t).map Prod.fst = some (BitVec.ofNat 64 s.cfg.mMax) ∧
      (readReg 6 t).map Prod.fst = some 0 ∧ (readReg 7 t).map Prod.fst = some 0 ∧
      (∀ a, (readOctet .tagRle a t).map Prod.fst = Config.tagRle[a]? ∧
        (readOctet .tagHuf a t).map Prod.fst = Config.tagHuf[a]?) ∧
      ∀ a, Memory.lookup t.ibuf a = none ∧ Memory.lookup t.obuf a = none

/-- The reset state has the values of R46 and meets the invariant, for any parameters in the bounds of 00_scope.md R8.
That its own parameters are 2^20 is the model's choice (log 3). -/
def Obligations.ResetMeetsTheInvariant : Prop :=
  State.reset.Inv ∧ statusWord State.reset = 0 ∧ State.reset.ilen = 0 ∧ State.reset.olen = 0 ∧
  State.reset.phase = .idle ∧ ∀ c : Config, c.Valid → (State.resetWith c).Inv

/-- The layout of STATUS (10_state.md R23), its invariant read in the word, and that a host reads it and cannot write it. -/
def Obligations.StatusWordLayout : Prop :=
  ∀ s : State,
    (statusWord s).extractLsb' 0 2 = (match s.runState with | .idle => 0 | .busy => 1 | .done => 2 | .error => 3) ∧
    (statusWord s).extractLsb' 2 2 = 0 ∧
    (statusWord s).extractLsb' 4 4 = (match s.errKind with
      | none => 0 | some .emptyInput => 1 | some .malformedStream => 2 | some .codeTooLong => 3
      | some .encodeError => 4 | some .capacityExceeded => 5 | some .badCommand => 6) ∧
    (statusWord s).extractLsb' 8 56 = 0 ∧
    (s.Inv → ((statusWord s).extractLsb' 4 4 ≠ 0 ↔ (statusWord s).extractLsb' 0 2 = 3)) ∧
    (∀ es, s.port = .readReg 1 :: es → step s = .next { s with port := es, reply := .word (statusWord s) }) ∧
    (∀ v es, s.port = .writeReg 1 v :: es → step s = .next { s with port := es })

/-- Host register access (20_memory.md R64, 10_state.md R22 to R28). -/
def Obligations.HostRegisterAccess : Prop :=
  (∀ (s : State) (es : List PortEvent) (n : Nat), s.port = .readReg n :: es →
    (n = 0 → step s = .next { s with port := es, reply := .word 0 }) ∧
    (n = 1 → step s = .next { s with port := es, reply := .word (statusWord s) }) ∧
    (n = 2 → step s = .next { s with port := es, reply := .word s.ilen }) ∧
    (n = 3 → s.runState ≠ .busy → step s = .next { s with port := es, reply := .word s.olen }) ∧
    (n = 3 → s.runState = .busy → ∃ v, step s = .next { s with port := es, reply := .word v, fresh := s.fresh + 1 }) ∧
    (n = 4 → step s = .next { s with port := es, reply := .word (BitVec.ofNat 64 s.cfg.nMax) }) ∧
    (n = 5 → step s = .next { s with port := es, reply := .word (BitVec.ofNat 64 s.cfg.mMax) }) ∧
    (n = 6 ∨ n = 7 → step s = .next { s with port := es, reply := .word 0 })) ∧
  (∀ (s : State) (es : List PortEvent) (n : Nat) (v : Word), s.port = .writeReg n v :: es →
    (n = 2 → s.runState ≠ .busy → step s = .next { s with port := es, ilen := v }) ∧
    (n = 2 → s.runState = .busy → step s = .next { s with port := es }) ∧
    (n = 1 ∨ 3 ≤ n ∧ n ≤ 7 → step s = .next { s with port := es }) ∧
    (n = 0 → s.runState = .busy → step s = .next { s with port := es }) ∧
    (n = 0 → s.runState ≠ .busy → ∀ i, decodeCommand v = .ok i → step s = exec i { s with port := es }) ∧
    (n = 0 → s.runState ≠ .busy → ∀ e, decodeCommand v = .error e →
      step s = .next (raiseError .badCommand { s with port := es })))

/-- Host access to IBUF (10_state.md R33): a write outside BUSY is read back, changes no other octet and nothing else; in
any state a read returns the octet. -/
def Obligations.HostInputBufferAccess : Prop :=
  (∀ (s : State) (es : List PortEvent) (a : Nat) (v : Byte), s.port = .writeOctet .ibuf a v :: es →
    a < s.cfg.nMax → s.runState ≠ .busy →
    ∃ t, step s = .next t ∧ t = { s with port := es, ibuf := t.ibuf } ∧ readIbuf t a = v ∧
      ∀ b, b ≠ a → readIbuf t b = readIbuf s b) ∧
  (∀ (s : State) (es : List PortEvent) (a : Nat), s.port = .readOctet .ibuf a :: es → a < s.cfg.nMax →
    step s = .next { s with port := es, reply := .octet (readIbuf s a) })

/-- Host access to OBUF (10_state.md R34): outside BUSY a read returns the octet and changes nothing else; a write is
ignored in every state. -/
def Obligations.HostOutputBufferAccess : Prop :=
  (∀ (s : State) (es : List PortEvent) (a : Nat), s.port = .readOctet .obuf a :: es → a < s.cfg.mMax →
    s.runState ≠ .busy → step s = .next { s with port := es, reply := .octet (readObuf s a) }) ∧
  (∀ (s : State) (es : List PortEvent) (a : Nat) (v : Byte), s.port = .writeOctet .obuf a v :: es →
    a < s.cfg.mMax → step s = .next { s with port := es })

/-- The identifier ROMs read the same in every state (10_state.md R35, 44_codec_interface.md R247) and ignore writes
(20_memory.md R60). That these octets code the two strings is not the document's: R247 marks the ASCII octets as general
knowledge, and the model presumes them (log 21, PRESUMED, unsafe). -/
def Obligations.TagRomsReadTheIdentifiers : Prop :=
  (∀ (s : State) (es : List PortEvent) (a : Nat), s.port = .readOctet .tagRle a :: es → a < 8 →
    step s = .next { s with
      port := es,
      reply := .octet (([0x2E, 0x63, 0x6D, 0x70, 0x72, 0x52, 0x4C, 0x45] : List Byte).getD a 0) }) ∧
  (∀ (s : State) (es : List PortEvent) (a : Nat), s.port = .readOctet .tagHuf a :: es → a < 12 →
    step s = .next { s with
      port := es,
      reply := .octet (([0x2E, 0x63, 0x6D, 0x70, 0x72, 0x48, 0x61, 0x66, 0x66, 0x6D, 0x61, 0x6E] : List Byte).getD a 0) }) ∧
  (∀ (s : State) (es : List PortEvent) (a : Nat) (v : Byte),
    (s.port = .writeOctet .tagRle a v :: es ∧ a < 8) ∨ (s.port = .writeOctet .tagHuf a v :: es ∧ a < 12) →
    step s = .next { s with port := es })

/-- An access to an index that does not exist is no action: it has no step, and is refused by name (20_memory.md R65). -/
def Obligations.MissingIndexIsNoAction : Prop :=
  ∀ (s : State) (e : PortEvent) (es : List PortEvent), s.port = e :: es →
    (match e with
      | .readReg n => 7 < n
      | .writeReg n _ => 7 < n
      | .readOctet .ibuf a => s.cfg.nMax ≤ a
      | .writeOctet .ibuf a _ => s.cfg.nMax ≤ a
      | .readOctet .obuf a => s.cfg.mMax ≤ a
      | .writeOctet .obuf a _ => s.cfg.mMax ≤ a
      | .readOctet .tagRle a => 8 ≤ a
      | .writeOctet .tagRle a _ => 8 ≤ a
      | .readOctet .tagHuf a => 12 ≤ a
      | .writeOctet .tagHuf a _ => 12 ≤ a
      | .reset => False
      | .turn => False) →
    step s = .refused .noSuchIndex

/-- The BUSY window (20_memory.md R76): writes are ignored, CMD's among them; STATUS reads BUSY and None; ILEN, IBUF, CAP_IN,
CAP_OUT and the ROMs read true; OLEN and OBUF read as some value. -/
def Obligations.BusyWindowIgnoresWrites : Prop :=
  ∀ (s : State) (e : PortEvent) (es : List PortEvent), s.port = e :: es → s.runState = .busy → s.Inv →
    match e with
    | .writeReg n _ => n < 8 → step s = .next { s with port := es }
    | .writeOctet .ibuf a _ => a < s.cfg.nMax → step s = .next { s with port := es }
    | .writeOctet .obuf a _ => a < s.cfg.mMax → step s = .next { s with port := es }
    | .writeOctet .tagRle a _ => a < 8 → step s = .next { s with port := es }
    | .writeOctet .tagHuf a _ => a < 12 → step s = .next { s with port := es }
    | .readReg 1 => step s = .next { s with port := es, reply := .word 1 }
    | .readReg 2 => step s = .next { s with port := es, reply := .word s.ilen }
    | .readReg 3 => ∃ v, step s = .next { s with port := es, reply := .word v, fresh := s.fresh + 1 }
    | .readReg 4 => step s = .next { s with port := es, reply := .word (BitVec.ofNat 64 s.cfg.nMax) }
    | .readReg 5 => step s = .next { s with port := es, reply := .word (BitVec.ofNat 64 s.cfg.mMax) }
    | .readOctet .ibuf a => a < s.cfg.nMax → step s = .next { s with port := es, reply := .octet (readIbuf s a) }
    | .readOctet .obuf a => a < s.cfg.mMax →
        ∃ v, step s = .next { s with port := es, reply := .octet v, fresh := s.fresh + 1 }
    | .readOctet .tagRle a => a < 8 → step s = .next { s with port := es, reply := .octet (Config.tagRle.getD a 0) }
    | .readOctet .tagHuf a => a < 12 → step s = .next { s with port := es, reply := .octet (Config.tagHuf.getD a 0) }
    | _ => True

/-- A result lasts until the next CMD write or reset (70_reset_and_hazards.md R295). -/
def Obligations.ResultLastsUntilTheNextCommand : Prop :=
  ∀ (s t : State) (e : PortEvent) (es : List PortEvent), s.port = e :: es → s.runState = .done →
    (∀ v, e ≠ .writeReg 0 v) → e ≠ .reset → step s = .next t →
    t.runState = .done ∧ t.errKind = s.errKind ∧ t.olen = s.olen ∧ t.result = s.result

/-! ### Commands: issue, execution, completion -/

/-- CLR (44_codec_interface.md R246): outside BUSY, STATE IDLE, ERRKIND None, OLEN 0, OBUF unspecified (nothing of it is
listed, and a new draw stands behind it), IBUF, ILEN and everything else unchanged; in BUSY it is ignored. -/
def Obligations.ClrReturnsToIdle : Prop :=
  ∀ s : State,
    (s.runState ≠ .busy →
      exec .clr s = .next { s with runState := .idle, errKind := none, olen := 0, obuf := [], obufEpoch := s.fresh,
                                   fresh := s.fresh + 1 }) ∧
    (s.runState = .busy → exec .clr s = .next s)

/-- A codec command met outside BUSY is issued (44_codec_interface.md R240): OP, BUSY, None, P_CHECK; OBUF becomes
unspecified and nothing else that R240 names changes. Three things here are the model's choices: that a meaning is the issue
(log 10); that the register OLEN, which R240 makes unspecified until the command completes, keeps its field meanwhile, a
host read of it in BUSY being a free value (log 6); and the draws that stand for OBUF (log 5). -/
def Obligations.CodecCommandIsIssued : Prop :=
  ∀ s : State, s.runState ≠ .busy → ∀ (i : Instr) (op : BitVec 3),
    (i, op) ∈ [(Instr.rleEnc, (1 : BitVec 3)), (.rleDec, 2), (.hufEnc, 3), (.hufDec, 4)] →
    exec i s = .next { s with op := op, runState := .busy, errKind := none, phase := .check, obuf := [],
                              obufEpoch := s.fresh, fresh := s.fresh + 1 }

/-- A reserved word written to CMD outside BUSY reports BadCommand at once: STATUS 0x63, OLEN 0, no operation started, IBUF
and ILEN untouched (30_encoding.md R93, 60_exceptions.md R272). -/
def Obligations.ReservedWordIsBadCommand : Prop :=
  ∀ (s : State) (w : Word) (es : List PortEvent), s.port = .writeReg 0 w :: es → s.runState ≠ .busy →
    (w.extractLsb' 3 61 ≠ 0 ∨ 5 ≤ (w.extractLsb' 0 3).toNat) →
    ∃ t, step s = .next t ∧ t.runState = .error ∧ t.errKind = some .badCommand ∧ statusWord t = 0x63 ∧ t.olen = 0 ∧
      t.ilen = s.ilen ∧ t.ibuf = s.ibuf ∧ t.ibufEpoch = s.ibufEpoch ∧ t.op = s.op ∧ t.cfg = s.cfg ∧ t.port = es

/-- A step runs the decoded instruction. A word written to CMD outside BUSY is decoded and run, on the state with that host
action taken off the list; in BUSY, at P_CHECK, the sequencer's turn runs the command in OP. -/
def Obligations.StepRunsTheCommand : Prop :=
  (∀ (s : State) (w : Word) (es : List PortEvent) (i : Instr), s.port = .writeReg 0 w :: es → s.runState ≠ .busy →
    decodeCommand w = .ok i → step s = exec i { s with port := es }) ∧
  (∀ (s : State) (i : Instr), s.port = [] → s.runState = .busy → s.phase = .check → opInstr s.op = some i →
    step s = exec i s) ∧
  (∀ (s : State) (es : List PortEvent) (i : Instr), s.port = .turn :: es → s.runState = .busy → s.phase = .check →
    opInstr s.op = some i → step s = exec i { s with port := es })

/-- A step runs the stream-level instruction that the octets at IPOS (in P_RLE_D) or TPOS (in P_H_DTAB) decode to; octets
that decode to none raise MalformedStream (41_rle.md R158, R159; 43_huffman_decoder.md R214 to R216). That a step stops
between them is the model's choice (log 8). -/
def Obligations.StepRunsTheStreamInstruction : Prop :=
  (∀ s : State, s.port = [] → s.runState = .busy → s.phase = .rleD → s.ipos < s.ilen.toNat →
    match decodeGroup (ibufOctets s s.ipos (s.ilen.toNat - s.ipos)) with
    | .ok (i, _) => step s = exec i s
    | .error _ => step s = .next (failCommand .malformedStream s)) ∧
  (∀ s : State, s.port = [] → s.runState = .busy → s.phase = .hDtab → s.hd.tpos < tableEnd s →
    match decodeEntry (ibufOctets s s.hd.tpos (tableEnd s - s.hd.tpos)) with
    | .ok (i, _) => step s = exec i s
    | .error _ => step s = .next (failCommand .malformedStream s))

/-- Outside BUSY the sequencer does nothing (60_exceptions.md R285). -/
def Obligations.SequencerWaitsOutsideBusy : Prop :=
  ∀ s : State, s.runState ≠ .busy →
    (s.port = [] → step s = .next s) ∧ (∀ es, s.port = .turn :: es → step s = .next { s with port := es })

/-- Execute is always enabled in BUSY and always ends in DONE or ERROR (44_codec_interface.md R243, 70_reset_and_hazards.md
R298). -/
def Obligations.ExecuteAlwaysEnds : Prop :=
  ∀ s : State, s.Inv → s.runState = .busy → s.port = [] →
    ∃ t, step s = .next t ∧ (t.runState = .done ∨ t.runState = .error)

/-- A codec command written to CMD with no further host action is completed by the second step (44_codec_interface.md R240,
R243). That the sequencer's turn comes when no host action is left is the model's choice (log 2). -/
def Obligations.WrittenCommandEndsInTwoSteps : Prop :=
  ∀ (s : State) (w : Word) (i : Instr), s.port = [.writeReg 0 w] → s.runState ≠ .busy → decodeCommand w = .ok i →
    i ≠ .clr →
    ∃ t, Host.Core.run Sys2Proof.core 2 s = .next t ∧ (t.runState = .done ∨ t.runState = .error) ∧ t.phase = .idle ∧
      t.ilen = s.ilen ∧ t.ibuf = s.ibuf

/-- The transitions of STATUS.STATE (44_codec_interface.md R248), by event. -/
def Obligations.StateTransitionsAreTheTable : Prop :=
  ∀ s t : State, s.Inv → step s = .next t →
    match s.port with
    | .reset :: _ => t.runState = .idle
    | .writeReg 0 w :: _ =>
      if s.runState = .busy then t.runState = .busy
      else match decodeCommand w with
        | .error _ => t.runState = .error ∧ t.errKind = some .badCommand
        | .ok .clr => t.runState = .idle
        | .ok _ => t.runState = .busy
    | [] | .turn :: _ =>
      if s.runState = .busy then t.runState = .done ∨ t.runState = .error else t.runState = s.runState
    | _ => t.runState = s.runState

/-- The error entry (60_exceptions.md R266, R265; 44_codec_interface.md R244), shared by all errors: OLEN 0, ERROR, the kind,
OBUF unspecified, P_IDLE; IBUF and ILEN are unchanged and nothing is saved, for a command that ends with an error and for a
CMD write that is refused (R272), which writes nothing else (R240). -/
def Obligations.ErrorEntrySavesNothing : Prop :=
  ∀ (k : ErrorKind) (s : State),
    (ErrorWith s (failCommand k s) k ∧ ∀ a, Memory.lookup (failCommand k s).obuf a = none) ∧
    raiseError k s = { s with olen := 0, runState := .error, errKind := some k, phase := .idle, obuf := [],
                              obufEpoch := s.fresh, fresh := s.fresh + 1 }

/-- No instruction writes IBUF, ILEN, the parameters or the host's side (10_state.md R24, R33; 20_memory.md R63). -/
def Obligations.NoInstructionWritesTheInput : Prop :=
  ∀ (i : Instr) (s t : State), exec i s = .next t →
    t.ilen = s.ilen ∧ (∀ a, readIbuf t a = readIbuf s a) ∧ t.ibuf = s.ibuf ∧ t.cfg = s.cfg ∧ t.port = s.port ∧
      t.reply = s.reply

/-- The outcome of a command is a function of OP, ILEN, IBUF[0..ILEN), N_MAX and M_MAX alone (44_codec_interface.md R245): two
BUSY states that agree on them complete alike, whatever their scratch, their OBUF and their past. -/
def Obligations.OutcomeDependsOnTheInputAlone : Prop :=
  ∀ s u : State, s.runState = .busy → u.runState = .busy → s.cfg.Valid → s.cfg = u.cfg → s.ilen = u.ilen →
    (∀ a, a < s.ilen.toNat → readIbuf s a = readIbuf u a) →
    ∀ i ∈ [Instr.rleEnc, .rleDec, .hufEnc, .hufDec],
      ∃ s' u', exec i s = .next s' ∧ exec i u = .next u' ∧
        statusWord s' = statusWord u' ∧ s'.olen = u'.olen ∧ s'.result = u'.result

/-- The invariant of the states at rest is kept by every step: STATUS's fields agree (10_state.md R23), OP and PHASE fit
STATE (R31, 44_codec_interface.md R242), a DONE result fits OBUF and is specified throughout (R34, R244), there is no result
otherwise (R25), and both buffers stay in canonical form inside their bounds. -/
def Obligations.StepKeepsTheInvariant : Prop :=
  ∀ s t : State, s.Inv → step s = .next t → t.Inv

/-- From a state at rest no step faults, and the only refusal is an access to an index that does not exist
(70_reset_and_hazards.md R298, 20_memory.md R65). -/
def Obligations.OnlyMissingIndicesStop : Prop :=
  ∀ s : State, s.Inv → (∀ f, step s ≠ .fault f) ∧ (∀ r, step s = .refused r → r = .noSuchIndex)

/-! ### RLE -/

/-- RLE_ENC completes (41_rle.md R150 to R155): on a non-empty input within N_MAX whose stream fits, the result is the groups of
`Runs(x)`. -/
def Obligations.RleEncGivesTheRuns : Prop :=
  ∀ s : State, s.runState = .busy → s.cfg.Valid → s.ilen ≠ 0 → s.ilen.toNat ≤ s.cfg.nMax →
    (rleStream s.input).length ≤ s.cfg.mMax →
    ∃ t, exec .rleEnc s = .next t ∧ DoneWith s t (rleStream s.input)

/-- The errors of RLE_ENC (R150, 60_exceptions.md R261, R271, R274): CapacityExceeded for an input past N_MAX, EmptyInput for an
empty one, CapacityExceeded for a result past M_MAX. -/
def Obligations.RleEncErrors : Prop :=
  ∀ s : State, s.runState = .busy →
    (s.cfg.nMax < s.ilen.toNat → ∃ t, exec .rleEnc s = .next t ∧ ErrorWith s t .capacityExceeded) ∧
    (s.ilen = 0 → ∃ t, exec .rleEnc s = .next t ∧ ErrorWith s t .emptyInput) ∧
    (s.ilen ≠ 0 → s.ilen.toNat ≤ s.cfg.nMax → s.cfg.mMax < (rleStream s.input).length →
      ∃ t, exec .rleEnc s = .next t ∧ ErrorWith s t .capacityExceeded)

/-- The properties of `Runs(x)` (R155): every run is in range, the runs expand to `x`, no Literal holds two equal neighbours,
a Repeat below 129 is not followed by a run that begins with its symbol, and the stream's length is between
`2 * ceil(n/129)` and `2 * n`. -/
def Obligations.RunsAreMaximalAndExpandBack : Prop :=
  ∀ x : List Byte,
    (∀ r ∈ runs x, r.inRange = true) ∧ (runs x).flatMap Run.symbols = x ∧
    (∀ ss, Run.lit ss ∈ runs x → ss.IsChain (· ≠ ·)) ∧
    (runs x).IsChain (fun r r' => ∀ s c, r = .rep s c → c < 129 → r'.symbols.head? ≠ some s) ∧
    2 * ((x.length + 128) / 129) ≤ (rleStream x).length ∧ (rleStream x).length ≤ 2 * x.length

/-- RLE_DEC completes on every well-formed stream, canonical or not (41_rle.md R157, R160; 30_encoding.md R95): a concatenation
of groups decodes to the concatenation of what they stand for. -/
def Obligations.RleDecExpandsEveryGroupStream : Prop :=
  ∀ (s : State) (rs : List Run), s.runState = .busy → s.cfg.Valid → s.ilen.toNat ≤ s.cfg.nMax →
    (∀ r ∈ rs, r.inRange = true) → s.input = rs.flatMap Run.octets →
    (rs.flatMap Run.symbols).length ≤ s.cfg.mMax →
    ∃ t, exec .rleDec s = .next t ∧ DoneWith s t (rs.flatMap Run.symbols)

/-- RLE_DEC computes the function of R157 with the order of errors of R274, on every input, results and errors alike. -/
def Obligations.RleDecComputesItsFunction : Prop :=
  ∀ s : State, s.runState = .busy → s.cfg.Valid →
    ∃ t, exec .rleDec s = .next t ∧ CompletesWith s t (outcomeOf rleDecFn s)

/-- MalformedStream in RLE_DEC (R159), when OBUF is large enough for any result: exactly when the input is not a
concatenation of groups. -/
def Obligations.RleDecMalformedExactlyOnTruncation : Prop :=
  ∀ s : State, s.runState = .busy → s.cfg.Valid → s.ilen.toNat ≤ s.cfg.nMax → 129 * s.ilen.toNat ≤ s.cfg.mMax →
    ((∃ t, exec .rleDec s = .next t ∧ ErrorWith s t .malformedStream) ↔
      ¬ ∃ rs : List Run, (∀ r ∈ rs, r.inRange = true) ∧ s.input = rs.flatMap Run.octets)

/-- The RLE round trip (41_rle.md R161). -/
def Obligations.RleRoundTrip : Prop :=
  ∀ s t u : State, s.runState = .busy → s.cfg.Valid → exec .rleEnc s = .next t → t.runState = .done →
    u.runState = .busy → u.cfg.Valid → u.input = t.result → u.ilen.toNat ≤ u.cfg.nMax →
    s.ilen.toNat ≤ u.cfg.mMax →
    ∃ v, exec .rleDec u = .next v ∧ DoneWith u v s.input

/-- Carrying out the groups one step at a time ends as the one Execute step of RLE_DEC does (41_rle.md R158): same STATUS,
OLEN and OBUF, within ILEN + 1 steps. The steps between are the model's (log 8). -/
def Obligations.GroupByGroupIsRleDec : Prop :=
  ∀ s : State, s.runState = .busy → s.phase = .check → s.port = [] → s.ilen.toNat ≤ s.cfg.nMax →
    ∃ t u, exec .rleDec s = .next t ∧
      Host.Core.run Sys2Proof.core (s.ilen.toNat + 1) { s with phase := .rleD, ipos := 0, opos := 0 } = .next u ∧
      statusWord u = statusWord t ∧ u.olen = t.olen ∧ ∀ a, readObuf u a = readObuf t a

/-- RLE.REPEAT completes when its copies fit (41_rle.md R158, 30_encoding.md R97): `N + 2` copies at OPOS, IPOS past the
group's two octets, D_SVC the service octet, and nothing else changed, OBUF outside the copies included. -/
def Obligations.RepeatGroupAppendsCopies : Prop :=
  ∀ (n : BitVec 7) (sym : Byte) (s : State), s.opos + (n.toNat + 2) ≤ s.cfg.mMax →
    ∃ t, exec (.rleRepeat n sym) s = .next t ∧
      t = { s with dSvc := serviceOctet true n, ipos := s.ipos + 2, opos := s.opos + (n.toNat + 2), obuf := t.obuf } ∧
      (∀ j, j < n.toNat + 2 → readObuf t (s.opos + j) = sym) ∧
      (∀ a, a < s.opos ∨ s.opos + (n.toNat + 2) ≤ a → readObuf t a = readObuf s a)

/-- RLE.LITERAL completes when its symbols fit (41_rle.md R158, 30_encoding.md R99), with its frame. -/
def Obligations.LiteralGroupCopiesItsSymbols : Prop :=
  ∀ (n : BitVec 7) (syms : List Byte) (s : State), syms.length = n.toNat + 1 →
    s.opos + (n.toNat + 1) ≤ s.cfg.mMax →
    ∃ t, exec (.rleLiteral n syms) s = .next t ∧
      t = { s with dSvc := serviceOctet false n, ipos := s.ipos + (1 + (n.toNat + 1)),
                   opos := s.opos + (n.toNat + 1), obuf := t.obuf } ∧
      (∀ j, j < n.toNat + 1 → readObuf t (s.opos + j) = syms.getD j 0) ∧
      (∀ a, a < s.opos ∨ s.opos + (n.toNat + 1) ≤ a → readObuf t a = readObuf s a)

/-- A group whose symbols do not fit raises CapacityExceeded (60_exceptions.md R271); a literal term whose symbols contradict
its count is refused (log 12). -/
def Obligations.GroupPastCapacityRaises : Prop :=
  (∀ (n : BitVec 7) (sym : Byte) (s : State), s.cfg.mMax < s.opos + (n.toNat + 2) →
    exec (.rleRepeat n sym) s = .next (failCommand .capacityExceeded s)) ∧
  (∀ (n : BitVec 7) (syms : List Byte) (s : State), syms.length = n.toNat + 1 →
    s.cfg.mMax < s.opos + (n.toNat + 1) →
    exec (.rleLiteral n syms) s = .next (failCommand .capacityExceeded s)) ∧
  (∀ (n : BitVec 7) (syms : List Byte) (s : State), syms.length ≠ n.toNat + 1 →
    exec (.rleLiteral n syms) s = .refused .illFormed)

/-! ### Huffman encode -/

/-- HUF_ENC completes (42_huffman_encoder.md R170 to R183): where the function of R170 gives a container, that container is the
result. -/
def Obligations.HufEncBuildsTheContainer : Prop :=
  ∀ (s : State) (out : List Byte), s.runState = .busy → s.cfg.Valid → outcomeOf hufEncFn s = .ok out →
    ∃ t, exec .hufEnc s = .next t ∧ DoneWith s t out

/-- The errors of HUF_ENC (R186, 60_exceptions.md R261, R271, R274). -/
def Obligations.HufEncErrors : Prop :=
  ∀ s : State, s.runState = .busy →
    (s.cfg.nMax < s.ilen.toNat → ∃ t, exec .hufEnc s = .next t ∧ ErrorWith s t .capacityExceeded) ∧
    (s.ilen = 0 → ∃ t, exec .hufEnc s = .next t ∧ ErrorWith s t .emptyInput) ∧
    (∀ k, outcomeOf hufEncFn s = .error k → ∃ t, exec .hufEnc s = .next t ∧ ErrorWith s t k)

/-- The frequency pass (42_huffman_encoder.md R171): afterwards FREQ holds the count of every symbol in the input, the counts
add up to ILEN, IPOS has passed the whole input, and nothing else has changed. -/
def Obligations.FrequencyPassCountsTheInput : Prop :=
  ∀ s : State, ∃ t, frequencies s = t ∧
    t = { s with phase := .hFreq, ipos := s.ilen.toNat, opos := 0, he := { s.he with freq := t.he.freq } } ∧
    (∀ c : Byte, t.he.freq.toList.getD c.toNat 0 = s.input.count c) ∧ t.he.freq.toList.sum = s.ilen.toNat

/-- CodeTooLong and EncodeError are never raised (R177, R185): 256 leaves make no path of 256 edges, and every input symbol
has a code. -/
def Obligations.HufEncNeverRaisesTheInternalErrors : Prop :=
  ∀ s t : State, s.runState = .busy → exec .hufEnc s = .next t →
    t.errKind ≠ some .codeTooLong ∧ t.errKind ≠ some .encodeError

/-- An input of one distinct symbol (R175, R188 (a)): the code is "0", so `B` is the input's length, `T` is 3, the table is
`01 c 00` and the payload is zeros. -/
def Obligations.HufEncOfOneSymbol : Prop :=
  ∀ (s : State) (c : Byte), s.runState = .busy → s.cfg.Valid → s.ilen ≠ 0 → s.ilen.toNat ≤ s.cfg.nMax →
    s.input = List.replicate s.ilen.toNat c → 15 + ceil8 s.ilen.toNat ≤ s.cfg.mMax →
    ∃ t, exec .hufEnc s = .next t ∧
      DoneWith s t (putBE s.ilen.toNat 8 ++ [0, 0, 0, 3] ++ [1, c, 0] ++ List.replicate (ceil8 s.ilen.toNat) 0)

/-- The codes of the tree (R184 (a) to (c), 10_state.md R43): one for each symbol that occurs and for no other, of 1 to 255
bits, none a prefix of another. -/
def Obligations.CodesFormAPrefixCode : Prop :=
  ∀ (x : List Byte) (t : Tree), huffTree x = some t →
    (t.codes.map Prod.fst).Nodup ∧ (∀ c, c ∈ t.codes.map Prod.fst ↔ c ∈ x) ∧
    (∀ e ∈ t.codes, 1 ≤ e.2.length ∧ e.2.length ≤ 255) ∧
    (∀ e ∈ t.codes, ∀ e' ∈ t.codes, e.2 <+: e'.2 → e = e')

/-! ### Huffman decode -/

/-- HUF_DEC completes (43_huffman_decoder.md R210 to R222): where the function of R210 gives an output, it is the result. -/
def Obligations.HufDecDecodesTheContainer : Prop :=
  ∀ (s : State) (out : List Byte), s.runState = .busy → s.cfg.Valid → outcomeOf hufDecFn s = .ok out →
    ∃ t, exec .hufDec s = .next t ∧ DoneWith s t out

/-- The errors of HUF_DEC (R224, 60_exceptions.md R262, R271, R274), where the function of R210 gives one, and explicitly for the
checks that come before the table. -/
def Obligations.HufDecErrors : Prop :=
  ∀ s : State, s.runState = .busy →
    (∀ k, outcomeOf hufDecFn s = .error k → ∃ t, exec .hufDec s = .next t ∧ ErrorWith s t k) ∧
    (s.ilen.toNat ≤ s.cfg.nMax → s.ilen.toNat < 12 → ∃ t, exec .hufDec s = .next t ∧ ErrorWith s t .malformedStream) ∧
    (s.ilen.toNat ≤ s.cfg.nMax → 12 ≤ s.ilen.toNat → s.ilen.toNat < 12 + getBE s.input 8 4 →
      ∃ t, exec .hufDec s = .next t ∧ ErrorWith s t .malformedStream)

/-- Padding bits and octets after the payload do not matter (R223 (a), (b); 30_encoding.md R109): two inputs with the same header
and table, both long enough for `B`, and the same first `B` payload bits complete alike. -/
def Obligations.HufDecIgnoresPaddingAndTail : Prop :=
  ∀ s u : State, s.runState = .busy → u.runState = .busy → s.cfg.Valid → s.cfg = u.cfg →
    s.ilen.toNat ≤ s.cfg.nMax → u.ilen.toNat ≤ u.cfg.nMax →
    let b := getBE s.input 0 8
    let p := 12 + getBE s.input 8 4
    12 ≤ s.ilen.toNat → p + ceil8 b ≤ s.ilen.toNat → p + ceil8 b ≤ u.ilen.toNat →
    u.input.take p = s.input.take p → unpack (u.input.drop p) b = unpack (s.input.drop p) b →
    ∃ s' u', exec .hufDec s = .next s' ∧ exec .hufDec u = .next u' ∧
      statusWord s' = statusWord u' ∧ s'.olen = u'.olen ∧ s'.result = u'.result

/-- HUF.ENTRY completes (R214): an entry whose symbol and code are both new records the first `L` bits of its code octets for
its symbol and moves TPOS past it; nothing else changes. -/
def Obligations.EntryRecordsItsCode : Prop :=
  ∀ (len sym : Byte) (code : List Byte) (s : State), len ≠ 0 → code.length = ceil8 len.toNat →
    s.hd.dlen.toList.getD sym.toNat 0 = 0 →
    (∀ k, k < 256 → ¬ (s.hd.dlen.toList.getD k 0 = len.toNat ∧
      s.hd.dbits.toList.getD k [] = unpack code len.toNat)) →
    ∃ t, exec (.hufEntry len sym code) s = .next t ∧
      t = { s with hd := { s.hd with dlen := t.hd.dlen, dbits := t.hd.dbits, tpos := s.hd.tpos + (2 + ceil8 len.toNat) } } ∧
      t.hd.dlen.toList.getD sym.toNat 0 = len.toNat ∧ t.hd.dbits.toList.getD sym.toNat [] = unpack code len.toNat ∧
      ∀ k, k ≠ sym.toNat → t.hd.dlen.toList.getD k 0 = s.hd.dlen.toList.getD k 0 ∧
        t.hd.dbits.toList.getD k [] = s.hd.dbits.toList.getD k []

/-- An entry that names a symbol or a code again raises MalformedStream (R217, R218); a term whose operands contradict its
length is refused (log 12). -/
def Obligations.RepeatedEntryRaises : Prop :=
  (∀ (len sym : Byte) (code : List Byte) (s : State), len ≠ 0 → code.length = ceil8 len.toNat →
    (s.hd.dlen.toList.getD sym.toNat 0 ≠ 0 ∨
      ∃ k, k < 256 ∧ s.hd.dlen.toList.getD k 0 = len.toNat ∧ s.hd.dbits.toList.getD k [] = unpack code len.toNat) →
    exec (.hufEntry len sym code) s = .next (failCommand .malformedStream s)) ∧
  (∀ (len sym : Byte) (code : List Byte) (s : State), len = 0 ∨ code.length ≠ ceil8 len.toNat →
    exec (.hufEntry len sym code) s = .refused .illFormed)

/-- The Huffman round trip (42_huffman_encoder.md R184 (e)). -/
def Obligations.HufRoundTrip : Prop :=
  ∀ s t u : State, s.runState = .busy → s.cfg.Valid → exec .hufEnc s = .next t → t.runState = .done →
    u.runState = .busy → u.cfg.Valid → u.input = t.result → u.ilen.toNat ≤ u.cfg.nMax →
    s.ilen.toNat ≤ u.cfg.mMax →
    ∃ v, exec .hufDec u = .next v ∧ DoneWith u v s.input

/-- The result lengths of 70_reset_and_hazards.md R297, with the fields of R183 and the bounds of R179 and R181: what each
codec command that ends DONE can have as OLEN, by its input. -/
def Obligations.ResultLengthsAreBounded : Prop :=
  ∀ s t : State, s.runState = .busy → s.cfg.Valid → t.runState = .done →
    (exec .rleEnc s = .next t →
      2 * ((s.ilen.toNat + 128) / 129) ≤ t.olen.toNat ∧ t.olen.toNat ≤ 2 * s.ilen.toNat) ∧
    (exec .rleDec s = .next t → t.olen.toNat ≤ 129 * (s.ilen.toNat / 2)) ∧
    (exec .hufEnc s = .next t →
      t.olen.toNat = 12 + getBE t.result 8 4 + ceil8 (getBE t.result 0 8) ∧
      3 ≤ getBE t.result 8 4 ∧ getBE t.result 8 4 ≤ 8704 ∧
      s.ilen.toNat ≤ getBE t.result 0 8 ∧ getBE t.result 0 8 ≤ 255 * s.ilen.toNat) ∧
    (exec .hufDec s = .next t →
      t.olen.toNat ≤ getBE s.input 0 8 ∧ getBE s.input 0 8 ≤ 8 * (s.ilen.toNat - 12 - getBE s.input 8 4))

/-! ### Widths -/

/-- Every step keeps every counter, cursor and bit string within its register's width (10_state.md R26, R40 to R44;
00_scope.md R8, R14), and the reset state has it. That a scratch register holds zero after reset and a free value of its
width after a command is the model's choice (logs 4 and 18). -/
def Obligations.StepKeepsTheWidths : Prop :=
  (∀ s t : State, s.Inv → s.WidthsOk → step s = .next t → t.WidthsOk) ∧ ∀ c : Config, (State.resetWith c).WidthsOk

/-- WEIGHT_W bits hold every counter and weight (00_scope.md R8, R14; 10_state.md R40, R41): for an input within N_MAX no
frequency (42_huffman_encoder.md R171) and no weight of a node of the tree (R172, R174) is above ILEN, the nodes fit the
store, and ILEN is below `2^WEIGHT_W`. -/
def Obligations.WeightsFitTheirWidth : Prop :=
  ∀ s : State, s.ilen.toNat ≤ s.cfg.nMax →
    let h := (frequencies s).he
    let g := buildTree (pushLeaves h)
    (∀ f ∈ h.freq.toList, f ≤ s.ilen.toNat) ∧ g.nNode ≤ Config.nodeMax ∧
    (∀ i, i < g.nNode → (nodeAt g i).w ≤ s.ilen.toNat) ∧ s.ilen.toNat < 2 ^ s.cfg.weightWidth
end

