-- ==== Sys2Proof/Laws/Memory.lean ====
section
/-! SUPPORT. The laws of the buffers: a read after a write, and that every operation keeps the canonical form. -/

namespace Sys2Proof.Machine

theorem Memory.lookup_insert (m : Memory) (a b : Nat) (v : Byte) :
    Memory.lookup (Memory.insert m a v) b = if b = a then some v else Memory.lookup m b := by
  induction m with
  | nil => simp [Memory.insert, Memory.lookup]
  | cons c m ih =>
    obtain ⟨k, u⟩ := c
    by_cases h1 : a < k
    · simp [Memory.insert, h1, Memory.lookup]
    · by_cases h2 : a = k
      · subst h2
        by_cases h : b = a <;> simp [Memory.insert, Memory.lookup, h]
      · simp only [Memory.insert, h1, h2, Memory.lookup, if_false, ih]
        by_cases h : b = k
        · have : b ≠ a := fun e => h2 (e.symm.trans h)
          simp [h, Ne.symm h2]
        · simp [h]

theorem Memory.lookup_insertAll (vs : List Byte) (m : Memory) (a b : Nat) :
    Memory.lookup (Memory.insertAll m a vs) b =
      if a ≤ b ∧ b < a + vs.length then vs[b - a]? else Memory.lookup m b := by
  induction vs generalizing m a with
  | nil => simp only [Memory.insertAll, List.length_nil]; rw [if_neg (by omega)]
  | cons v vs ih =>
    rw [Memory.insertAll, ih, Memory.lookup_insert, List.length_cons]
    rcases Nat.lt_trichotomy b a with h | h | h
    · rw [if_neg (by omega), if_neg (by omega), if_neg (by omega)]
    · subst h; rw [if_neg (by omega), if_pos rfl, if_pos (by omega)]; simp
    · by_cases h2 : b < a + 1 + vs.length
      · rw [if_pos (by omega), if_pos (by omega)]
        obtain ⟨j, rfl⟩ : ∃ j, b = a + 1 + j := ⟨b - (a + 1), by omega⟩
        rw [show a + 1 + j - (a + 1) = j by omega, show a + 1 + j - a = j + 1 by omega]; simp
      · rw [if_neg (by omega), if_neg (by omega), if_neg (by omega)]

theorem Memory.above_insert {k a : Nat} {m : Memory} {v : Byte} (h : Memory.above k m = true) (hka : k < a) :
    Memory.above k (Memory.insert m a v) = true := by
  induction m with
  | nil => simpa [Memory.insert, Memory.above] using hka
  | cons c m ih =>
    obtain ⟨j, u⟩ := c
    simp only [Memory.above, List.all_cons, Bool.and_eq_true, decide_eq_true_eq] at h
    have hm : Memory.above k m = true := h.2
    by_cases h1 : a < j
    · simpa [Memory.insert, h1, Memory.above, hka, h.1] using h.2
    · by_cases h2 : a = j
      · simpa [Memory.insert, h2, Memory.above, h.1] using h.2
      · simp only [Memory.insert, h1, h2, if_false, Memory.above, List.all_cons, Bool.and_eq_true, decide_eq_true_eq]
        exact ⟨h.1, ih hm⟩

/-- A write keeps the canonical form. -/
theorem Memory.insert_wf {m : Memory} (a : Nat) (v : Byte) (h : m.wf = true) : (Memory.insert m a v).wf = true := by
  induction m with
  | nil => rfl
  | cons c m ih =>
    obtain ⟨k, u⟩ := c
    simp only [Memory.wf, Bool.and_eq_true] at h
    by_cases h1 : a < k
    · simp only [Memory.insert, h1, if_true, Memory.wf, Bool.and_eq_true, Memory.above, List.all_cons,
        decide_eq_true_eq]
      refine ⟨⟨trivial, ?_⟩, h⟩
      have := h.1
      simp only [Memory.above, List.all_eq_true, decide_eq_true_eq] at this ⊢
      exact fun x hx => Nat.lt_trans h1 (this x hx)
    · by_cases h2 : a = k
      · subst h2
        simpa [Memory.insert, Memory.wf] using h
      · simp only [Memory.insert, h1, h2, if_false, Memory.wf, Bool.and_eq_true]
        exact ⟨Memory.above_insert h.1 (by omega), ih h.2⟩

theorem Memory.insertAll_wf {m : Memory} (a : Nat) (vs : List Byte) (h : m.wf = true) :
    (Memory.insertAll m a vs).wf = true := by
  induction vs generalizing m a with
  | nil => exact h
  | cons v vs ih => exact ih (a + 1) (Memory.insert_wf a v h)

theorem Memory.insert_below {m : Memory} {a n : Nat} (v : Byte) (h : m.below n = true) (ha : a < n) :
    (Memory.insert m a v).below n = true := by
  induction m with
  | nil => simpa [Memory.insert, Memory.below] using ha
  | cons c m ih =>
    obtain ⟨k, u⟩ := c
    simp only [Memory.below, List.all_cons, Bool.and_eq_true, decide_eq_true_eq] at h
    by_cases h1 : a < k
    · simpa [Memory.insert, h1, Memory.below, ha, h.1] using h.2
    · by_cases h2 : a = k
      · simpa [Memory.insert, h2, Memory.below, h.1] using h.2
      · simp only [Memory.insert, h1, h2, if_false, Memory.below, List.all_cons, Bool.and_eq_true, decide_eq_true_eq]
        exact ⟨h.1, ih h.2⟩

/-- The write to OBUF keeps the canonical form and lists no index past M_MAX. -/
theorem writeObuf_wf {s : State} (a : Nat) (v : Byte) (h : s.obuf.wf = true) : (writeObuf a v s).obuf.wf = true := by
  unfold writeObuf; split
  · exact Memory.insert_wf a v h
  · exact h

theorem writeObuf_below {s : State} (a : Nat) (v : Byte) (h : s.obuf.below s.cfg.mMax = true) :
    (writeObuf a v s).obuf.below s.cfg.mMax = true := by
  unfold writeObuf; split
  · exact Memory.insert_below v h ‹_›
  · exact h

theorem writeObufAll_wf {s : State} (a : Nat) (vs : List Byte) (h : s.obuf.wf = true) :
    (writeObufAll a vs s).obuf.wf = true := by
  induction vs generalizing a s with
  | nil => exact h
  | cons v vs ih => exact ih (a + 1) (writeObuf_wf a v h)

theorem append_wf {s t : State} {v : Byte} (h : append v s = .ok t) (hs : s.obuf.wf = true) : t.obuf.wf = true := by
  unfold append at h; split at h
  · cases h
  · cases h; exact writeObuf_wf _ _ hs

theorem appendAll_wf {vs : List Byte} {s t : State} (h : appendAll vs s = .ok t) (hs : s.obuf.wf = true) :
    t.obuf.wf = true := by
  induction vs generalizing s with
  | nil => cases h; exact hs
  | cons v vs ih =>
    simp only [appendAll] at h
    cases hv : append v s with
    | error k => rw [hv] at h; cases h
    | ok u => rw [hv] at h; exact ih h (append_wf hv hs)

/-- A host write to IBUF keeps its canonical form. -/
theorem writeOctet_ibuf_wf {sp : OctetSpace} {a : Nat} {v : Byte} {s t : State}
    (h : writeOctet sp a v s = some t) (hs : s.ibuf.wf = true) : t.ibuf.wf = true := by
  unfold writeOctet at h
  cases sp <;> dsimp only at h <;> split at h <;> simp only [Option.some.injEq, reduceCtorEq] at h <;> subst h
  · split
    · exact hs
    · exact Memory.insert_wf a v hs
  all_goals exact hs

theorem forgetObuf_wf (s : State) : (forgetObuf s).obuf.wf = true := rfl

theorem reset_buffers_wf : State.reset.ibuf.wf = true ∧ State.reset.obuf.wf = true := ⟨rfl, rfl⟩

end Sys2Proof.Machine
end

