-- ==== Sys2Proof/Laws/State.lean ====
section
/-! SUPPORT. The fields of a state after each named update: one lemma per field per update, true by rfl, so that no later
proof unfolds a record update. -/

namespace Sys2Proof.Machine

/-! ### `forgetObuf` -/

@[simp] theorem forgetObuf_cfg (s : State) : (forgetObuf s).cfg = s.cfg := rfl
@[simp] theorem forgetObuf_runState (s : State) : (forgetObuf s).runState = s.runState := rfl
@[simp] theorem forgetObuf_errKind (s : State) : (forgetObuf s).errKind = s.errKind := rfl
@[simp] theorem forgetObuf_ilen (s : State) : (forgetObuf s).ilen = s.ilen := rfl
@[simp] theorem forgetObuf_olen (s : State) : (forgetObuf s).olen = s.olen := rfl
@[simp] theorem forgetObuf_ibuf (s : State) : (forgetObuf s).ibuf = s.ibuf := rfl
@[simp] theorem forgetObuf_obuf (s : State) : (forgetObuf s).obuf = [] := rfl
@[simp] theorem forgetObuf_op (s : State) : (forgetObuf s).op = s.op := rfl
@[simp] theorem forgetObuf_phase (s : State) : (forgetObuf s).phase = s.phase := rfl
@[simp] theorem forgetObuf_ipos (s : State) : (forgetObuf s).ipos = s.ipos := rfl
@[simp] theorem forgetObuf_opos (s : State) : (forgetObuf s).opos = s.opos := rfl
@[simp] theorem forgetObuf_pk (s : State) : (forgetObuf s).pk = s.pk := rfl
@[simp] theorem forgetObuf_re (s : State) : (forgetObuf s).re = s.re := rfl
@[simp] theorem forgetObuf_dSvc (s : State) : (forgetObuf s).dSvc = s.dSvc := rfl
@[simp] theorem forgetObuf_he (s : State) : (forgetObuf s).he = s.he := rfl
@[simp] theorem forgetObuf_hd (s : State) : (forgetObuf s).hd = s.hd := rfl
@[simp] theorem forgetObuf_port (s : State) : (forgetObuf s).port = s.port := rfl
@[simp] theorem forgetObuf_reply (s : State) : (forgetObuf s).reply = s.reply := rfl
@[simp] theorem forgetObuf_ibufEpoch (s : State) : (forgetObuf s).ibufEpoch = s.ibufEpoch := rfl
@[simp] theorem forgetObuf_obufEpoch (s : State) : (forgetObuf s).obufEpoch = s.fresh := rfl
@[simp] theorem forgetObuf_fresh (s : State) : (forgetObuf s).fresh = s.fresh + 1 := rfl

/-! ### `issue` -/

@[simp] theorem issue_cfg (op : BitVec 3) (s : State) : (issue op s).cfg = s.cfg := rfl
@[simp] theorem issue_runState (op : BitVec 3) (s : State) : (issue op s).runState = .busy := rfl
@[simp] theorem issue_errKind (op : BitVec 3) (s : State) : (issue op s).errKind = none := rfl
@[simp] theorem issue_ilen (op : BitVec 3) (s : State) : (issue op s).ilen = s.ilen := rfl
@[simp] theorem issue_olen (op : BitVec 3) (s : State) : (issue op s).olen = s.olen := rfl
@[simp] theorem issue_ibuf (op : BitVec 3) (s : State) : (issue op s).ibuf = s.ibuf := rfl
@[simp] theorem issue_obuf (op : BitVec 3) (s : State) : (issue op s).obuf = [] := rfl
@[simp] theorem issue_op (op : BitVec 3) (s : State) : (issue op s).op = op := rfl
@[simp] theorem issue_phase (op : BitVec 3) (s : State) : (issue op s).phase = .check := rfl
@[simp] theorem issue_ipos (op : BitVec 3) (s : State) : (issue op s).ipos = s.ipos := rfl
@[simp] theorem issue_opos (op : BitVec 3) (s : State) : (issue op s).opos = s.opos := rfl
@[simp] theorem issue_pk (op : BitVec 3) (s : State) : (issue op s).pk = s.pk := rfl
@[simp] theorem issue_re (op : BitVec 3) (s : State) : (issue op s).re = s.re := rfl
@[simp] theorem issue_dSvc (op : BitVec 3) (s : State) : (issue op s).dSvc = s.dSvc := rfl
@[simp] theorem issue_he (op : BitVec 3) (s : State) : (issue op s).he = s.he := rfl
@[simp] theorem issue_hd (op : BitVec 3) (s : State) : (issue op s).hd = s.hd := rfl
@[simp] theorem issue_port (op : BitVec 3) (s : State) : (issue op s).port = s.port := rfl
@[simp] theorem issue_reply (op : BitVec 3) (s : State) : (issue op s).reply = s.reply := rfl
@[simp] theorem issue_ibufEpoch (op : BitVec 3) (s : State) : (issue op s).ibufEpoch = s.ibufEpoch := rfl
@[simp] theorem issue_obufEpoch (op : BitVec 3) (s : State) : (issue op s).obufEpoch = s.fresh := rfl
@[simp] theorem issue_fresh (op : BitVec 3) (s : State) : (issue op s).fresh = s.fresh + 1 := rfl

/-! ### `raiseError` -/

@[simp] theorem raiseError_cfg (k : ErrorKind) (s : State) : (raiseError k s).cfg = s.cfg := rfl
@[simp] theorem raiseError_runState (k : ErrorKind) (s : State) : (raiseError k s).runState = .error := rfl
@[simp] theorem raiseError_errKind (k : ErrorKind) (s : State) : (raiseError k s).errKind = some k := rfl
@[simp] theorem raiseError_ilen (k : ErrorKind) (s : State) : (raiseError k s).ilen = s.ilen := rfl
@[simp] theorem raiseError_olen (k : ErrorKind) (s : State) : (raiseError k s).olen = 0 := rfl
@[simp] theorem raiseError_ibuf (k : ErrorKind) (s : State) : (raiseError k s).ibuf = s.ibuf := rfl
@[simp] theorem raiseError_obuf (k : ErrorKind) (s : State) : (raiseError k s).obuf = [] := rfl
@[simp] theorem raiseError_op (k : ErrorKind) (s : State) : (raiseError k s).op = s.op := rfl
@[simp] theorem raiseError_phase (k : ErrorKind) (s : State) : (raiseError k s).phase = .idle := rfl
@[simp] theorem raiseError_ipos (k : ErrorKind) (s : State) : (raiseError k s).ipos = s.ipos := rfl
@[simp] theorem raiseError_opos (k : ErrorKind) (s : State) : (raiseError k s).opos = s.opos := rfl
@[simp] theorem raiseError_pk (k : ErrorKind) (s : State) : (raiseError k s).pk = s.pk := rfl
@[simp] theorem raiseError_re (k : ErrorKind) (s : State) : (raiseError k s).re = s.re := rfl
@[simp] theorem raiseError_dSvc (k : ErrorKind) (s : State) : (raiseError k s).dSvc = s.dSvc := rfl
@[simp] theorem raiseError_he (k : ErrorKind) (s : State) : (raiseError k s).he = s.he := rfl
@[simp] theorem raiseError_hd (k : ErrorKind) (s : State) : (raiseError k s).hd = s.hd := rfl
@[simp] theorem raiseError_port (k : ErrorKind) (s : State) : (raiseError k s).port = s.port := rfl
@[simp] theorem raiseError_reply (k : ErrorKind) (s : State) : (raiseError k s).reply = s.reply := rfl
@[simp] theorem raiseError_ibufEpoch (k : ErrorKind) (s : State) : (raiseError k s).ibufEpoch = s.ibufEpoch := rfl
@[simp] theorem raiseError_obufEpoch (k : ErrorKind) (s : State) : (raiseError k s).obufEpoch = s.fresh := rfl
@[simp] theorem raiseError_fresh (k : ErrorKind) (s : State) : (raiseError k s).fresh = s.fresh + 1 := rfl

/-! ### `clearStatus` -/

@[simp] theorem clearStatus_cfg (s : State) : (clearStatus s).cfg = s.cfg := rfl
@[simp] theorem clearStatus_runState (s : State) : (clearStatus s).runState = .idle := rfl
@[simp] theorem clearStatus_errKind (s : State) : (clearStatus s).errKind = none := rfl
@[simp] theorem clearStatus_ilen (s : State) : (clearStatus s).ilen = s.ilen := rfl
@[simp] theorem clearStatus_olen (s : State) : (clearStatus s).olen = 0 := rfl
@[simp] theorem clearStatus_ibuf (s : State) : (clearStatus s).ibuf = s.ibuf := rfl
@[simp] theorem clearStatus_obuf (s : State) : (clearStatus s).obuf = [] := rfl
@[simp] theorem clearStatus_op (s : State) : (clearStatus s).op = s.op := rfl
@[simp] theorem clearStatus_phase (s : State) : (clearStatus s).phase = s.phase := rfl
@[simp] theorem clearStatus_ipos (s : State) : (clearStatus s).ipos = s.ipos := rfl
@[simp] theorem clearStatus_opos (s : State) : (clearStatus s).opos = s.opos := rfl
@[simp] theorem clearStatus_pk (s : State) : (clearStatus s).pk = s.pk := rfl
@[simp] theorem clearStatus_re (s : State) : (clearStatus s).re = s.re := rfl
@[simp] theorem clearStatus_dSvc (s : State) : (clearStatus s).dSvc = s.dSvc := rfl
@[simp] theorem clearStatus_he (s : State) : (clearStatus s).he = s.he := rfl
@[simp] theorem clearStatus_hd (s : State) : (clearStatus s).hd = s.hd := rfl
@[simp] theorem clearStatus_port (s : State) : (clearStatus s).port = s.port := rfl
@[simp] theorem clearStatus_reply (s : State) : (clearStatus s).reply = s.reply := rfl
@[simp] theorem clearStatus_ibufEpoch (s : State) : (clearStatus s).ibufEpoch = s.ibufEpoch := rfl
@[simp] theorem clearStatus_obufEpoch (s : State) : (clearStatus s).obufEpoch = s.fresh := rfl
@[simp] theorem clearStatus_fresh (s : State) : (clearStatus s).fresh = s.fresh + 1 := rfl

/-! ### `forgetScratch` -/

@[simp] theorem forgetScratch_cfg (s : State) : (forgetScratch s).cfg = s.cfg := rfl
@[simp] theorem forgetScratch_runState (s : State) : (forgetScratch s).runState = s.runState := rfl
@[simp] theorem forgetScratch_errKind (s : State) : (forgetScratch s).errKind = s.errKind := rfl
@[simp] theorem forgetScratch_ilen (s : State) : (forgetScratch s).ilen = s.ilen := rfl
@[simp] theorem forgetScratch_olen (s : State) : (forgetScratch s).olen = s.olen := rfl
@[simp] theorem forgetScratch_ibuf (s : State) : (forgetScratch s).ibuf = s.ibuf := rfl
@[simp] theorem forgetScratch_obuf (s : State) : (forgetScratch s).obuf = s.obuf := rfl
@[simp] theorem forgetScratch_op (s : State) : (forgetScratch s).op = s.op := rfl
@[simp] theorem forgetScratch_phase (s : State) : (forgetScratch s).phase = s.phase := rfl
@[simp] theorem forgetScratch_ipos (s : State) : (forgetScratch s).ipos = freeReg s.fresh 64 .ipos := rfl
@[simp] theorem forgetScratch_opos (s : State) : (forgetScratch s).opos = freeReg s.fresh 64 .opos := rfl
@[simp] theorem forgetScratch_pk (s : State) : (forgetScratch s).pk = freePacker s.fresh := rfl
@[simp] theorem forgetScratch_re (s : State) : (forgetScratch s).re = freeRleEncUnit s.fresh := rfl
@[simp] theorem forgetScratch_dSvc (s : State) : (forgetScratch s).dSvc = freeOctet s.fresh .dSvc := rfl
@[simp] theorem forgetScratch_he (s : State) : (forgetScratch s).he = freeHufEncUnit s.cfg.weightWidth s.fresh := rfl
@[simp] theorem forgetScratch_hd (s : State) : (forgetScratch s).hd = freeHufDecUnit s.fresh := rfl
@[simp] theorem forgetScratch_port (s : State) : (forgetScratch s).port = s.port := rfl
@[simp] theorem forgetScratch_reply (s : State) : (forgetScratch s).reply = s.reply := rfl
@[simp] theorem forgetScratch_ibufEpoch (s : State) : (forgetScratch s).ibufEpoch = s.ibufEpoch := rfl
@[simp] theorem forgetScratch_obufEpoch (s : State) : (forgetScratch s).obufEpoch = s.obufEpoch := rfl
@[simp] theorem forgetScratch_fresh (s : State) : (forgetScratch s).fresh = s.fresh + 1 := rfl

/-! ### `completeDone` -/

@[simp] theorem completeDone_cfg (s : State) : (completeDone s).cfg = s.cfg := rfl
@[simp] theorem completeDone_runState (s : State) : (completeDone s).runState = .done := rfl
@[simp] theorem completeDone_errKind (s : State) : (completeDone s).errKind = none := rfl
@[simp] theorem completeDone_ilen (s : State) : (completeDone s).ilen = s.ilen := rfl
@[simp] theorem completeDone_olen (s : State) : (completeDone s).olen = BitVec.ofNat 64 s.opos := rfl
@[simp] theorem completeDone_ibuf (s : State) : (completeDone s).ibuf = s.ibuf := rfl
@[simp] theorem completeDone_obuf (s : State) : (completeDone s).obuf = s.obuf := rfl
@[simp] theorem completeDone_op (s : State) : (completeDone s).op = s.op := rfl
@[simp] theorem completeDone_phase (s : State) : (completeDone s).phase = .idle := rfl
@[simp] theorem completeDone_ipos (s : State) : (completeDone s).ipos = freeReg s.fresh 64 .ipos := rfl
@[simp] theorem completeDone_opos (s : State) : (completeDone s).opos = freeReg s.fresh 64 .opos := rfl
@[simp] theorem completeDone_pk (s : State) : (completeDone s).pk = freePacker s.fresh := rfl
@[simp] theorem completeDone_re (s : State) : (completeDone s).re = freeRleEncUnit s.fresh := rfl
@[simp] theorem completeDone_dSvc (s : State) : (completeDone s).dSvc = freeOctet s.fresh .dSvc := rfl
@[simp] theorem completeDone_he (s : State) : (completeDone s).he = freeHufEncUnit s.cfg.weightWidth s.fresh := rfl
@[simp] theorem completeDone_hd (s : State) : (completeDone s).hd = freeHufDecUnit s.fresh := rfl
@[simp] theorem completeDone_port (s : State) : (completeDone s).port = s.port := rfl
@[simp] theorem completeDone_reply (s : State) : (completeDone s).reply = s.reply := rfl
@[simp] theorem completeDone_ibufEpoch (s : State) : (completeDone s).ibufEpoch = s.ibufEpoch := rfl
@[simp] theorem completeDone_obufEpoch (s : State) : (completeDone s).obufEpoch = s.obufEpoch := rfl
@[simp] theorem completeDone_fresh (s : State) : (completeDone s).fresh = s.fresh + 1 := rfl

/-! ### `failCommand` -/

@[simp] theorem failCommand_cfg (k : ErrorKind) (s : State) : (failCommand k s).cfg = s.cfg := rfl
@[simp] theorem failCommand_runState (k : ErrorKind) (s : State) : (failCommand k s).runState = .error := rfl
@[simp] theorem failCommand_errKind (k : ErrorKind) (s : State) : (failCommand k s).errKind = some k := rfl
@[simp] theorem failCommand_ilen (k : ErrorKind) (s : State) : (failCommand k s).ilen = s.ilen := rfl
@[simp] theorem failCommand_olen (k : ErrorKind) (s : State) : (failCommand k s).olen = 0 := rfl
@[simp] theorem failCommand_ibuf (k : ErrorKind) (s : State) : (failCommand k s).ibuf = s.ibuf := rfl
@[simp] theorem failCommand_obuf (k : ErrorKind) (s : State) : (failCommand k s).obuf = [] := rfl
@[simp] theorem failCommand_op (k : ErrorKind) (s : State) : (failCommand k s).op = s.op := rfl
@[simp] theorem failCommand_phase (k : ErrorKind) (s : State) : (failCommand k s).phase = .idle := rfl
@[simp] theorem failCommand_ipos (k : ErrorKind) (s : State) : (failCommand k s).ipos = freeReg (s.fresh + 1) 64 .ipos := rfl
@[simp] theorem failCommand_opos (k : ErrorKind) (s : State) : (failCommand k s).opos = freeReg (s.fresh + 1) 64 .opos := rfl
@[simp] theorem failCommand_pk (k : ErrorKind) (s : State) : (failCommand k s).pk = freePacker (s.fresh + 1) := rfl
@[simp] theorem failCommand_re (k : ErrorKind) (s : State) : (failCommand k s).re = freeRleEncUnit (s.fresh + 1) := rfl
@[simp] theorem failCommand_dSvc (k : ErrorKind) (s : State) : (failCommand k s).dSvc = freeOctet (s.fresh + 1) .dSvc := rfl
@[simp] theorem failCommand_he (k : ErrorKind) (s : State) : (failCommand k s).he = freeHufEncUnit s.cfg.weightWidth (s.fresh + 1) := rfl
@[simp] theorem failCommand_hd (k : ErrorKind) (s : State) : (failCommand k s).hd = freeHufDecUnit (s.fresh + 1) := rfl
@[simp] theorem failCommand_port (k : ErrorKind) (s : State) : (failCommand k s).port = s.port := rfl
@[simp] theorem failCommand_reply (k : ErrorKind) (s : State) : (failCommand k s).reply = s.reply := rfl
@[simp] theorem failCommand_ibufEpoch (k : ErrorKind) (s : State) : (failCommand k s).ibufEpoch = s.ibufEpoch := rfl
@[simp] theorem failCommand_obufEpoch (k : ErrorKind) (s : State) : (failCommand k s).obufEpoch = s.fresh := rfl
@[simp] theorem failCommand_fresh (k : ErrorKind) (s : State) : (failCommand k s).fresh = s.fresh + 2 := rfl

/-! ### `packInit` -/

@[simp] theorem packInit_cfg (s : State) : (packInit s).cfg = s.cfg := rfl
@[simp] theorem packInit_runState (s : State) : (packInit s).runState = s.runState := rfl
@[simp] theorem packInit_errKind (s : State) : (packInit s).errKind = s.errKind := rfl
@[simp] theorem packInit_ilen (s : State) : (packInit s).ilen = s.ilen := rfl
@[simp] theorem packInit_olen (s : State) : (packInit s).olen = s.olen := rfl
@[simp] theorem packInit_ibuf (s : State) : (packInit s).ibuf = s.ibuf := rfl
@[simp] theorem packInit_obuf (s : State) : (packInit s).obuf = s.obuf := rfl
@[simp] theorem packInit_op (s : State) : (packInit s).op = s.op := rfl
@[simp] theorem packInit_phase (s : State) : (packInit s).phase = s.phase := rfl
@[simp] theorem packInit_ipos (s : State) : (packInit s).ipos = s.ipos := rfl
@[simp] theorem packInit_opos (s : State) : (packInit s).opos = s.opos := rfl
@[simp] theorem packInit_pk (s : State) : (packInit s).pk = { acc := 0, cnt := 0 } := rfl
@[simp] theorem packInit_re (s : State) : (packInit s).re = s.re := rfl
@[simp] theorem packInit_dSvc (s : State) : (packInit s).dSvc = s.dSvc := rfl
@[simp] theorem packInit_he (s : State) : (packInit s).he = s.he := rfl
@[simp] theorem packInit_hd (s : State) : (packInit s).hd = s.hd := rfl
@[simp] theorem packInit_port (s : State) : (packInit s).port = s.port := rfl
@[simp] theorem packInit_reply (s : State) : (packInit s).reply = s.reply := rfl
@[simp] theorem packInit_ibufEpoch (s : State) : (packInit s).ibufEpoch = s.ibufEpoch := rfl
@[simp] theorem packInit_obufEpoch (s : State) : (packInit s).obufEpoch = s.obufEpoch := rfl
@[simp] theorem packInit_fresh (s : State) : (packInit s).fresh = s.fresh := rfl

/-! ### `closeRun` -/

@[simp] theorem closeRun_cfg (s : State) : (closeRun s).cfg = s.cfg := rfl
@[simp] theorem closeRun_runState (s : State) : (closeRun s).runState = s.runState := rfl
@[simp] theorem closeRun_errKind (s : State) : (closeRun s).errKind = s.errKind := rfl
@[simp] theorem closeRun_ilen (s : State) : (closeRun s).ilen = s.ilen := rfl
@[simp] theorem closeRun_olen (s : State) : (closeRun s).olen = s.olen := rfl
@[simp] theorem closeRun_ibuf (s : State) : (closeRun s).ibuf = s.ibuf := rfl
@[simp] theorem closeRun_obuf (s : State) : (closeRun s).obuf = s.obuf := rfl
@[simp] theorem closeRun_op (s : State) : (closeRun s).op = s.op := rfl
@[simp] theorem closeRun_phase (s : State) : (closeRun s).phase = s.phase := rfl
@[simp] theorem closeRun_ipos (s : State) : (closeRun s).ipos = s.ipos := rfl
@[simp] theorem closeRun_opos (s : State) : (closeRun s).opos = s.opos := rfl
@[simp] theorem closeRun_pk (s : State) : (closeRun s).pk = s.pk := rfl
@[simp] theorem closeRun_re (s : State) : (closeRun s).re = { s.re with mode := .none, lCnt := 0 } := rfl
@[simp] theorem closeRun_dSvc (s : State) : (closeRun s).dSvc = s.dSvc := rfl
@[simp] theorem closeRun_he (s : State) : (closeRun s).he = s.he := rfl
@[simp] theorem closeRun_hd (s : State) : (closeRun s).hd = s.hd := rfl
@[simp] theorem closeRun_port (s : State) : (closeRun s).port = s.port := rfl
@[simp] theorem closeRun_reply (s : State) : (closeRun s).reply = s.reply := rfl
@[simp] theorem closeRun_ibufEpoch (s : State) : (closeRun s).ibufEpoch = s.ibufEpoch := rfl
@[simp] theorem closeRun_obufEpoch (s : State) : (closeRun s).obufEpoch = s.obufEpoch := rfl
@[simp] theorem closeRun_fresh (s : State) : (closeRun s).fresh = s.fresh := rfl

/-! ### `holdLiteral` -/

@[simp] theorem holdLiteral_cfg (i : Nat) (c : Byte) (s : State) : (holdLiteral i c s).cfg = s.cfg := rfl
@[simp] theorem holdLiteral_runState (i : Nat) (c : Byte) (s : State) : (holdLiteral i c s).runState = s.runState := rfl
@[simp] theorem holdLiteral_errKind (i : Nat) (c : Byte) (s : State) : (holdLiteral i c s).errKind = s.errKind := rfl
@[simp] theorem holdLiteral_ilen (i : Nat) (c : Byte) (s : State) : (holdLiteral i c s).ilen = s.ilen := rfl
@[simp] theorem holdLiteral_olen (i : Nat) (c : Byte) (s : State) : (holdLiteral i c s).olen = s.olen := rfl
@[simp] theorem holdLiteral_ibuf (i : Nat) (c : Byte) (s : State) : (holdLiteral i c s).ibuf = s.ibuf := rfl
@[simp] theorem holdLiteral_obuf (i : Nat) (c : Byte) (s : State) : (holdLiteral i c s).obuf = s.obuf := rfl
@[simp] theorem holdLiteral_op (i : Nat) (c : Byte) (s : State) : (holdLiteral i c s).op = s.op := rfl
@[simp] theorem holdLiteral_phase (i : Nat) (c : Byte) (s : State) : (holdLiteral i c s).phase = s.phase := rfl
@[simp] theorem holdLiteral_ipos (i : Nat) (c : Byte) (s : State) : (holdLiteral i c s).ipos = s.ipos := rfl
@[simp] theorem holdLiteral_opos (i : Nat) (c : Byte) (s : State) : (holdLiteral i c s).opos = s.opos := rfl
@[simp] theorem holdLiteral_pk (i : Nat) (c : Byte) (s : State) : (holdLiteral i c s).pk = s.pk := rfl
@[simp] theorem holdLiteral_re (i : Nat) (c : Byte) (s : State) : (holdLiteral i c s).re = { s.re with litBuf := s.re.litBuf.setIfInBounds i c, lCnt := i + 1, mode := .lit } := rfl
@[simp] theorem holdLiteral_dSvc (i : Nat) (c : Byte) (s : State) : (holdLiteral i c s).dSvc = s.dSvc := rfl
@[simp] theorem holdLiteral_he (i : Nat) (c : Byte) (s : State) : (holdLiteral i c s).he = s.he := rfl
@[simp] theorem holdLiteral_hd (i : Nat) (c : Byte) (s : State) : (holdLiteral i c s).hd = s.hd := rfl
@[simp] theorem holdLiteral_port (i : Nat) (c : Byte) (s : State) : (holdLiteral i c s).port = s.port := rfl
@[simp] theorem holdLiteral_reply (i : Nat) (c : Byte) (s : State) : (holdLiteral i c s).reply = s.reply := rfl
@[simp] theorem holdLiteral_ibufEpoch (i : Nat) (c : Byte) (s : State) : (holdLiteral i c s).ibufEpoch = s.ibufEpoch := rfl
@[simp] theorem holdLiteral_obufEpoch (i : Nat) (c : Byte) (s : State) : (holdLiteral i c s).obufEpoch = s.obufEpoch := rfl
@[simp] theorem holdLiteral_fresh (i : Nat) (c : Byte) (s : State) : (holdLiteral i c s).fresh = s.fresh := rfl

/-! ### `startRepeat` -/

@[simp] theorem startRepeat_cfg (c : Byte) (s : State) : (startRepeat c s).cfg = s.cfg := rfl
@[simp] theorem startRepeat_runState (c : Byte) (s : State) : (startRepeat c s).runState = s.runState := rfl
@[simp] theorem startRepeat_errKind (c : Byte) (s : State) : (startRepeat c s).errKind = s.errKind := rfl
@[simp] theorem startRepeat_ilen (c : Byte) (s : State) : (startRepeat c s).ilen = s.ilen := rfl
@[simp] theorem startRepeat_olen (c : Byte) (s : State) : (startRepeat c s).olen = s.olen := rfl
@[simp] theorem startRepeat_ibuf (c : Byte) (s : State) : (startRepeat c s).ibuf = s.ibuf := rfl
@[simp] theorem startRepeat_obuf (c : Byte) (s : State) : (startRepeat c s).obuf = s.obuf := rfl
@[simp] theorem startRepeat_op (c : Byte) (s : State) : (startRepeat c s).op = s.op := rfl
@[simp] theorem startRepeat_phase (c : Byte) (s : State) : (startRepeat c s).phase = s.phase := rfl
@[simp] theorem startRepeat_ipos (c : Byte) (s : State) : (startRepeat c s).ipos = s.ipos := rfl
@[simp] theorem startRepeat_opos (c : Byte) (s : State) : (startRepeat c s).opos = s.opos := rfl
@[simp] theorem startRepeat_pk (c : Byte) (s : State) : (startRepeat c s).pk = s.pk := rfl
@[simp] theorem startRepeat_re (c : Byte) (s : State) : (startRepeat c s).re = { s.re with sym := c, cnt := 2, mode := .rep, lCnt := 0 } := rfl
@[simp] theorem startRepeat_dSvc (c : Byte) (s : State) : (startRepeat c s).dSvc = s.dSvc := rfl
@[simp] theorem startRepeat_he (c : Byte) (s : State) : (startRepeat c s).he = s.he := rfl
@[simp] theorem startRepeat_hd (c : Byte) (s : State) : (startRepeat c s).hd = s.hd := rfl
@[simp] theorem startRepeat_port (c : Byte) (s : State) : (startRepeat c s).port = s.port := rfl
@[simp] theorem startRepeat_reply (c : Byte) (s : State) : (startRepeat c s).reply = s.reply := rfl
@[simp] theorem startRepeat_ibufEpoch (c : Byte) (s : State) : (startRepeat c s).ibufEpoch = s.ibufEpoch := rfl
@[simp] theorem startRepeat_obufEpoch (c : Byte) (s : State) : (startRepeat c s).obufEpoch = s.obufEpoch := rfl
@[simp] theorem startRepeat_fresh (c : Byte) (s : State) : (startRepeat c s).fresh = s.fresh := rfl

/-! ### `countRepeat` -/

@[simp] theorem countRepeat_cfg (s : State) : (countRepeat s).cfg = s.cfg := rfl
@[simp] theorem countRepeat_runState (s : State) : (countRepeat s).runState = s.runState := rfl
@[simp] theorem countRepeat_errKind (s : State) : (countRepeat s).errKind = s.errKind := rfl
@[simp] theorem countRepeat_ilen (s : State) : (countRepeat s).ilen = s.ilen := rfl
@[simp] theorem countRepeat_olen (s : State) : (countRepeat s).olen = s.olen := rfl
@[simp] theorem countRepeat_ibuf (s : State) : (countRepeat s).ibuf = s.ibuf := rfl
@[simp] theorem countRepeat_obuf (s : State) : (countRepeat s).obuf = s.obuf := rfl
@[simp] theorem countRepeat_op (s : State) : (countRepeat s).op = s.op := rfl
@[simp] theorem countRepeat_phase (s : State) : (countRepeat s).phase = s.phase := rfl
@[simp] theorem countRepeat_ipos (s : State) : (countRepeat s).ipos = s.ipos := rfl
@[simp] theorem countRepeat_opos (s : State) : (countRepeat s).opos = s.opos := rfl
@[simp] theorem countRepeat_pk (s : State) : (countRepeat s).pk = s.pk := rfl
@[simp] theorem countRepeat_re (s : State) : (countRepeat s).re = { s.re with cnt := s.re.cnt + 1 } := rfl
@[simp] theorem countRepeat_dSvc (s : State) : (countRepeat s).dSvc = s.dSvc := rfl
@[simp] theorem countRepeat_he (s : State) : (countRepeat s).he = s.he := rfl
@[simp] theorem countRepeat_hd (s : State) : (countRepeat s).hd = s.hd := rfl
@[simp] theorem countRepeat_port (s : State) : (countRepeat s).port = s.port := rfl
@[simp] theorem countRepeat_reply (s : State) : (countRepeat s).reply = s.reply := rfl
@[simp] theorem countRepeat_ibufEpoch (s : State) : (countRepeat s).ibufEpoch = s.ibufEpoch := rfl
@[simp] theorem countRepeat_obufEpoch (s : State) : (countRepeat s).obufEpoch = s.obufEpoch := rfl
@[simp] theorem countRepeat_fresh (s : State) : (countRepeat s).fresh = s.fresh := rfl

/-! ### `hufDecInit` -/

@[simp] theorem hufDecInit_cfg (s : State) : (hufDecInit s).cfg = s.cfg := rfl
@[simp] theorem hufDecInit_runState (s : State) : (hufDecInit s).runState = s.runState := rfl
@[simp] theorem hufDecInit_errKind (s : State) : (hufDecInit s).errKind = s.errKind := rfl
@[simp] theorem hufDecInit_ilen (s : State) : (hufDecInit s).ilen = s.ilen := rfl
@[simp] theorem hufDecInit_olen (s : State) : (hufDecInit s).olen = s.olen := rfl
@[simp] theorem hufDecInit_ibuf (s : State) : (hufDecInit s).ibuf = s.ibuf := rfl
@[simp] theorem hufDecInit_obuf (s : State) : (hufDecInit s).obuf = s.obuf := rfl
@[simp] theorem hufDecInit_op (s : State) : (hufDecInit s).op = s.op := rfl
@[simp] theorem hufDecInit_phase (s : State) : (hufDecInit s).phase = .hHdr := rfl
@[simp] theorem hufDecInit_ipos (s : State) : (hufDecInit s).ipos = 0 := rfl
@[simp] theorem hufDecInit_opos (s : State) : (hufDecInit s).opos = 0 := rfl
@[simp] theorem hufDecInit_pk (s : State) : (hufDecInit s).pk = s.pk := rfl
@[simp] theorem hufDecInit_re (s : State) : (hufDecInit s).re = s.re := rfl
@[simp] theorem hufDecInit_dSvc (s : State) : (hufDecInit s).dSvc = s.dSvc := rfl
@[simp] theorem hufDecInit_he (s : State) : (hufDecInit s).he = s.he := rfl
@[simp] theorem hufDecInit_hd (s : State) : (hufDecInit s).hd = { s.hd with dlen := Vector.replicate 256 0, cur := [], upIdx := 0 } := rfl
@[simp] theorem hufDecInit_port (s : State) : (hufDecInit s).port = s.port := rfl
@[simp] theorem hufDecInit_reply (s : State) : (hufDecInit s).reply = s.reply := rfl
@[simp] theorem hufDecInit_ibufEpoch (s : State) : (hufDecInit s).ibufEpoch = s.ibufEpoch := rfl
@[simp] theorem hufDecInit_obufEpoch (s : State) : (hufDecInit s).obufEpoch = s.obufEpoch := rfl
@[simp] theorem hufDecInit_fresh (s : State) : (hufDecInit s).fresh = s.fresh := rfl

/-! ### `pushBit` -/

@[simp] theorem pushBit_cfg (b : Bool) (s : State) : (pushBit b s).cfg = s.cfg := rfl
@[simp] theorem pushBit_runState (b : Bool) (s : State) : (pushBit b s).runState = s.runState := rfl
@[simp] theorem pushBit_errKind (b : Bool) (s : State) : (pushBit b s).errKind = s.errKind := rfl
@[simp] theorem pushBit_ilen (b : Bool) (s : State) : (pushBit b s).ilen = s.ilen := rfl
@[simp] theorem pushBit_olen (b : Bool) (s : State) : (pushBit b s).olen = s.olen := rfl
@[simp] theorem pushBit_ibuf (b : Bool) (s : State) : (pushBit b s).ibuf = s.ibuf := rfl
@[simp] theorem pushBit_obuf (b : Bool) (s : State) : (pushBit b s).obuf = s.obuf := rfl
@[simp] theorem pushBit_op (b : Bool) (s : State) : (pushBit b s).op = s.op := rfl
@[simp] theorem pushBit_phase (b : Bool) (s : State) : (pushBit b s).phase = s.phase := rfl
@[simp] theorem pushBit_ipos (b : Bool) (s : State) : (pushBit b s).ipos = s.ipos := rfl
@[simp] theorem pushBit_opos (b : Bool) (s : State) : (pushBit b s).opos = s.opos := rfl
@[simp] theorem pushBit_pk (b : Bool) (s : State) : (pushBit b s).pk = s.pk := rfl
@[simp] theorem pushBit_re (b : Bool) (s : State) : (pushBit b s).re = s.re := rfl
@[simp] theorem pushBit_dSvc (b : Bool) (s : State) : (pushBit b s).dSvc = s.dSvc := rfl
@[simp] theorem pushBit_he (b : Bool) (s : State) : (pushBit b s).he = s.he := rfl
@[simp] theorem pushBit_hd (b : Bool) (s : State) : (pushBit b s).hd = { s.hd with cur := s.hd.cur ++ [b] } := rfl
@[simp] theorem pushBit_port (b : Bool) (s : State) : (pushBit b s).port = s.port := rfl
@[simp] theorem pushBit_reply (b : Bool) (s : State) : (pushBit b s).reply = s.reply := rfl
@[simp] theorem pushBit_ibufEpoch (b : Bool) (s : State) : (pushBit b s).ibufEpoch = s.ibufEpoch := rfl
@[simp] theorem pushBit_obufEpoch (b : Bool) (s : State) : (pushBit b s).obufEpoch = s.obufEpoch := rfl
@[simp] theorem pushBit_fresh (b : Bool) (s : State) : (pushBit b s).fresh = s.fresh := rfl

/-! ### `clearCur` -/

@[simp] theorem clearCur_cfg (s : State) : (clearCur s).cfg = s.cfg := rfl
@[simp] theorem clearCur_runState (s : State) : (clearCur s).runState = s.runState := rfl
@[simp] theorem clearCur_errKind (s : State) : (clearCur s).errKind = s.errKind := rfl
@[simp] theorem clearCur_ilen (s : State) : (clearCur s).ilen = s.ilen := rfl
@[simp] theorem clearCur_olen (s : State) : (clearCur s).olen = s.olen := rfl
@[simp] theorem clearCur_ibuf (s : State) : (clearCur s).ibuf = s.ibuf := rfl
@[simp] theorem clearCur_obuf (s : State) : (clearCur s).obuf = s.obuf := rfl
@[simp] theorem clearCur_op (s : State) : (clearCur s).op = s.op := rfl
@[simp] theorem clearCur_phase (s : State) : (clearCur s).phase = s.phase := rfl
@[simp] theorem clearCur_ipos (s : State) : (clearCur s).ipos = s.ipos := rfl
@[simp] theorem clearCur_opos (s : State) : (clearCur s).opos = s.opos := rfl
@[simp] theorem clearCur_pk (s : State) : (clearCur s).pk = s.pk := rfl
@[simp] theorem clearCur_re (s : State) : (clearCur s).re = s.re := rfl
@[simp] theorem clearCur_dSvc (s : State) : (clearCur s).dSvc = s.dSvc := rfl
@[simp] theorem clearCur_he (s : State) : (clearCur s).he = s.he := rfl
@[simp] theorem clearCur_hd (s : State) : (clearCur s).hd = { s.hd with cur := [] } := rfl
@[simp] theorem clearCur_port (s : State) : (clearCur s).port = s.port := rfl
@[simp] theorem clearCur_reply (s : State) : (clearCur s).reply = s.reply := rfl
@[simp] theorem clearCur_ibufEpoch (s : State) : (clearCur s).ibufEpoch = s.ibufEpoch := rfl
@[simp] theorem clearCur_obufEpoch (s : State) : (clearCur s).obufEpoch = s.obufEpoch := rfl
@[simp] theorem clearCur_fresh (s : State) : (clearCur s).fresh = s.fresh := rfl

/-! ### `resetFrom` -/

@[simp] theorem resetFrom_cfg (s : State) : (resetFrom s).cfg = s.cfg := rfl
@[simp] theorem resetFrom_runState (s : State) : (resetFrom s).runState = .idle := rfl
@[simp] theorem resetFrom_errKind (s : State) : (resetFrom s).errKind = none := rfl
@[simp] theorem resetFrom_ilen (s : State) : (resetFrom s).ilen = 0 := rfl
@[simp] theorem resetFrom_olen (s : State) : (resetFrom s).olen = 0 := rfl
@[simp] theorem resetFrom_ibuf (s : State) : (resetFrom s).ibuf = [] := rfl
@[simp] theorem resetFrom_obuf (s : State) : (resetFrom s).obuf = [] := rfl
@[simp] theorem resetFrom_op (s : State) : (resetFrom s).op = 0 := rfl
@[simp] theorem resetFrom_phase (s : State) : (resetFrom s).phase = .idle := rfl
@[simp] theorem resetFrom_ipos (s : State) : (resetFrom s).ipos = 0 := rfl
@[simp] theorem resetFrom_opos (s : State) : (resetFrom s).opos = 0 := rfl
@[simp] theorem resetFrom_pk (s : State) : (resetFrom s).pk = Packer.zero := rfl
@[simp] theorem resetFrom_re (s : State) : (resetFrom s).re = RleEncUnit.zero := rfl
@[simp] theorem resetFrom_dSvc (s : State) : (resetFrom s).dSvc = 0 := rfl
@[simp] theorem resetFrom_he (s : State) : (resetFrom s).he = HufEncUnit.zero := rfl
@[simp] theorem resetFrom_hd (s : State) : (resetFrom s).hd = HufDecUnit.zero := rfl
@[simp] theorem resetFrom_port (s : State) : (resetFrom s).port = s.port := rfl
@[simp] theorem resetFrom_reply (s : State) : (resetFrom s).reply = s.reply := rfl
@[simp] theorem resetFrom_ibufEpoch (s : State) : (resetFrom s).ibufEpoch = s.fresh := rfl
@[simp] theorem resetFrom_obufEpoch (s : State) : (resetFrom s).obufEpoch = s.fresh := rfl
@[simp] theorem resetFrom_fresh (s : State) : (resetFrom s).fresh = s.fresh + 1 := rfl

/-! ### Writes to OBUF change only OBUF -/

@[simp] theorem writeObuf_cfg (a : Nat) (v : Byte) (s : State) : (writeObuf a v s).cfg = s.cfg := by
  unfold writeObuf; split <;> rfl
@[simp] theorem writeObuf_runState (a : Nat) (v : Byte) (s : State) : (writeObuf a v s).runState = s.runState := by
  unfold writeObuf; split <;> rfl
@[simp] theorem writeObuf_errKind (a : Nat) (v : Byte) (s : State) : (writeObuf a v s).errKind = s.errKind := by
  unfold writeObuf; split <;> rfl
@[simp] theorem writeObuf_ilen (a : Nat) (v : Byte) (s : State) : (writeObuf a v s).ilen = s.ilen := by
  unfold writeObuf; split <;> rfl
@[simp] theorem writeObuf_olen (a : Nat) (v : Byte) (s : State) : (writeObuf a v s).olen = s.olen := by
  unfold writeObuf; split <;> rfl
@[simp] theorem writeObuf_ibuf (a : Nat) (v : Byte) (s : State) : (writeObuf a v s).ibuf = s.ibuf := by
  unfold writeObuf; split <;> rfl
@[simp] theorem writeObuf_op (a : Nat) (v : Byte) (s : State) : (writeObuf a v s).op = s.op := by
  unfold writeObuf; split <;> rfl
@[simp] theorem writeObuf_phase (a : Nat) (v : Byte) (s : State) : (writeObuf a v s).phase = s.phase := by
  unfold writeObuf; split <;> rfl
@[simp] theorem writeObuf_ipos (a : Nat) (v : Byte) (s : State) : (writeObuf a v s).ipos = s.ipos := by
  unfold writeObuf; split <;> rfl
@[simp] theorem writeObuf_opos (a : Nat) (v : Byte) (s : State) : (writeObuf a v s).opos = s.opos := by
  unfold writeObuf; split <;> rfl
@[simp] theorem writeObuf_pk (a : Nat) (v : Byte) (s : State) : (writeObuf a v s).pk = s.pk := by
  unfold writeObuf; split <;> rfl
@[simp] theorem writeObuf_re (a : Nat) (v : Byte) (s : State) : (writeObuf a v s).re = s.re := by
  unfold writeObuf; split <;> rfl
@[simp] theorem writeObuf_dSvc (a : Nat) (v : Byte) (s : State) : (writeObuf a v s).dSvc = s.dSvc := by
  unfold writeObuf; split <;> rfl
@[simp] theorem writeObuf_he (a : Nat) (v : Byte) (s : State) : (writeObuf a v s).he = s.he := by
  unfold writeObuf; split <;> rfl
@[simp] theorem writeObuf_hd (a : Nat) (v : Byte) (s : State) : (writeObuf a v s).hd = s.hd := by
  unfold writeObuf; split <;> rfl
@[simp] theorem writeObuf_port (a : Nat) (v : Byte) (s : State) : (writeObuf a v s).port = s.port := by
  unfold writeObuf; split <;> rfl
@[simp] theorem writeObuf_reply (a : Nat) (v : Byte) (s : State) : (writeObuf a v s).reply = s.reply := by
  unfold writeObuf; split <;> rfl
@[simp] theorem writeObuf_ibufEpoch (a : Nat) (v : Byte) (s : State) : (writeObuf a v s).ibufEpoch = s.ibufEpoch := by
  unfold writeObuf; split <;> rfl
@[simp] theorem writeObuf_obufEpoch (a : Nat) (v : Byte) (s : State) : (writeObuf a v s).obufEpoch = s.obufEpoch := by
  unfold writeObuf; split <;> rfl
@[simp] theorem writeObuf_fresh (a : Nat) (v : Byte) (s : State) : (writeObuf a v s).fresh = s.fresh := by
  unfold writeObuf; split <;> rfl
@[simp] theorem writeObufAll_cfg (vs : List Byte) (a : Nat) (s : State) :
    (writeObufAll a vs s).cfg = s.cfg := by
  induction vs generalizing a s with
  | nil => rfl
  | cons v vs ih => simp [writeObufAll, ih]
@[simp] theorem writeObufAll_runState (vs : List Byte) (a : Nat) (s : State) :
    (writeObufAll a vs s).runState = s.runState := by
  induction vs generalizing a s with
  | nil => rfl
  | cons v vs ih => simp [writeObufAll, ih]
@[simp] theorem writeObufAll_errKind (vs : List Byte) (a : Nat) (s : State) :
    (writeObufAll a vs s).errKind = s.errKind := by
  induction vs generalizing a s with
  | nil => rfl
  | cons v vs ih => simp [writeObufAll, ih]
@[simp] theorem writeObufAll_ilen (vs : List Byte) (a : Nat) (s : State) :
    (writeObufAll a vs s).ilen = s.ilen := by
  induction vs generalizing a s with
  | nil => rfl
  | cons v vs ih => simp [writeObufAll, ih]
@[simp] theorem writeObufAll_olen (vs : List Byte) (a : Nat) (s : State) :
    (writeObufAll a vs s).olen = s.olen := by
  induction vs generalizing a s with
  | nil => rfl
  | cons v vs ih => simp [writeObufAll, ih]
@[simp] theorem writeObufAll_ibuf (vs : List Byte) (a : Nat) (s : State) :
    (writeObufAll a vs s).ibuf = s.ibuf := by
  induction vs generalizing a s with
  | nil => rfl
  | cons v vs ih => simp [writeObufAll, ih]
@[simp] theorem writeObufAll_op (vs : List Byte) (a : Nat) (s : State) :
    (writeObufAll a vs s).op = s.op := by
  induction vs generalizing a s with
  | nil => rfl
  | cons v vs ih => simp [writeObufAll, ih]
@[simp] theorem writeObufAll_phase (vs : List Byte) (a : Nat) (s : State) :
    (writeObufAll a vs s).phase = s.phase := by
  induction vs generalizing a s with
  | nil => rfl
  | cons v vs ih => simp [writeObufAll, ih]
@[simp] theorem writeObufAll_ipos (vs : List Byte) (a : Nat) (s : State) :
    (writeObufAll a vs s).ipos = s.ipos := by
  induction vs generalizing a s with
  | nil => rfl
  | cons v vs ih => simp [writeObufAll, ih]
@[simp] theorem writeObufAll_opos (vs : List Byte) (a : Nat) (s : State) :
    (writeObufAll a vs s).opos = s.opos := by
  induction vs generalizing a s with
  | nil => rfl
  | cons v vs ih => simp [writeObufAll, ih]
@[simp] theorem writeObufAll_pk (vs : List Byte) (a : Nat) (s : State) :
    (writeObufAll a vs s).pk = s.pk := by
  induction vs generalizing a s with
  | nil => rfl
  | cons v vs ih => simp [writeObufAll, ih]
@[simp] theorem writeObufAll_re (vs : List Byte) (a : Nat) (s : State) :
    (writeObufAll a vs s).re = s.re := by
  induction vs generalizing a s with
  | nil => rfl
  | cons v vs ih => simp [writeObufAll, ih]
@[simp] theorem writeObufAll_dSvc (vs : List Byte) (a : Nat) (s : State) :
    (writeObufAll a vs s).dSvc = s.dSvc := by
  induction vs generalizing a s with
  | nil => rfl
  | cons v vs ih => simp [writeObufAll, ih]
@[simp] theorem writeObufAll_he (vs : List Byte) (a : Nat) (s : State) :
    (writeObufAll a vs s).he = s.he := by
  induction vs generalizing a s with
  | nil => rfl
  | cons v vs ih => simp [writeObufAll, ih]
@[simp] theorem writeObufAll_hd (vs : List Byte) (a : Nat) (s : State) :
    (writeObufAll a vs s).hd = s.hd := by
  induction vs generalizing a s with
  | nil => rfl
  | cons v vs ih => simp [writeObufAll, ih]
@[simp] theorem writeObufAll_port (vs : List Byte) (a : Nat) (s : State) :
    (writeObufAll a vs s).port = s.port := by
  induction vs generalizing a s with
  | nil => rfl
  | cons v vs ih => simp [writeObufAll, ih]
@[simp] theorem writeObufAll_reply (vs : List Byte) (a : Nat) (s : State) :
    (writeObufAll a vs s).reply = s.reply := by
  induction vs generalizing a s with
  | nil => rfl
  | cons v vs ih => simp [writeObufAll, ih]
@[simp] theorem writeObufAll_ibufEpoch (vs : List Byte) (a : Nat) (s : State) :
    (writeObufAll a vs s).ibufEpoch = s.ibufEpoch := by
  induction vs generalizing a s with
  | nil => rfl
  | cons v vs ih => simp [writeObufAll, ih]
@[simp] theorem writeObufAll_obufEpoch (vs : List Byte) (a : Nat) (s : State) :
    (writeObufAll a vs s).obufEpoch = s.obufEpoch := by
  induction vs generalizing a s with
  | nil => rfl
  | cons v vs ih => simp [writeObufAll, ih]
@[simp] theorem writeObufAll_fresh (vs : List Byte) (a : Nat) (s : State) :
    (writeObufAll a vs s).fresh = s.fresh := by
  induction vs generalizing a s with
  | nil => rfl
  | cons v vs ih => simp [writeObufAll, ih]

/-! ### The Huffman units -/

@[simp] theorem pushNode_freq (n : Node) (h : HufEncUnit) :
    (pushNode n h).freq = h.freq := rfl
@[simp] theorem pushNode_nLeaf (n : Node) (h : HufEncUnit) :
    (pushNode n h).nLeaf = h.nLeaf := rfl
@[simp] theorem pushNode_nNode (n : Node) (h : HufEncUnit) :
    (pushNode n h).nNode = h.nNode + 1 := rfl
@[simp] theorem pushNode_nLive (n : Node) (h : HufEncUnit) :
    (pushNode n h).nLive = h.nLive + 1 := rfl
@[simp] theorem pushNode_root (n : Node) (h : HufEncUnit) :
    (pushNode n h).root = h.root := rfl
@[simp] theorem pushNode_node (n : Node) (h : HufEncUnit) :
    (pushNode n h).node = h.node.setIfInBounds h.nNode n := rfl
@[simp] theorem pushNode_live (n : Node) (h : HufEncUnit) :
    (pushNode n h).live = h.live.setIfInBounds h.nNode true := rfl
@[simp] theorem pushNode_path (n : Node) (h : HufEncUnit) :
    (pushNode n h).path = h.path := rfl
@[simp] theorem pushNode_clen (n : Node) (h : HufEncUnit) :
    (pushNode n h).clen = h.clen := rfl
@[simp] theorem pushNode_cbits (n : Node) (h : HufEncUnit) :
    (pushNode n h).cbits = h.cbits := rfl
@[simp] theorem pushNode_btot (n : Node) (h : HufEncUnit) :
    (pushNode n h).btot = h.btot := rfl
@[simp] theorem pushNode_tlen (n : Node) (h : HufEncUnit) :
    (pushNode n h).tlen = h.tlen := rfl
@[simp] theorem countSymbol_freq (c : Byte) (h : HufEncUnit) :
    (countSymbol c h).freq = h.freq.setIfInBounds c.toNat (h.freq.toList.getD c.toNat 0 + 1) := rfl
@[simp] theorem countSymbol_nLeaf (c : Byte) (h : HufEncUnit) :
    (countSymbol c h).nLeaf = h.nLeaf := rfl
@[simp] theorem countSymbol_nNode (c : Byte) (h : HufEncUnit) :
    (countSymbol c h).nNode = h.nNode := rfl
@[simp] theorem countSymbol_nLive (c : Byte) (h : HufEncUnit) :
    (countSymbol c h).nLive = h.nLive := rfl
@[simp] theorem countSymbol_root (c : Byte) (h : HufEncUnit) :
    (countSymbol c h).root = h.root := rfl
@[simp] theorem countSymbol_node (c : Byte) (h : HufEncUnit) :
    (countSymbol c h).node = h.node := rfl
@[simp] theorem countSymbol_live (c : Byte) (h : HufEncUnit) :
    (countSymbol c h).live = h.live := rfl
@[simp] theorem countSymbol_path (c : Byte) (h : HufEncUnit) :
    (countSymbol c h).path = h.path := rfl
@[simp] theorem countSymbol_clen (c : Byte) (h : HufEncUnit) :
    (countSymbol c h).clen = h.clen := rfl
@[simp] theorem countSymbol_cbits (c : Byte) (h : HufEncUnit) :
    (countSymbol c h).cbits = h.cbits := rfl
@[simp] theorem countSymbol_btot (c : Byte) (h : HufEncUnit) :
    (countSymbol c h).btot = h.btot := rfl
@[simp] theorem countSymbol_tlen (c : Byte) (h : HufEncUnit) :
    (countSymbol c h).tlen = h.tlen := rfl
@[simp] theorem setCode_freq (c : Byte) (code : Bits) (h : HufEncUnit) :
    (setCode c code h).freq = h.freq := rfl
@[simp] theorem setCode_nLeaf (c : Byte) (code : Bits) (h : HufEncUnit) :
    (setCode c code h).nLeaf = h.nLeaf := rfl
@[simp] theorem setCode_nNode (c : Byte) (code : Bits) (h : HufEncUnit) :
    (setCode c code h).nNode = h.nNode := rfl
@[simp] theorem setCode_nLive (c : Byte) (code : Bits) (h : HufEncUnit) :
    (setCode c code h).nLive = h.nLive := rfl
@[simp] theorem setCode_root (c : Byte) (code : Bits) (h : HufEncUnit) :
    (setCode c code h).root = h.root := rfl
@[simp] theorem setCode_node (c : Byte) (code : Bits) (h : HufEncUnit) :
    (setCode c code h).node = h.node := rfl
@[simp] theorem setCode_live (c : Byte) (code : Bits) (h : HufEncUnit) :
    (setCode c code h).live = h.live := rfl
@[simp] theorem setCode_path (c : Byte) (code : Bits) (h : HufEncUnit) :
    (setCode c code h).path = h.path := rfl
@[simp] theorem setCode_clen (c : Byte) (code : Bits) (h : HufEncUnit) :
    (setCode c code h).clen = h.clen.setIfInBounds c.toNat code.length := rfl
@[simp] theorem setCode_cbits (c : Byte) (code : Bits) (h : HufEncUnit) :
    (setCode c code h).cbits = h.cbits.setIfInBounds c.toNat code := rfl
@[simp] theorem setCode_btot (c : Byte) (code : Bits) (h : HufEncUnit) :
    (setCode c code h).btot = h.btot := rfl
@[simp] theorem setCode_tlen (c : Byte) (code : Bits) (h : HufEncUnit) :
    (setCode c code h).tlen = h.tlen := rfl
@[simp] theorem setEntry_hB (len sym : Byte) (code : Bits) (h : HufDecUnit) :
    (setEntry len sym code h).hB = h.hB := rfl
@[simp] theorem setEntry_hT (len sym : Byte) (code : Bits) (h : HufDecUnit) :
    (setEntry len sym code h).hT = h.hT := rfl
@[simp] theorem setEntry_tpos (len sym : Byte) (code : Bits) (h : HufDecUnit) :
    (setEntry len sym code h).tpos = h.tpos := rfl
@[simp] theorem setEntry_dlen (len sym : Byte) (code : Bits) (h : HufDecUnit) :
    (setEntry len sym code h).dlen = h.dlen.setIfInBounds sym.toNat len.toNat := rfl
@[simp] theorem setEntry_dbits (len sym : Byte) (code : Bits) (h : HufDecUnit) :
    (setEntry len sym code h).dbits = h.dbits.setIfInBounds sym.toNat code := rfl
@[simp] theorem setEntry_upIdx (len sym : Byte) (code : Bits) (h : HufDecUnit) :
    (setEntry len sym code h).upIdx = h.upIdx := rfl
@[simp] theorem setEntry_cur (len sym : Byte) (code : Bits) (h : HufDecUnit) :
    (setEntry len sym code h).cur = h.cur := rfl

end Sys2Proof.Machine
end

