-- ==== Sys2Proof/Laws/Ops.lean ====
section
/-! SUPPORT. What each shared operation can do, said once. -/

namespace Sys2Proof.Machine

/-! ### Sequencing -/

theorem except_bind_ok {α β ε : Type} {x : Except ε α} {f : α → Except ε β} {r : β} :
    (x >>= f) = .ok r ↔ ∃ a, x = .ok a ∧ f a = .ok r := by
  cases x with
  | error e => exact ⟨fun h => (nomatch h), fun ⟨_, h, _⟩ => (nomatch h)⟩
  | ok a => exact ⟨fun h => ⟨a, rfl, h⟩, fun ⟨_, h, h'⟩ => (by cases h; exact h')⟩

theorem except_bind_error {α β ε : Type} {x : Except ε α} {f : α → Except ε β} {e : ε} :
    (x >>= f) = .error e ↔ x = .error e ∨ ∃ a, x = .ok a ∧ f a = .error e := by
  cases x with
  | error e' =>
    exact ⟨fun h => .inl (by cases h; rfl), fun h => (by rcases h with h | ⟨_, h, _⟩ <;> cases h; rfl)⟩
  | ok a => exact ⟨fun h => .inr ⟨a, rfl, h⟩, fun h => (by rcases h with h | ⟨_, h, h'⟩ <;> cases h; exact h')⟩

/-! ### `Append` -/

/-- `Append` answers a state with the octet at OPOS, or CapacityExceeded at `OPOS ≥ M_MAX`, and nothing else. -/
theorem append_eq (v : Byte) (s : State) :
    append v s =
      if s.opos < s.cfg.mMax then .ok { s with obuf := Memory.insert s.obuf s.opos v, opos := s.opos + 1 }
      else .error .capacityExceeded := by
  unfold append writeObuf
  by_cases h : s.opos < s.cfg.mMax
  · rw [if_neg (by omega), if_pos h, if_pos h]
  · rw [if_pos (by omega), if_neg h]

/-- Appending octets succeeds exactly when they fit, and then lists them from OPOS on. -/
theorem appendAll_eq (vs : List Byte) (s : State) :
    appendAll vs s =
      if vs = [] ∨ s.opos + vs.length ≤ s.cfg.mMax then
        .ok { s with obuf := Memory.insertAll s.obuf s.opos vs, opos := s.opos + vs.length }
      else .error .capacityExceeded := by
  induction vs generalizing s with
  | nil => rw [if_pos (.inl rfl)]; rfl
  | cons v vs ih =>
    rw [appendAll, append_eq]
    by_cases h : s.opos < s.cfg.mMax
    · rw [if_pos h]
      show appendAll vs _ = _
      rw [ih]
      by_cases h2 : s.opos + (v :: vs).length ≤ s.cfg.mMax
      · rw [if_pos (.inr (by simp only [List.length_cons] at h2 ⊢; omega)), if_pos (.inr h2)]
        simp only [List.length_cons, Memory.insertAll, Except.ok.injEq]
        congr 1; omega
      · simp only [List.length_cons] at h2
        have hne : vs ≠ [] := by rintro rfl; simp only [List.length_nil] at h2; omega
        rw [if_neg (by simp only [hne, false_or]; omega), if_neg (by simp [List.length_cons]; omega)]
    · rw [if_neg h, if_neg (by simp [List.length_cons]; omega)]
      rfl

/-- An appended octet is read back, and no other octet of OBUF changes. -/
theorem append_readObuf {v : Byte} {s t : State} (h : append v s = .ok t) (a : Nat) :
    readObuf t a = if a = s.opos then v else readObuf s a := by
  rw [append_eq] at h
  split at h
  · cases h
    simp only [readObuf, Memory.lookup_insert]
    split <;> rfl
  · cases h

/-! ### The reads of the buffers -/

theorem readIbuf_congr {s t : State} (h : t.ibuf = s.ibuf) (he : t.ibufEpoch = s.ibufEpoch) (a : Nat) :
    readIbuf t a = readIbuf s a := by rw [readIbuf, readIbuf, h, he]

@[simp] theorem ibufOctets_length (s : State) (o n : Nat) : (ibufOctets s o n).length = n := by simp [ibufOctets]

@[simp] theorem obufOctets_length (s : State) (o n : Nat) : (obufOctets s o n).length = n := by simp [obufOctets]

@[simp] theorem input_length (s : State) : s.input.length = s.ilen.toNat := by simp [State.input]

@[simp] theorem result_length (s : State) : s.result.length = s.olen.toNat := by simp [State.result]

/-! ### Completion -/

/-- A completed command is DONE with what its procedure appended, or in ERROR with what it raised. -/
theorem complete_cases (s : State) (r : Except ErrorKind State) :
    (∃ t, r = .ok t ∧ complete s r = completeDone t) ∨ (∃ k, r = .error k ∧ complete s r = failCommand k s) := by
  cases r with
  | ok t => exact .inl ⟨t, rfl, rfl⟩
  | error k => exact .inr ⟨k, rfl, rfl⟩

/-- Execute refuses an input longer than N_MAX before the procedure runs, and else completes with the procedure's
outcome. -/
theorem execute_cases (proc : State → Except ErrorKind State) (s : State) :
    (s.cfg.nMax < s.ilen.toNat ∧ execute proc s = failCommand .capacityExceeded s) ∨
    (s.ilen.toNat ≤ s.cfg.nMax ∧ execute proc s = complete s (proc s)) := by
  unfold execute entryCheck
  by_cases h : s.cfg.nMax < s.ilen.toNat
  · rw [if_pos h]; exact .inl ⟨h, rfl⟩
  · rw [if_neg h]; exact .inr ⟨by omega, rfl⟩

theorem codecCommand_busy {op : BitVec 3} {proc : State → Except ErrorKind State} {s : State}
    (h : s.runState = .busy) : codecCommand op proc s = execute proc s := if_pos h

theorem codecCommand_free {op : BitVec 3} {proc : State → Except ErrorKind State} {s : State}
    (h : s.runState ≠ .busy) : codecCommand op proc s = issue op s := if_neg h

/-! ### The packer -/

/-- `PackBit` fills one bit of the accumulator, or emits the full octet. -/
theorem packBit_ok {b : Bool} {s t : State} (h : packBit b s = .ok t) :
    (s.pk.cnt = 7 ∧ ∃ u, append (setBit s.pk.acc (7 - s.pk.cnt) b) s = .ok u ∧
      t = { u with pk := { acc := 0, cnt := 0 } }) ∨
    (s.pk.cnt ≠ 7 ∧ t = { s with pk := { acc := setBit s.pk.acc (7 - s.pk.cnt) b, cnt := s.pk.cnt + 1 } }) := by
  unfold packBit at h
  dsimp only at h
  split at h
  · obtain ⟨u, hu, h⟩ := except_bind_ok.mp h
    cases h
    exact .inl ⟨‹_›, u, hu, rfl⟩
  · cases h
    exact .inr ⟨‹_›, rfl⟩

/-- `PackFlush` emits a partly filled octet, if there is one. -/
theorem packFlush_ok {s t : State} (h : packFlush s = .ok t) :
    (s.pk.cnt = 0 ∧ t = s) ∨
    (s.pk.cnt ≠ 0 ∧ ∃ u, append s.pk.acc s = .ok u ∧ t = { u with pk := { acc := 0, cnt := 0 } }) := by
  unfold packFlush at h
  split at h
  · cases h; exact .inl ⟨‹_›, rfl⟩
  · obtain ⟨u, hu, h⟩ := except_bind_ok.mp h
    cases h
    exact .inr ⟨‹_›, u, hu, rfl⟩

/-! ### Widths -/

/-- WEIGHT_W is the smallest width that holds N_MAX (00_scope.md R8). -/
theorem weightWidth_le_iff (c : Config) (w : Nat) : c.weightWidth ≤ w ↔ c.nMax < 2 ^ w := by
  unfold Config.weightWidth
  split
  · simp_all
  · rw [Nat.succ_le_iff, Nat.log2_lt ‹_›]

theorem freeReg_lt (draw w : Nat) (reg : ScratchReg) (i : Nat) : freeReg draw w reg i < 2 ^ w :=
  Nat.mod_lt _ (Nat.two_pow_pos w)

theorem freeBits_length_le (draw w : Nat) (reg : ScratchReg) (i : Nat) : (freeBits draw w reg i).length ≤ w :=
  List.length_take_le ..

@[simp] theorem mem_tabulate {α : Type} {n : Nat} {f : Nat → α} {x : α} :
    x ∈ (tabulate n f).toList ↔ ∃ i, i < n ∧ f i = x := by simp [tabulate, Vector.toList]

/-- What a command leaves in scratch fits the widths of the registers. -/
theorem forgetScratch_widthsOk (s : State) : (forgetScratch s).WidthsOk := by
  constructor <;>
    simp only [forgetScratch_ipos, forgetScratch_opos, forgetScratch_pk, forgetScratch_re, forgetScratch_he,
      forgetScratch_hd, forgetScratch_cfg, freePacker, freeRleEncUnit, freeHufEncUnit, freeHufDecUnit, mem_tabulate,
      freeReg_lt, freeBits_length_le, and_self]
  all_goals
    rintro _ ⟨i, -, rfl⟩
    first | exact freeReg_lt .. | exact freeBits_length_le .. | exact ⟨freeReg_lt .., freeReg_lt .., freeReg_lt ..⟩

end Sys2Proof.Machine
end

