-- ==== Sys2Proof/Laws/PerInstr.lean ====
section
/-! SUPPORT. Families of facts proved one instruction at a time. -/

namespace Sys2Proof.Laws.EncodedSize

/-- The size the encoding tables give an instruction: a command word is 64 bits (30_encoding.md R91), a Repeat group 2
octets (R97), a Literal group `1 + k` (R99), a table entry `2 + ceil8(L)` (R104). -/
def tableSize : Instr → Nat
  | .clr => 8
  | .rleEnc => 8
  | .rleDec => 8
  | .hufEnc => 8
  | .hufDec => 8
  | .rleRepeat _ _ => 2
  | .rleLiteral n _ => 1 + (n.toNat + 1)
  | .hufEntry len _ _ => 2 + ceil8 len.toNat

/-- A well-formed instruction encodes in the size its table gives. -/
def Statement (i : Instr) : Prop := i.WellFormed → (encode i).size = tableSize i

theorem clr : Statement .clr := fun _ => rfl

theorem rleEnc : Statement .rleEnc := fun _ => rfl

theorem rleDec : Statement .rleDec := fun _ => rfl

theorem hufEnc : Statement .hufEnc := fun _ => rfl

theorem hufDec : Statement .hufDec := fun _ => rfl

theorem rleRepeat (n : BitVec 7) (sym : Byte) : Statement (.rleRepeat n sym) := fun _ => rfl

theorem rleLiteral (n : BitVec 7) (syms : List Byte) : Statement (.rleLiteral n syms) := by
  intro h
  have h : syms.length = n.toNat + 1 := by simpa [Instr.WellFormed, Instr.wellFormed] using h
  simp [encode, Code.size, tableSize, h]
  omega

theorem hufEntry (len sym : Byte) (code : List Byte) : Statement (.hufEntry len sym code) := by
  intro h
  have h : len ≠ 0 ∧ code.length = ceil8 len.toNat := by simpa [Instr.WellFormed, Instr.wellFormed] using h
  simp [encode, Code.size, tableSize, h.2]
  omega

end Sys2Proof.Laws.EncodedSize
end

