-- ==== Sys2Proof/Tests/Slice0.lean ====
section
/-! SUPPORT. Tests. Expected values come from the spec: the encoding tables of 30_encoding.md, the worked examples of the
rules and the vectors of 95_test_vectors.md, named beside each test. The `hyps_` theorems show, for each statement with
hypotheses, concrete data that meet them, at a boundary where there is one. -/

namespace Sys2Proof.Tests

open Sys2Proof Sys2Proof.Machine

-- One test at a time: each thread that checks one reserves its own stack, and together they pass the memory limit.
set_option Elab.async false

/-- A machine in BUSY at P_CHECK with opcode `op` and the input `octets`. -/
def busyWith (op : BitVec 3) (octets : List Byte) (c : Config) : State :=
  { State.resetWith c with
    runState := .busy, op := op, phase := .check, ilen := BitVec.ofNat 64 octets.length,
    ibuf := Memory.insertAll [] 0 octets }

/-- A machine that holds the one-octet result `07`. -/
def doneSmall : State := { State.reset with runState := .done, olen := 1, obuf := [(0, 7)] }

/-- `s` with host actions to come. -/
def withPort (s : State) (es : List PortEvent) : State := { s with port := es }

/-- What a step shows a host: STATUS and the result. -/
def observed : Host.Outcome State Fault Refusal → Option (Word × List Byte)
  | .next s => some (statusWord s, s.result)
  | _ => none

/-- What a step returns to the host. -/
def replied : Host.Outcome State Fault Refusal → Option Reply
  | .next s => some s.reply
  | _ => none

/-- The parameters of most tests. -/
def roomy : Config := ⟨64, 64⟩

/-! ### Well-formedness -/

/-- R99: `N = 2` wants three symbols. -/
theorem test_literal_with_two_symbols_refused : (Instr.rleLiteral 2 [0x41, 0x42]).wellFormed = false := by decide

theorem test_literal_with_three_symbols_accepted : (Instr.rleLiteral 2 [0x41, 0x42, 0x43]).wellFormed = true := by decide

/-- R107: `L = 0` is reserved. -/
theorem test_entry_of_length_zero_refused : (Instr.hufEntry 0 0x41 []).wellFormed = false := by decide

/-- R104: nine bits take two octets. -/
theorem test_entry_with_one_octet_for_nine_bits_refused : (Instr.hufEntry 9 0x41 [0xAA]).wellFormed = false := by decide

theorem test_entry_with_two_octets_for_nine_bits_accepted :
    (Instr.hufEntry 9 0x41 [0xAA, 0x80]).wellFormed = true := by decide

/-! ### Decoding, one word a constructor, bit by bit from R90, R92, R97, R99, R104 -/

theorem test_decode_clr : decode (.command 0b000) = .ok (.clr, []) := by decide

theorem test_decode_rleEnc : decode (.command 0b001) = .ok (.rleEnc, []) := by decide

theorem test_decode_rleDec : decode (.command 0b010) = .ok (.rleDec, []) := by decide

theorem test_decode_hufEnc : decode (.command 0b011) = .ok (.hufEnc, []) := by decide

theorem test_decode_hufDec : decode (.command 0b100) = .ok (.hufDec, []) := by decide

/-- R97: `82 AA` is count 4 of `AA`, stored 2. -/
theorem test_decode_rleRepeat : decode (.group [0b10000010, 0xAA]) = .ok (.rleRepeat 0b0000010 0xAA, []) := by decide

/-- R99: `02 41 42 43`. -/
theorem test_decode_rleLiteral :
    decode (.group [0b00000010, 0x41, 0x42, 0x43, 0x80]) = .ok (.rleLiteral 0b0000010 [0x41, 0x42, 0x43], [0x80]) := by
  decide

/-- R225 (l): nine bits in two octets, whatever the unused bits. -/
theorem test_decode_hufEntry :
    decode (.entry [0b00001001, 0x41, 0xAA, 0xFF]) = .ok (.hufEntry 9 0x41 [0xAA, 0xFF], []) := by decide

/-- R93, vector P4: bit 3 set. -/
theorem test_reserved_words :
    decodeCommand 5 = .error .reservedCommand ∧ decodeCommand 0x0B = .error .reservedCommand ∧
    decodeCommand 0x8000000000000001 = .error .reservedCommand := by decide

/-- R159, R216, R215. -/
theorem test_rejected_streams :
    decodeGroup [0x82] = .error .truncatedGroup ∧ decodeGroup [0x02, 0x41, 0x42] = .error .truncatedGroup ∧
    decodeEntry [0x00, 0x41] = .error .zeroLength ∧ decodeEntry [0x09, 0x41, 0x00] = .error .truncatedEntry := by decide

/-- The opcode table's numbering: command words of 64 bits, service octets of 8, an entry's two header octets of 16. -/
theorem test_table_words :
    decodeTableWord 64 3 = some .hufEnc ∧ decodeTableWord 64 5 = none ∧
    decodeTableWord 8 0x80 = some (.rleRepeat 0 0) ∧ decodeTableWord 8 0x00 = some (.rleLiteral 0 [0]) ∧
    decodeTableWord 16 0x4101 = some (.hufEntry 1 0x41 [0]) := by decide +kernel

/-! ### One step on a small machine -/

/-- 40_bitio.md R133: 23 bits pack to `6E 8A DC`; R136: `PutBE(768, 4)`. -/
theorem test_primitives :
    pack [false, true, true, false, true, true, true, false, true, false, false, false, true, false, true, false, true,
      true, false, true, true, true, false] = [0x6E, 0x8A, 0xDC] ∧
    putBE 768 4 = [0x00, 0x00, 0x03, 0x00] ∧
    getBE [0x04, 0, 0, 0, 0, 0, 0, 0] 0 8 = 288230376151711744 := by decide +kernel

/-- R246: after a failed command, `STATUS` and `OLEN` are 0. -/
theorem test_clr :
    observed (exec .clr { State.reset with runState := .error, errKind := some .malformedStream }) = some (0, []) := by
  decide +kernel

/-- Vector E9: the pull-back leaves a two-symbol Literal. -/
theorem test_rleEnc_pull_back :
    observed (step (busyWith 1 [0x41, 0x42, 0x43, 0x43, 0x43, 0x44] roomy)) =
      some (0x02, [0x01, 0x41, 0x42, 0x81, 0x43, 0x00, 0x44]) := by decide +kernel

/-- Vector E27, with its runs at the 129 boundary. -/
theorem test_rleEnc_closed_repeat :
    observed (step (busyWith 1 (List.replicate 130 0x55 ++ [0x66]) ⟨200, 5⟩)) =
      some (0x02, [0xFF, 0x55, 0x01, 0x55, 0x66]) := by decide +kernel

/-- Vector X10: a Literal may hold equal neighbours. -/
theorem test_rleDec_literal : observed (step (busyWith 2 [0x01, 0x41, 0x41] roomy)) = some (0x02, [0x41, 0x41]) := by
  decide +kernel

/-- Vector X15: the overflow is met before the truncated group. -/
theorem test_rleDec_overflow_first :
    observed (step (busyWith 2 [0x82, 0x41, 0x80, 0x41, 0x82] ⟨64, 4⟩)) = some (0x53, []) := by decide +kernel

/-- Vector H5: the lighter leaf is popped first and goes left. -/
theorem test_hufEnc_two_symbols :
    observed (step (busyWith 3 [0x41, 0x41, 0x42] roomy)) =
      some (0x02, [0, 0, 0, 0, 0, 0, 0, 3, 0, 0, 0, 6, 0x01, 0x41, 0x80, 0x01, 0x42, 0x00, 0xC0]) := by decide +kernel

/-- R225 (l): a nine-bit code. -/
theorem test_hufDec_nine_bits :
    observed (step (busyWith 4 [0, 0, 0, 0, 0, 0, 0, 9, 0, 0, 0, 4, 0x09, 0x41, 0xAA, 0xFF, 0xAA, 0x80] roomy)) =
      some (0x02, [0x41]) := by decide +kernel

/-- Vector Y12: unused bits are dropped before codes are compared. -/
theorem test_hufDec_duplicate_code :
    observed (step (busyWith 4 [0, 0, 0, 0, 0, 0, 0, 1, 0, 0, 0, 6, 1, 0x41, 0x00, 1, 0x42, 0x7F, 0x00] roomy)) =
      some (0x23, []) := by decide +kernel

/-- R97: `83 07` is five copies. -/
theorem test_rleRepeat :
    (match exec (.rleRepeat 3 7) State.reset with
      | .next t => (t.opos, t.ipos, t.obuf.map Prod.snd)
      | _ => (0, 0, [])) = (5, 2, [7, 7, 7, 7, 7]) := by decide +kernel

/-- R99. -/
theorem test_rleLiteral :
    (match exec (.rleLiteral 1 [8, 9]) State.reset with
      | .next t => (t.opos, t.ipos, t.obuf.map Prod.snd)
      | _ => (0, 0, [])) = (2, 3, [8, 9]) := by decide +kernel

/-- R216: entries `03 42 C0` and `03 42 DF` both give the code "110". -/
theorem test_hufEntry :
    (match exec (.hufEntry 3 0x42 [0xDF]) State.reset with
      | .next t => (t.hd.dlen.toList.getD 0x42 0, t.hd.dbits.toList.getD 0x42 [], t.hd.tpos)
      | _ => (0, [], 0)) = (3, [true, true, false], 3) := by decide +kernel

/-- Vectors P3 and P4. -/
theorem test_reserved_command_status :
    observed (step (withPort State.reset [.writeReg 0 5])) = some (0x63, []) ∧
    observed (step (withPort State.reset [.writeReg 0 0x0B])) = some (0x63, []) := by decide +kernel

/-- Vectors P2 and P5. -/
theorem test_host_reads :
    replied (step (withPort State.reset [.readReg 4])) = some (.word 0x100000) ∧
    replied (step (withPort State.reset [.readOctet .tagHuf 6])) = some (.octet 0x61) := by decide +kernel

/-- After reset the placed instruction is the one that runs (log 1; 70_reset_and_hazards.md R291 for the commands). -/
theorem test_placed_instructions_run :
    observed (step (State.reset.withFetchWord 64 0)) = some (0x00, []) ∧
    observed (step (State.reset.withFetchWord 64 1)) = some (0x13, []) ∧
    observed (step (State.reset.withFetchWord 64 2)) = some (0x02, []) ∧
    observed (step (State.reset.withFetchWord 64 3)) = some (0x13, []) ∧
    observed (step (State.reset.withFetchWord 64 4)) = some (0x23, []) := by decide +kernel

theorem test_placed_stream_instructions_fetched :
    fetch (State.reset.withFetchWord 8 0x80) = .run (.rleRepeat 0 0) ∧
    fetch (State.reset.withFetchWord 8 0x01) = .run (.rleLiteral 1 [0, 0]) ∧
    fetch (State.reset.withFetchWord 16 0x4101) = .run (.hufEntry 1 0x41 [0]) := by decide +kernel

/-! ### The hypotheses of the statements can be met -/

theorem hyps_DecodeReadsBackEveryEncoding :
    (Instr.rleLiteral 127 (List.replicate 128 5)).WellFormed ∧
    ∀ w, encode (.rleLiteral 127 (List.replicate 128 5)) ≠ .command w :=
  ⟨by decide +kernel, fun _ h => nomatch h⟩

theorem hyps_DecodedFormsEncodeBack :
    decode (.entry [0x09, 0x41, 0xAA, 0xFF, 0x07]) = .ok (.hufEntry 9 0x41 [0xAA, 0xFF], [0x07]) := by decide

theorem hyps_EveryServiceOctetOpensAGroup :
    ((0x7F : Byte).toNat < 128 ∧ (List.replicate 128 (5 : Byte)).length = (0x7F : Byte).toNat + 1) ∧
    128 ≤ (0x80 : Byte).toNat ∧ decodeGroup [0x7F] = .error .truncatedGroup := by decide +kernel

theorem hyps_PackerAppendsThePackedOctets : 0 < ceil8 [true].length ∧ 7 < 8 := by decide

theorem hyps_UnpackInvertsPack : 8 ≤ 8 * [(0xA0 : Byte)].length ∧ 0 < 8 ∧ 0 < ceil8 8 ∧ 7 < 8 := by decide

theorem hyps_FieldsReadBackBigEndian :
    0 < 8 ∧ 1 + 2 ≤ [(1 : Byte), 2, 3].length ∧ 2 ^ 64 - 1 < 256 ^ 8 := by decide

theorem hyps_ResetLeavesTheStatedValues :
    (withPort (busyWith 1 [5] roomy) [.reset]).port = .reset :: [] := rfl

theorem hyps_ResetMeetsTheInvariant : (⟨2 ^ 56 - 1, 2 ^ 63 - 1⟩ : Config).Valid ∧ (⟨1, 1⟩ : Config).Valid := by decide

theorem doneSmall_inv : doneSmall.Inv :=
  ⟨by decide, by decide, by decide, by decide, by decide, by decide, by decide⟩

/-- A machine at rest in BUSY. -/
def busySmall : State := busyWith 1 [0x41] roomy

theorem busySmall_inv : busySmall.Inv :=
  ⟨by decide, by decide, by decide, by decide, by decide, by decide, by decide⟩

theorem withPort_inv {s : State} (h : s.Inv) (es : List PortEvent) : (withPort s es).Inv :=
  ⟨h.valid, h.status, h.op, h.phase, h.result, h.olen, h.buffers⟩

theorem hyps_StatusWordLayout :
    doneSmall.Inv ∧ (withPort State.reset [.readReg 1]).port = .readReg 1 :: [] ∧
    (withPort State.reset [.writeReg 1 9]).port = .writeReg 1 9 :: [] := ⟨doneSmall_inv, rfl, rfl⟩

theorem hyps_HostRegisterAccess :
    (∀ n, n < 8 → (withPort busySmall [.readReg n]).port = .readReg n :: [] ∧
      (withPort busySmall [.writeReg n 7]).port = .writeReg n 7 :: []) ∧
    busySmall.runState = .busy ∧ doneSmall.runState ≠ .busy ∧ decodeCommand 1 = .ok .rleEnc ∧
    decodeCommand 7 = .error .reservedCommand :=
  ⟨fun _ _ => ⟨rfl, rfl⟩, by decide, by decide, by decide, by decide⟩

theorem hyps_HostInputBufferAccess :
    (withPort doneSmall [.writeOctet .ibuf 63 7]).port = .writeOctet .ibuf 63 7 :: [] ∧
    63 < (State.resetWith roomy).cfg.nMax ∧ doneSmall.runState ≠ .busy ∧ 0 ≠ 63 ∧
    (withPort busySmall [.readOctet .ibuf 63]).port = .readOctet .ibuf 63 :: [] ∧ 63 < busySmall.cfg.nMax :=
  ⟨rfl, by decide, by decide, by decide, rfl, by decide⟩

theorem hyps_HostOutputBufferAccess :
    (withPort doneSmall [.readOctet .obuf 0]).port = .readOctet .obuf 0 :: [] ∧ doneSmall.runState ≠ .busy ∧
    (withPort doneSmall [.writeOctet .obuf (2 ^ 20 - 1) 7]).port = .writeOctet .obuf (2 ^ 20 - 1) 7 :: [] ∧
    0 < doneSmall.cfg.mMax ∧ 2 ^ 20 - 1 < doneSmall.cfg.mMax :=
  ⟨rfl, by decide, rfl, by decide, by decide⟩

theorem hyps_TagRomsReadTheIdentifiers :
    (withPort busySmall [.readOctet .tagRle 7]).port = .readOctet .tagRle 7 :: [] ∧ 7 < 8 ∧
    (withPort busySmall [.readOctet .tagHuf 11]).port = .readOctet .tagHuf 11 :: [] ∧ 11 < 12 ∧
    (withPort busySmall [.writeOctet .tagHuf 11 0]).port = .writeOctet .tagHuf 11 0 :: [] ∧
    (withPort busySmall [.writeOctet .tagRle 7 0]).port = .writeOctet .tagRle 7 0 :: [] :=
  ⟨rfl, by decide, rfl, by decide, rfl, rfl⟩

/-- One witness a clause: the first index past each space. -/
theorem hyps_MissingIndexIsNoAction :
    (withPort busySmall [.readReg 8]).port = .readReg 8 :: [] ∧
    (withPort busySmall [.writeReg 8 0]).port = .writeReg 8 0 :: [] ∧ 7 < 8 ∧
    (withPort busySmall [.readOctet .ibuf 64]).port = .readOctet .ibuf 64 :: [] ∧
    (withPort busySmall [.writeOctet .ibuf 64 0]).port = .writeOctet .ibuf 64 0 :: [] ∧ busySmall.cfg.nMax ≤ 64 ∧
    (withPort busySmall [.readOctet .obuf 64]).port = .readOctet .obuf 64 :: [] ∧
    (withPort busySmall [.writeOctet .obuf 64 0]).port = .writeOctet .obuf 64 0 :: [] ∧ busySmall.cfg.mMax ≤ 64 ∧
    (withPort busySmall [.readOctet .tagRle 8]).port = .readOctet .tagRle 8 :: [] ∧
    (withPort busySmall [.writeOctet .tagRle 8 0]).port = .writeOctet .tagRle 8 0 :: [] ∧ 8 ≤ 8 ∧
    (withPort busySmall [.readOctet .tagHuf 12]).port = .readOctet .tagHuf 12 :: [] ∧
    (withPort busySmall [.writeOctet .tagHuf 12 0]).port = .writeOctet .tagHuf 12 0 :: [] ∧ 12 ≤ 12 :=
  ⟨rfl, rfl, by decide, rfl, rfl, by decide, rfl, rfl, by decide, rfl, rfl, by decide, rfl, rfl, by decide⟩

/-- One machine for every clause: the event is free, the indices at the ends of their spaces. -/
theorem hyps_BusyWindowIgnoresWrites :
    (∀ e, (withPort busySmall [e]).port = e :: []) ∧ busySmall.runState = .busy ∧
    (∀ e, (withPort busySmall [e]).Inv) ∧ 7 < 8 ∧ 63 < busySmall.cfg.nMax ∧ 63 < busySmall.cfg.mMax ∧ 11 < 12 :=
  ⟨fun _ => rfl, rfl, fun e => withPort_inv busySmall_inv [e], by decide, by decide, by decide, by decide⟩

theorem hyps_ResultLastsUntilTheNextCommand :
    (withPort doneSmall [.writeReg 2 9]).port = .writeReg 2 9 :: [] ∧ doneSmall.runState = .done ∧
    (∀ v, PortEvent.writeReg 2 9 ≠ .writeReg 0 v) ∧ PortEvent.writeReg 2 9 ≠ .reset ∧
    ∃ t, step (withPort doneSmall [.writeReg 2 9]) = .next t :=
  ⟨rfl, rfl, fun v h => absurd (PortEvent.writeReg.inj h).1 (by decide), by decide, _, rfl⟩

theorem hyps_ClrReturnsToIdle : doneSmall.runState ≠ .busy ∧ busySmall.runState = .busy := by decide

theorem hyps_CodecCommandIsIssued :
    doneSmall.runState ≠ .busy ∧
    (Instr.hufDec, (4 : BitVec 3)) ∈ [(Instr.rleEnc, (1 : BitVec 3)), (.rleDec, 2), (.hufEnc, 3), (.hufDec, 4)] := by
  decide

theorem hyps_ReservedWordIsBadCommand :
    (withPort doneSmall [.writeReg 0 5]).port = .writeReg 0 5 :: [] ∧ doneSmall.runState ≠ .busy ∧
    5 ≤ ((5 : Word).extractLsb' 0 3).toNat ∧ (8 : Word).extractLsb' 3 61 ≠ 0 := ⟨rfl, by decide, by decide, by decide⟩

theorem hyps_StepRunsTheCommand :
    ((withPort doneSmall [.writeReg 0 4]).port = .writeReg 0 4 :: [] ∧ doneSmall.runState ≠ .busy ∧
      decodeCommand 4 = .ok .hufDec) ∧
    (busySmall.port = [] ∧ busySmall.runState = .busy ∧ busySmall.phase = .check ∧
      opInstr busySmall.op = some .rleEnc) ∧
    (withPort busySmall [.turn]).port = .turn :: [] := ⟨⟨rfl, by decide, by decide⟩, ⟨rfl, rfl, rfl, rfl⟩, rfl⟩

/-- A machine inside RLE_DEC, at the last group of its input. -/
def atGroup (octets : List Byte) : State := { busyWith 2 octets roomy with phase := .rleD }

/-- A machine inside HUF_DEC, at the first entry of a table of `n` octets. -/
def atEntry (n : Nat) (octets : List Byte) : State :=
  { busyWith 4 (List.replicate 12 0 ++ octets) roomy with
    phase := .hDtab, hd := { HufDecUnit.zero with tpos := 12, hT := BitVec.ofNat 32 n } }

/-- Both outcomes of both clauses. -/
theorem hyps_StepRunsTheStreamInstruction :
    ((atGroup [0x80, 7]).port = [] ∧ (atGroup [0x80, 7]).runState = .busy ∧ (atGroup [0x80, 7]).phase = .rleD ∧
      (atGroup [0x80, 7]).ipos < (atGroup [0x80, 7]).ilen.toNat ∧
      decodeGroup (ibufOctets (atGroup [0x80, 7]) 0 2) = .ok (.rleRepeat 0 7, []) ∧
      decodeGroup (ibufOctets (atGroup [0x80]) 0 1) = .error .truncatedGroup) ∧
    ((atEntry 3 [1, 0x41, 0]).port = [] ∧ (atEntry 3 [1, 0x41, 0]).phase = .hDtab ∧
      (atEntry 3 [1, 0x41, 0]).hd.tpos < tableEnd (atEntry 3 [1, 0x41, 0]) ∧
      decodeEntry (ibufOctets (atEntry 3 [1, 0x41, 0]) 12 3) = .ok (.hufEntry 1 0x41 [0], []) ∧
      decodeEntry (ibufOctets (atEntry 2 [1, 0x41, 0]) 12 2) = .error .truncatedEntry) := by decide +kernel

theorem hyps_SequencerWaitsOutsideBusy :
    doneSmall.runState ≠ .busy ∧ doneSmall.port = [] ∧ (withPort doneSmall [.turn]).port = .turn :: [] :=
  ⟨by decide, rfl, rfl⟩

theorem hyps_ExecuteAlwaysEnds : busySmall.Inv ∧ busySmall.runState = .busy ∧ busySmall.port = [] :=
  ⟨busySmall_inv, rfl, rfl⟩

theorem hyps_WrittenCommandEndsInTwoSteps :
    (withPort doneSmall [.writeReg 0 3]).port = [.writeReg 0 3] ∧ doneSmall.runState ≠ .busy ∧
    decodeCommand 3 = .ok .hufEnc ∧ Instr.hufEnc ≠ .clr := ⟨rfl, by decide, by decide, by decide⟩

/-- One state for each row of the table of R248. -/
theorem hyps_StateTransitionsAreTheTable :
    (∀ e, (withPort busySmall [e]).Inv) ∧ (∀ e, (withPort doneSmall [e]).Inv) ∧ busySmall.Inv ∧ doneSmall.Inv ∧
    (∃ t, step (withPort busySmall [.reset]) = .next t) ∧ (∃ t, step (withPort busySmall [.writeReg 0 0]) = .next t) ∧
    (∃ t, step (withPort doneSmall [.writeReg 0 0]) = .next t) ∧ (∃ t, step (withPort doneSmall [.writeReg 0 1]) = .next t) ∧
    (∃ t, step (withPort doneSmall [.writeReg 0 5]) = .next t) ∧ (∃ t, step busySmall = .next t) ∧
    (∃ t, step doneSmall = .next t) ∧ ∃ t, step (withPort doneSmall [.readReg 1]) = .next t :=
  ⟨fun e => withPort_inv busySmall_inv [e], fun e => withPort_inv doneSmall_inv [e], busySmall_inv, doneSmall_inv,
    ⟨_, rfl⟩, ⟨_, rfl⟩, ⟨_, rfl⟩, ⟨_, rfl⟩, ⟨_, rfl⟩, ⟨_, rfl⟩, ⟨_, rfl⟩, ⟨_, rfl⟩⟩

theorem hyps_NoInstructionWritesTheInput :
    (∃ t, exec .hufDec busySmall = .next t) ∧ (∃ t, exec (.rleRepeat 1 2) busySmall = .next t) ∧
    ∃ t, exec (.hufEntry 1 2 [3]) busySmall = .next t := ⟨⟨_, rfl⟩, ⟨_, rfl⟩, ⟨_, rfl⟩⟩

/-- Two machines that differ in OBUF, in a scratch register and past the input. -/
theorem hyps_OutcomeDependsOnTheInputAlone :
    let u := { busySmall with obuf := [(0, 9)], pk := ⟨7, 3⟩, ibuf := [(0, 0x41), (1, 0x42)] }
    busySmall.runState = .busy ∧ u.runState = .busy ∧ busySmall.cfg.Valid ∧ busySmall.cfg = u.cfg ∧
    busySmall.ilen = u.ilen ∧ (∀ a, a < busySmall.ilen.toNat → readIbuf busySmall a = readIbuf u a) ∧
    Instr.hufEnc ∈ [Instr.rleEnc, .rleDec, .hufEnc, .hufDec] := by decide

theorem hyps_StepKeepsTheInvariant : busySmall.Inv ∧ ∃ t, step busySmall = .next t := ⟨busySmall_inv, _, rfl⟩

theorem hyps_OnlyMissingIndicesStop :
    (withPort busySmall [.readReg 8]).Inv ∧ step (withPort busySmall [.readReg 8]) = .refused .noSuchIndex :=
  ⟨withPort_inv busySmall_inv _, rfl⟩

/-- The stream of four equal symbols fills OBUF exactly; two octets of room are one too few for `41 42`. -/
theorem hyps_RleEncGivesTheRuns :
    let s := busyWith 1 [0xAA, 0xAA, 0xAA, 0xAA] ⟨4, 2⟩
    s.runState = .busy ∧ s.cfg.Valid ∧ s.ilen ≠ 0 ∧ s.ilen.toNat ≤ s.cfg.nMax ∧
    (rleStream s.input).length ≤ s.cfg.mMax := by decide +kernel

theorem hyps_RleEncErrors :
    let long := busyWith 1 [1, 2] ⟨1, 9⟩
    let none := busyWith 1 [] ⟨1, 9⟩
    let big := busyWith 1 [0x41, 0x42] ⟨2, 2⟩
    (long.runState = .busy ∧ long.cfg.nMax < long.ilen.toNat) ∧ (none.runState = .busy ∧ none.ilen = 0) ∧
    (big.runState = .busy ∧ big.ilen ≠ 0 ∧ big.ilen.toNat ≤ big.cfg.nMax ∧
      big.cfg.mMax < (rleStream big.input).length) := by decide +kernel

theorem hyps_RunsAreMaximalAndExpandBack :
    runs [0x41, 0x41, 0x42] = [.rep 0x41 2, .lit [0x42]] := by decide +kernel

theorem hyps_RleDecExpandsEveryGroupStream :
    let s := busyWith 2 [0x82, 0xAA, 0x00, 0x41] ⟨4, 5⟩
    let rs := [Run.rep 0xAA 4, .lit [0x41]]
    s.runState = .busy ∧ s.cfg.Valid ∧ s.ilen.toNat ≤ s.cfg.nMax ∧ (∀ r ∈ rs, r.inRange = true) ∧
    s.input = rs.flatMap Run.octets ∧ (rs.flatMap Run.symbols).length ≤ s.cfg.mMax := by decide +kernel

theorem hyps_RleDecComputesItsFunction :
    (busyWith 2 [0x82] roomy).runState = .busy ∧ (busyWith 2 [0x82] roomy).cfg.Valid ∧
    outcomeOf rleDecFn (busyWith 2 [0x82] roomy) = .error .malformedStream ∧
    outcomeOf rleDecFn (busyWith 2 [] roomy) = .ok [] := by decide +kernel

theorem hyps_RleDecMalformedExactlyOnTruncation :
    let s := busyWith 2 [0x81, 0x41] ⟨2, 258⟩
    s.runState = .busy ∧ s.cfg.Valid ∧ s.ilen.toNat ≤ s.cfg.nMax ∧ 129 * s.ilen.toNat ≤ s.cfg.mMax ∧
    s.input = [Run.rep 0x41 3].flatMap Run.octets := by decide +kernel

theorem hyps_RleRoundTrip :
    let s := busyWith 1 [7, 7, 7] ⟨3, 2⟩
    let u := busyWith 2 [0x81, 7] ⟨2, 3⟩
    ∃ t, exec .rleEnc s = .next t ∧ s.runState = .busy ∧ s.cfg.Valid ∧ t.runState = .done ∧ u.runState = .busy ∧
      u.cfg.Valid ∧ u.input = t.result ∧ u.ilen.toNat ≤ u.cfg.nMax ∧ s.ilen.toNat ≤ u.cfg.mMax :=
  ⟨_, rfl, by decide +kernel⟩

theorem hyps_GroupByGroupIsRleDec :
    let s := busyWith 2 [0x80, 7] ⟨2, 2⟩
    s.runState = .busy ∧ s.phase = .check ∧ s.port = [] ∧ s.ilen.toNat ≤ s.cfg.nMax := by decide

/-- The longest group fits exactly, or lacks one octet of room. -/
theorem hyps_RepeatGroupAppendsCopies :
    { State.resetWith ⟨9, 130⟩ with opos := 1 }.opos + ((127 : BitVec 7).toNat + 2) ≤ 130 ∧ 130 < 2 + ((127 : BitVec 7).toNat + 2) := by
  decide

theorem hyps_LiteralGroupCopiesItsSymbols :
    [(8 : Byte), 9].length = (1 : BitVec 7).toNat + 1 ∧
    (State.resetWith ⟨9, 2⟩).opos + ((1 : BitVec 7).toNat + 1) ≤ (State.resetWith ⟨9, 2⟩).cfg.mMax := by decide

theorem hyps_GroupPastCapacityRaises :
    (State.resetWith ⟨9, 1⟩).cfg.mMax < (State.resetWith ⟨9, 1⟩).opos + ((0 : BitVec 7).toNat + 2) ∧
    ([(8 : Byte), 9].length = (1 : BitVec 7).toNat + 1 ∧
      (State.resetWith ⟨9, 1⟩).cfg.mMax < (State.resetWith ⟨9, 1⟩).opos + ((1 : BitVec 7).toNat + 1)) ∧
    [(8 : Byte)].length ≠ (1 : BitVec 7).toNat + 1 := by decide

/-- Vector H12: the container fills OBUF exactly. -/
theorem hyps_HufEncBuildsTheContainer :
    let s := busyWith 3 [0x41, 0x41, 0x41, 0x41] ⟨4, 16⟩
    s.runState = .busy ∧ s.cfg.Valid ∧
    outcomeOf hufEncFn s = .ok [0, 0, 0, 0, 0, 0, 0, 4, 0, 0, 0, 3, 1, 0x41, 0, 0] := by decide +kernel

/-- Vectors P8, H1 and H11. -/
theorem hyps_HufEncErrors :
    let long := busyWith 3 [1, 2] ⟨1, 99⟩
    let none := busyWith 3 [] ⟨1, 99⟩
    let big := busyWith 3 [0x41, 0x41, 0x41, 0x41] ⟨4, 15⟩
    (long.runState = .busy ∧ long.cfg.nMax < long.ilen.toNat) ∧ (none.runState = .busy ∧ none.ilen = 0) ∧
    (big.runState = .busy ∧ outcomeOf hufEncFn big = .error .capacityExceeded) := by decide +kernel

theorem hyps_HufEncNeverRaisesTheInternalErrors :
    busySmall.runState = .busy ∧ ∃ t, exec .hufEnc busySmall = .next t := ⟨rfl, _, rfl⟩

theorem hyps_HufEncOfOneSymbol :
    let s := busyWith 3 [0x7A] ⟨1, 16⟩
    s.runState = .busy ∧ s.cfg.Valid ∧ s.ilen ≠ 0 ∧ s.ilen.toNat ≤ s.cfg.nMax ∧
    s.input = List.replicate s.ilen.toNat 0x7A ∧ 15 + ceil8 s.ilen.toNat ≤ s.cfg.mMax := by decide +kernel

/-- Vector H5's tree. -/
theorem hyps_CodesFormAPrefixCode :
    huffTree [0x41, 0x41, 0x42] = some (.branch 3 (.leaf 1 0x42) (.leaf 2 0x41)) := by decide +kernel

/-- The container of four `41` (95_test_vectors.md S4). -/
def fourA : List Byte := [0, 0, 0, 0, 0, 0, 0, 4, 0, 0, 0, 3, 1, 0x41, 0, 0]

theorem hyps_HufDecDecodesTheContainer :
    let s := busyWith 4 fourA ⟨16, 4⟩
    s.runState = .busy ∧ s.cfg.Valid ∧ outcomeOf hufDecFn s = .ok [0x41, 0x41, 0x41, 0x41] := by decide +kernel

/-- Vectors Y19 and Y1, and a table one octet longer than the buffer. -/
theorem hyps_HufDecErrors :
    let full := busyWith 4 fourA ⟨16, 3⟩
    let short := busyWith 4 (List.replicate 11 0) ⟨16, 3⟩
    let table := busyWith 4 [0, 0, 0, 0, 0, 0, 0, 4, 0, 0, 0, 1] ⟨16, 3⟩
    (full.runState = .busy ∧ outcomeOf hufDecFn full = .error .capacityExceeded) ∧
    (short.runState = .busy ∧ short.ilen.toNat ≤ short.cfg.nMax ∧ short.ilen.toNat < 12) ∧
    (table.runState = .busy ∧ table.ilen.toNat ≤ table.cfg.nMax ∧ 12 ≤ table.ilen.toNat ∧
      table.ilen.toNat < 12 + getBE table.input 8 4) := by decide +kernel

/-- R225 (a) and (c): non-zero padding and an octet more. -/
theorem hyps_HufDecIgnoresPaddingAndTail :
    let s := busyWith 4 fourA roomy
    let u := busyWith 4 [0, 0, 0, 0, 0, 0, 0, 4, 0, 0, 0, 3, 1, 0x41, 0, 0x0F, 0xFF] roomy
    s.runState = .busy ∧ u.runState = .busy ∧ s.cfg.Valid ∧ s.cfg = u.cfg ∧ s.ilen.toNat ≤ s.cfg.nMax ∧
    u.ilen.toNat ≤ u.cfg.nMax ∧ 12 ≤ s.ilen.toNat ∧ getBE s.input 0 8 = 4 ∧ 12 + getBE s.input 8 4 = 15 ∧
    15 + ceil8 4 ≤ s.ilen.toNat ∧ 15 + ceil8 4 ≤ u.ilen.toNat ∧ u.input.take 15 = s.input.take 15 ∧
    unpack (u.input.drop 15) 4 = unpack (s.input.drop 15) 4 := by decide +kernel

theorem hyps_EntryRecordsItsCode :
    (255 : Byte) ≠ 0 ∧ (List.replicate 32 (5 : Byte)).length = ceil8 (255 : Byte).toNat ∧
    State.reset.hd.dlen.toList.getD (255 : Byte).toNat 0 = 0 ∧
    (∀ k, k < 256 → ¬ (State.reset.hd.dlen.toList.getD k 0 = (255 : Byte).toNat ∧
      State.reset.hd.dbits.toList.getD k [] = unpack (List.replicate 32 (5 : Byte)) (255 : Byte).toNat)) := by decide +kernel

/-- The table already holds `41` with code "0": a second `41`, and a second "0". -/
theorem hyps_RepeatedEntryRaises :
    let h := setEntry 1 0x41 [false] HufDecUnit.zero
    ((1 : Byte) ≠ 0 ∧ [(0x80 : Byte)].length = ceil8 (1 : Byte).toNat ∧ h.dlen.toList.getD (0x41 : Byte).toNat 0 ≠ 0) ∧
    (h.dlen.toList.getD 0x41 0 = (1 : Byte).toNat ∧ h.dbits.toList.getD 0x41 [] = unpack [(0x7F : Byte)] (1 : Byte).toNat) ∧
    ((0 : Byte) = 0 ∧ [(1 : Byte)].length ≠ ceil8 (9 : Byte).toNat) := by decide +kernel

theorem hyps_HufRoundTrip :
    let s := busyWith 3 [0x41, 0x41, 0x41, 0x41] ⟨4, 16⟩
    let u := busyWith 4 fourA ⟨16, 4⟩
    ∃ t, exec .hufEnc s = .next t ∧ s.runState = .busy ∧ s.cfg.Valid ∧ t.runState = .done ∧ u.runState = .busy ∧
      u.cfg.Valid ∧ u.input = t.result ∧ u.ilen.toNat ≤ u.cfg.nMax ∧ s.ilen.toNat ≤ u.cfg.mMax :=
  ⟨_, rfl, by decide +kernel⟩

theorem hyps_ResultLengthsAreBounded :
    (∃ t, exec .rleEnc busySmall = .next t ∧ t.runState = .done) ∧
    (∃ t, exec .rleDec (busyWith 2 [0x80, 7] roomy) = .next t ∧ t.runState = .done) ∧
    (∃ t, exec .hufEnc busySmall = .next t ∧ t.runState = .done) ∧
    (∃ t, exec .hufDec (busyWith 4 fourA roomy) = .next t ∧ t.runState = .done) ∧
    busySmall.runState = .busy ∧ busySmall.cfg.Valid :=
  ⟨⟨_, rfl, by decide +kernel⟩, ⟨_, rfl, by decide +kernel⟩, ⟨_, rfl, by decide +kernel⟩, ⟨_, rfl, by decide +kernel⟩,
    rfl, by decide⟩

/-- WEIGHT_W by R8's words: 2^20 needs 21 bits, 255 needs 8, 256 needs 9, 1 needs 1. -/
theorem test_weightWidth :
    Config.suggested.weightWidth = 21 ∧ (⟨255, 1⟩ : Config).weightWidth = 8 ∧ (⟨256, 1⟩ : Config).weightWidth = 9 ∧
    (⟨1, 1⟩ : Config).weightWidth = 1 := by decide +kernel

theorem busySmall_widths : busySmall.WidthsOk := by constructor <;> decide +kernel

theorem hyps_StepKeepsTheWidths : busySmall.Inv ∧ busySmall.WidthsOk ∧ ∃ t, step busySmall = .next t :=
  ⟨busySmall_inv, busySmall_widths, _, rfl⟩

theorem hyps_WeightsFitTheirWidth :
    let s := busyWith 3 [0x41, 0x42, 0x41] ⟨3, 64⟩
    s.ilen.toNat ≤ s.cfg.nMax ∧ (0 : Nat) < (buildTree (pushLeaves (frequencies s).he)).nNode := by decide +kernel

end Sys2Proof.Tests
end

section
/-! SUPPORT. The widths of the registers are kept by every step (00_scope.md R14): a step leaves the scratch registers as
they are, or a command ends and they become free values of their widths, or reset gives them zero. -/

namespace Sys2Proof.Machine

/-! ### The registers `State.WidthsOk` speaks of -/

/-- `t` has the parameters and the scratch registers and files of `s`. -/
structure SameScratch (s t : State) : Prop where
  cfg : t.cfg = s.cfg
  cursors : t.ipos = s.ipos ∧ t.opos = s.opos
  pk : t.pk = s.pk
  re : t.re = s.re
  he : t.he = s.he
  hd : t.hd = s.hd

theorem SameScratch.refl (s : State) : SameScratch s s := ⟨rfl, ⟨rfl, rfl⟩, rfl, rfl, rfl, rfl⟩

theorem SameScratch.widthsOk {s t : State} (h : SameScratch s t) (hs : s.WidthsOk) : t.WidthsOk := by
  obtain ⟨hcfg, ⟨hipos, hopos⟩, hpk, hre, hhe, hhd⟩ := h
  constructor <;> simp only [hcfg, hipos, hopos, hpk, hre, hhe, hhd]
  exacts [hs.cursors, hs.packer, hs.runs, hs.freq, hs.node, hs.counts, hs.path, hs.clen, hs.cbits, hs.totals, hs.table,
    hs.dlen, hs.dbits, hs.cur]

theorem forall_mem_replicate {α : Type} {P : α → Prop} {a : α} (n : Nat) (ha : P a) :
    ∀ x ∈ (Vector.replicate n a).toList, P x := by
  intro x hx
  rw [Vector.toList_replicate] at hx
  rw [List.eq_of_mem_replicate hx]
  exact ha

/-- The reset values of the scratch registers are zero, which fits every width (log 4). -/
theorem widthsOk_of_zero {s : State} (hipos : s.ipos = 0) (hopos : s.opos = 0) (hpk : s.pk = Packer.zero)
    (hre : s.re = RleEncUnit.zero) (hhe : s.he = HufEncUnit.zero) (hhd : s.hd = HufDecUnit.zero) : s.WidthsOk := by
  constructor <;> simp only [hipos, hopos, hpk, hre, hhe, hhd]
  case freq => exact forall_mem_replicate 256 (Nat.two_pow_pos _)
  case node => exact forall_mem_replicate 511 ⟨Nat.two_pow_pos _, by decide, by decide⟩
  case clen | dlen => exact forall_mem_replicate 256 (by decide)
  case cbits | dbits => exact forall_mem_replicate 256 (by decide)
  all_goals decide

theorem resetWith_widthsOk (c : Config) : (State.resetWith c).WidthsOk := widthsOk_of_zero rfl rfl rfl rfl rfl rfl

theorem resetFrom_widthsOk (s : State) : (resetFrom s).WidthsOk := widthsOk_of_zero rfl rfl rfl rfl rfl rfl

/-! ### The commands -/

theorem complete_widthsOk (s : State) (r : Except ErrorKind State) : (complete s r).WidthsOk := by
  obtain ⟨t, -, h⟩ | ⟨k, -, h⟩ := complete_cases s r
  · rw [h]; exact forgetScratch_widthsOk _
  · rw [h]; exact forgetScratch_widthsOk _

theorem issue_sameScratch (op : BitVec 3) (s : State) : SameScratch s (issue op s) :=
  ⟨rfl, ⟨rfl, rfl⟩, rfl, rfl, rfl, rfl⟩

theorem clearStatus_sameScratch (s : State) : SameScratch s (clearStatus s) := ⟨rfl, ⟨rfl, rfl⟩, rfl, rfl, rfl, rfl⟩

theorem raiseError_sameScratch (k : ErrorKind) (s : State) : SameScratch s (raiseError k s) :=
  ⟨rfl, ⟨rfl, rfl⟩, rfl, rfl, rfl, rfl⟩

theorem codecCommand_widthsOk (op : BitVec 3) (proc : State → Except ErrorKind State) {s : State} (hs : s.WidthsOk) :
    (codecCommand op proc s).WidthsOk := by
  by_cases hb : s.runState = .busy
  · rw [codecCommand_busy hb]; exact complete_widthsOk s _
  · rw [codecCommand_free hb]; exact (issue_sameScratch op s).widthsOk hs

/-! ### What a command word and OP can name -/

/-- A command word decodes to CLR or to a codec command (30_encoding.md R92). -/
theorem decodeCommand_ok {w : Word} {i : Instr} (h : decodeCommand w = .ok i) : i = .clr ∨ (codecFn i).isSome = true := by
  unfold decodeCommand at h
  split at h
  · split at h <;> cases h
    · exact .inl rfl
    all_goals exact .inr rfl
  · cases h

/-- OP names codec commands only (44_codec_interface.md R242). -/
theorem opInstr_some {op : BitVec 3} {i : Instr} (h : opInstr op = some i) : (codecFn i).isSome = true := by
  unfold opInstr at h
  split at h <;> cases h <;> rfl

/-- Every codec command is its procedure in the frame of R240 and R243. -/
theorem exec_codec {i : Instr} (h : (codecFn i).isSome = true) :
    ∃ op proc, ∀ s, exec i s = .next (codecCommand op proc s) := by
  cases i with
  | rleEnc => exact ⟨1, rleEncProc, fun _ => rfl⟩
  | rleDec => exact ⟨2, rleDecProc, fun _ => rfl⟩
  | hufEnc => exact ⟨3, hufEncProc, fun _ => rfl⟩
  | hufDec => exact ⟨4, hufDecProc, fun _ => rfl⟩
  | clr => cases h
  | rleRepeat _ _ => cases h
  | rleLiteral _ _ => cases h
  | hufEntry _ _ _ => cases h

theorem execCodec_widthsOk {i : Instr} {s t : State} (hi : (codecFn i).isSome = true) (hs : s.WidthsOk)
    (h : exec i s = .next t) : t.WidthsOk := by
  obtain ⟨op, proc, hexec⟩ := exec_codec hi
  rw [hexec] at h
  cases h
  exact codecCommand_widthsOk op proc hs

theorem execClr_widthsOk {s t : State} (hs : s.WidthsOk) (h : exec .clr s = .next t) : t.WidthsOk := by
  have ht : (if s.runState = .busy then s else clearStatus s) = t := Host.Outcome.next.inj h
  split at ht <;> subst ht
  · exact hs
  · exact (clearStatus_sameScratch s).widthsOk hs

/-! ### The events at the boundary -/

theorem commandWrite_widthsOk {v : Word} {s t : State} (hs : s.WidthsOk) (h : commandWrite v s = .next t) :
    t.WidthsOk := by
  unfold commandWrite at h
  split at h
  · cases h; exact hs
  · split at h
    next i hi =>
      rcases decodeCommand_ok hi with rfl | hcodec
      · exact execClr_widthsOk hs h
      · exact execCodec_widthsOk hcodec hs h
    next => cases h; exact (raiseError_sameScratch _ s).widthsOk hs

theorem readReg_sameScratch {n : Nat} {s : State} {r : Word × State} (h : readReg n s = some r) : SameScratch s r.2 := by
  unfold readReg at h
  split at h
  case h_4 =>
    split at h <;> cases h
    · exact ⟨rfl, ⟨rfl, rfl⟩, rfl, rfl, rfl, rfl⟩
    · exact .refl s
  case h_9 => cases h
  all_goals cases h; exact .refl s

theorem writeReg_sameScratch {n : Nat} {v : Word} {s t : State} (h : writeReg n v s = some t) : SameScratch s t := by
  unfold writeReg at h
  split at h
  · split at h <;> cases h
    · exact .refl s
    · exact ⟨rfl, ⟨rfl, rfl⟩, rfl, rfl, rfl, rfl⟩
  · split at h <;> cases h
    exact .refl s

theorem readOctet_sameScratch {sp : OctetSpace} {a : Nat} {s : State} {r : Byte × State}
    (h : readOctet sp a s = some r) : SameScratch s r.2 := by
  cases sp with
  | ibuf =>
    simp only [readOctet] at h
    split at h <;> cases h
    exact .refl s
  | obuf =>
    simp only [readOctet] at h
    split at h
    · split at h <;> cases h
      · exact ⟨rfl, ⟨rfl, rfl⟩, rfl, rfl, rfl, rfl⟩
      · exact .refl s
    · cases h
  | tagRle => obtain ⟨_, -, rfl⟩ := Option.map_eq_some_iff.mp h; exact .refl s
  | tagHuf => obtain ⟨_, -, rfl⟩ := Option.map_eq_some_iff.mp h; exact .refl s

theorem writeOctet_sameScratch {sp : OctetSpace} {a : Nat} {v : Byte} {s t : State}
    (h : writeOctet sp a v s = some t) : SameScratch s t := by
  cases sp with
  | ibuf =>
    simp only [writeOctet] at h
    split at h
    · split at h <;> cases h
      · exact .refl s
      · exact ⟨rfl, ⟨rfl, rfl⟩, rfl, rfl, rfl, rfl⟩
    · cases h
  | obuf | tagRle | tagHuf =>
    simp only [writeOctet] at h
    split at h <;> cases h
    exact .refl s

theorem answerWord_next {r : Option (Word × State)} {t : State} (h : answerWord r = .next t) :
    ∃ p, r = some p ∧ t = { p.2 with reply := .word p.1 } := by
  cases r with
  | none => cases h
  | some p => cases h; exact ⟨p, rfl, rfl⟩

theorem answerOctet_next {r : Option (Byte × State)} {t : State} (h : answerOctet r = .next t) :
    ∃ p, r = some p ∧ t = { p.2 with reply := .octet p.1 } := by
  cases r with
  | none => cases h
  | some p => cases h; exact ⟨p, rfl, rfl⟩

theorem answerWrite_next {r : Option State} {t : State} (h : answerWrite r = .next t) : r = some t := by
  cases r with
  | none => cases h
  | some u => cases h; rfl

theorem setReply_sameScratch (r : Reply) (s : State) : SameScratch s { s with reply := r } :=
  ⟨rfl, ⟨rfl, rfl⟩, rfl, rfl, rfl, rfl⟩

theorem setPort_sameScratch (es : List PortEvent) (s : State) : SameScratch s { s with port := es } :=
  ⟨rfl, ⟨rfl, rfl⟩, rfl, rfl, rfl, rfl⟩

/-! ### The sequencer -/

/-- At rest the sequencer waits, or has the command in OP to execute: no state at rest is inside a decoder's stream. -/
theorem fetch_atRest {s : State} (hphase : s.phaseOk) :
    fetch s = .wait ∨ (∃ i, opInstr s.op = some i ∧ fetch s = .run i) ∨ fetch s = .noProcedure := by
  unfold fetch
  split
  next hb =>
    rw [State.phaseOk, if_pos hb] at hphase
    rw [hphase]
    unfold fetchCommand
    cases opInstr s.op with
    | none => exact .inr (.inr rfl)
    | some i => exact .inr (.inl ⟨i, rfl, rfl⟩)
  next => exact .inl rfl

theorem sequencerTurn_widthsOk {s t : State} (hphase : s.phaseOk) (hs : s.WidthsOk) (h : sequencerTurn s = .next t) :
    t.WidthsOk := by
  unfold sequencerTurn at h
  rcases fetch_atRest hphase with hf | ⟨i, hi, hf⟩ | hf
  · rw [hf] at h; cases h; exact hs
  · rw [hf] at h; exact execCodec_widthsOk (opInstr_some hi) hs h
  · rw [hf] at h; cases h

theorem portStep_widthsOk {e : PortEvent} {s t : State} (hphase : s.phaseOk) (hs : s.WidthsOk)
    (h : portStep e s = .next t) : t.WidthsOk := by
  cases e with
  | readReg n =>
    obtain ⟨p, hp, rfl⟩ := answerWord_next h
    exact (setReply_sameScratch _ p.2).widthsOk ((readReg_sameScratch hp).widthsOk hs)
  | writeReg n v =>
    simp only [portStep] at h
    split at h
    · exact commandWrite_widthsOk hs h
    · exact (writeReg_sameScratch (answerWrite_next h)).widthsOk hs
  | readOctet sp a =>
    obtain ⟨p, hp, rfl⟩ := answerOctet_next h
    exact (setReply_sameScratch _ p.2).widthsOk ((readOctet_sameScratch hp).widthsOk hs)
  | writeOctet sp a v => exact (writeOctet_sameScratch (answerWrite_next h)).widthsOk hs
  | reset => cases h; exact resetFrom_widthsOk s
  | turn => exact sequencerTurn_widthsOk hphase hs h

theorem step_widthsOk {s t : State} (hphase : s.phaseOk) (hs : s.WidthsOk) (h : step s = .next t) : t.WidthsOk := by
  unfold step at h
  split at h
  next => exact sequencerTurn_widthsOk hphase hs h
  next e es _ => exact portStep_widthsOk (s := { s with port := es }) hphase ((setPort_sameScratch es s).widthsOk hs) h

/-- Settles O58: of the invariant only the rest phase is needed, so that no step runs a stream-level instruction. -/
theorem stepKeepsTheWidths : Obligations.StepKeepsTheWidths :=
  ⟨fun _ _ hinv hs h => step_widthsOk hinv.phase hs h, resetWith_widthsOk⟩

end Sys2Proof.Machine
end

section
/-! SUPPORT. The weights of the Huffman encoder are bounded by ILEN (00_scope.md R8, R14): the frequency pass counts each
symbol of the input once (42_huffman_encoder.md R171), and the tree builder moves weight between live nodes without making
any (R172 to R174). -/

namespace Sys2Proof.Machine

/-! ### Reads of a file after a write -/

/-- What a read of an element, with a default past the end, returns after a write. -/
theorem getD_setIfInBounds {α : Type} {n : Nat} (v : Vector α n) (i j : Nat) (x d : α) :
    (v.setIfInBounds i x).toList.getD j d = if i = j ∧ i < n then x else v.toList.getD j d := by
  obtain ⟨v, rfl⟩ := v
  simp only [Vector.setIfInBounds, Vector.toList, Array.toList_setIfInBounds, List.getD_eq_getElem?_getD,
    List.getElem?_set, Array.length_toList]
  by_cases hij : i = j
  · subst hij
    by_cases hi : i < v.size
    · simp [hi]
    · simp [hi]
  · simp [hij]

theorem getD_replicate_self {α : Type} (n j : Nat) (a : α) : (Vector.replicate n a).toList.getD j a = a := by
  rw [Vector.toList_replicate]
  rcases Nat.lt_or_ge j n with h | h
  · exact List.getD_replicate _ h
  · exact List.getD_eq_default _ _ (by rwa [List.length_replicate])

/-! ### The frequency pass -/

/-- `FREQ[j]`. -/
def freqAt (h : HufEncUnit) (j : Nat) : Nat := h.freq.toList.getD j 0

/-- The sum of all frequency counters. -/
def freqTotal (h : HufEncUnit) : Nat := ∑ j ∈ Finset.range 256, freqAt h j

theorem freqAt_countSymbol (c : Byte) (h : HufEncUnit) (j : Nat) :
    freqAt (countSymbol c h) j = freqAt h j + if j = c.toNat then 1 else 0 := by
  simp only [freqAt, countSymbol_freq, getD_setIfInBounds]
  by_cases hj : j = c.toNat
  · subst hj; simp [c.isLt]
  · simp [hj, Ne.symm hj]

theorem freqTotal_countSymbol (c : Byte) (h : HufEncUnit) : freqTotal (countSymbol c h) = freqTotal h + 1 := by
  have hc : c.toNat < 256 := c.isLt
  simp [freqTotal, freqAt_countSymbol, Finset.sum_add_distrib, hc]

theorem freqTotal_freqLoop (fuel : Nat) (s : State) :
    freqTotal (freqLoop fuel s).he = freqTotal s.he + min fuel (s.ilen.toNat - s.ipos) := by
  induction fuel generalizing s with
  | zero => simp [freqLoop]
  | succ fuel ih =>
    rw [freqLoop]
    split
    · rw [ih]
      simp only [freqTotal_countSymbol]
      omega
    · omega

/-- The counters after the pass add up to the length of the input. -/
theorem freqTotal_frequencies (s : State) : freqTotal (frequencies s).he = s.ilen.toNat := by
  rw [frequencies, freqTotal_freqLoop]
  simp only [freqTotal, freqAt, getD_replicate_self, Finset.sum_const_zero]
  omega

theorem le_freqTotal {h : HufEncUnit} {f : Nat} (hf : f ∈ h.freq.toList) : f ≤ freqTotal h := by
  obtain ⟨j, hj, rfl⟩ := List.mem_iff_getElem.mp hf
  have hread : freqAt h j = h.freq.toList[j] := List.getD_eq_getElem _ 0 hj
  have hmem : j ∈ Finset.range 256 := Finset.mem_range.mpr (Vector.length_toList (xs := h.freq) ▸ hj)
  rw [← hread]
  exact Finset.single_le_sum (f := freqAt h) (fun _ _ => Nat.zero_le _) hmem

/-! ### The queue of live nodes -/

/-- The indices of the live nodes. -/
def liveNodes (h : HufEncUnit) : Finset Nat := (Finset.range 511).filter (fun i => h.live.toList.getD i false = true)

/-- The weight of all live nodes together. -/
def liveWeight (h : HufEncUnit) : Nat := ∑ i ∈ liveNodes h, (nodeAt h i).w

theorem mem_liveNodes {h : HufEncUnit} {i : Nat} : i ∈ liveNodes h ↔ h.live.toList[i]? = some true := by
  rw [liveNodes, Finset.mem_filter, Finset.mem_range, List.getD_eq_getElem?_getD]
  constructor
  · rintro ⟨-, hi⟩
    cases hl : h.live.toList[i]? with
    | none => simp [hl] at hi
    | some b => simpa [hl] using hi
  · intro hi
    obtain ⟨hlt, -⟩ := List.getElem?_eq_some_iff.mp hi
    exact ⟨Vector.length_toList (xs := h.live) ▸ hlt, by rw [hi]; rfl⟩

theorem nodeAt_pushNode (n : Node) {h : HufEncUnit} (hroom : h.nNode < 511) (i : Nat) :
    nodeAt (pushNode n h) i = if i = h.nNode then n else nodeAt h i := by
  simp only [nodeAt, pushNode_node, getD_setIfInBounds, hroom, and_true, eq_comm]

theorem liveNodes_pushNode (n : Node) {h : HufEncUnit} (hroom : h.nNode < 511) :
    liveNodes (pushNode n h) = insert h.nNode (liveNodes h) := by
  ext i
  simp only [liveNodes, pushNode_live, getD_setIfInBounds, hroom, and_true, Finset.mem_filter, Finset.mem_range,
    Finset.mem_insert]
  by_cases hi : h.nNode = i
  · subst hi; simp [hroom]
  · simp [hi, Ne.symm hi]

/-! ### `PopMin` -/

@[simp] theorem popMin_nNode (h : HufEncUnit) : (popMin h).2.nNode = h.nNode := rfl
@[simp] theorem popMin_nLive (h : HufEncUnit) : (popMin h).2.nLive = h.nLive - 1 := rfl
@[simp] theorem popMin_live (h : HufEncUnit) : (popMin h).2.live = h.live.setIfInBounds (popMin h).1 false := rfl
@[simp] theorem nodeAt_popMin (h : HufEncUnit) (i : Nat) : nodeAt (popMin h).2 i = nodeAt h i := rfl

theorem liveNodes_popMin (h : HufEncUnit) : liveNodes (popMin h).2 = (liveNodes h).erase (popMin h).1 := by
  ext i
  simp only [liveNodes, popMin_live, getD_setIfInBounds, Finset.mem_erase, Finset.mem_filter, Finset.mem_range]
  by_cases hi : (popMin h).1 = i
  · subst hi
    simp only [true_and, ne_eq, not_true_eq_false, false_and, iff_false]
    rintro ⟨hlt, hread⟩
    simp [hlt] at hread
  · simp [hi, Ne.symm hi]

/-- The choice `minLive` makes at each node between the best so far and that node. -/
def lesser : Option (Nat × Nat) → Option (Nat × Nat) → Option (Nat × Nat)
  | none, x => x
  | some b, none => some b
  | some b, some x => if x.1 < b.1 then some x else some b

theorem minLive_cons (n : Node) (ns : List Node) (l : Bool) (ls : List Bool) (i : Nat) (best : Option (Nat × Nat)) :
    minLive (n :: ns) (l :: ls) i best = minLive ns ls (i + 1) (lesser best (if l then some (n.w, i) else none)) := rfl

theorem lesser_eq_or (a b : Option (Nat × Nat)) : lesser a b = a ∨ lesser a b = b := by
  cases a with
  | none => exact .inr rfl
  | some a =>
    cases b with
    | none => exact .inl rfl
    | some b =>
      simp only [lesser]
      split
      · exact .inr rfl
      · exact .inl rfl

theorem lesser_eq_none {a b : Option (Nat × Nat)} (h : lesser a b = none) : a = none ∧ b = none := by
  cases a with
  | none => exact ⟨rfl, h⟩
  | some a =>
    cases b with
    | none => cases h
    | some b => simp only [lesser] at h; split at h <;> cases h

/-- What `minLive` answers is the candidate it was given, or a live node. -/
theorem minLive_some {ns : List Node} {ls : List Bool} {i : Nat} {best : Option (Nat × Nat)} {b : Nat × Nat}
    (h : minLive ns ls i best = some b) : best = some b ∨ ∃ j, ls[j]? = some true ∧ b.2 = i + j := by
  induction ns generalizing ls i best with
  | nil => exact .inl h
  | cons n ns ih =>
    cases ls with
    | nil => exact .inl h
    | cons l ls =>
      rw [minLive_cons] at h
      rcases ih h with hbest | ⟨j, hj, hb⟩
      · rcases lesser_eq_or best (if l then some (n.w, i) else none) with hl | hl
        · exact .inl (hl ▸ hbest)
        · rw [hl] at hbest
          split at hbest <;> cases hbest
          exact .inr ⟨0, congrArg some ‹_›, rfl⟩
      · exact .inr ⟨j + 1, hj, by omega⟩

/-- `minLive` answers nothing only where no node is live. -/
theorem minLive_none {ns : List Node} {ls : List Bool} {i : Nat} {best : Option (Nat × Nat)}
    (h : minLive ns ls i best = none) : best = none ∧ ∀ j < ns.length, ls[j]? ≠ some true := by
  induction ns generalizing ls i best with
  | nil => exact ⟨h, fun j hj => absurd hj (Nat.not_lt_zero j)⟩
  | cons n ns ih =>
    cases ls with
    | nil => exact ⟨h, fun j _ => by simp⟩
    | cons l ls =>
      rw [minLive_cons] at h
      obtain ⟨hbest, hrest⟩ := ih h
      obtain ⟨hbest, hhere⟩ := lesser_eq_none hbest
      refine ⟨hbest, fun j hj => ?_⟩
      cases j with
      | zero => intro hl; cases hl; cases hhere
      | succ j => exact hrest j (Nat.lt_of_succ_lt_succ hj)

/-- `PopMin` takes a live node while there is one. -/
theorem popMin_mem_liveNodes {h : HufEncUnit} (hne : (liveNodes h).Nonempty) : (popMin h).1 ∈ liveNodes h := by
  rw [mem_liveNodes]
  unfold popMin
  cases hmin : minLive h.node.toList h.live.toList 0 none with
  | none =>
    obtain ⟨i, hi⟩ := hne
    have hlt : i < h.node.toList.length := by
      rw [Vector.length_toList]; exact Finset.mem_range.mp (Finset.mem_filter.mp hi).1
    exact absurd (mem_liveNodes.mp hi) ((minLive_none hmin).2 i hlt)
  | some b =>
    rcases minLive_some hmin with hb | ⟨j, hj, hb⟩
    · cases hb
    · rw [Nat.zero_add] at hb
      simpa only [hb] using hj

theorem liveWeight_popMin {h : HufEncUnit} (hne : (liveNodes h).Nonempty) :
    liveWeight (popMin h).2 + (nodeAt h (popMin h).1).w = liveWeight h := by
  simp only [liveWeight, liveNodes_popMin, nodeAt_popMin]
  exact Finset.sum_erase_add _ _ (popMin_mem_liveNodes hne)

/-! ### The invariant of the tree builder -/

/-- What the registers of the tree builder keep: the live nodes are stored ones and NLIVE counts them. A branch puts one
node for two, so NNODE + NLIVE never passes 512 and the store suffices (10_state.md R41). -/
structure QueueOk (h : HufEncUnit) : Prop where
  stored : ∀ i ∈ liveNodes h, i < h.nNode
  counted : (liveNodes h).card = h.nLive
  store : h.nNode ≤ 511
  room : h.nNode + h.nLive ≤ 512

/-- The queue holds weight `total` altogether, and no stored node weighs more. -/
structure WeightsOk (total : Nat) (h : HufEncUnit) : Prop where
  live : liveWeight h = total
  node : ∀ i < h.nNode, (nodeAt h i).w ≤ total

theorem QueueOk.nonempty {h : HufEncUnit} (hq : QueueOk h) (hlive : 0 < h.nLive) : (liveNodes h).Nonempty :=
  Finset.card_pos.mp (hq.counted ▸ hlive)

theorem QueueOk.popMin {h : HufEncUnit} (hq : QueueOk h) (hlive : 0 < h.nLive) : QueueOk (popMin h).2 where
  stored i hi := hq.stored i (Finset.mem_of_mem_erase (liveNodes_popMin h ▸ hi))
  counted := by
    rw [liveNodes_popMin, Finset.card_erase_of_mem (popMin_mem_liveNodes (hq.nonempty hlive)), hq.counted, popMin_nLive]
  store := hq.store
  room := by have := hq.room; simp only [popMin_nNode, popMin_nLive]; omega

theorem QueueOk.next_not_mem {h : HufEncUnit} (hq : QueueOk h) : h.nNode ∉ liveNodes h :=
  fun hi => Nat.lt_irrefl _ (hq.stored _ hi)

theorem QueueOk.pushNode {h : HufEncUnit} (hq : QueueOk h) (n : Node) (hstore : h.nNode < 511)
    (hroom : h.nNode + h.nLive + 2 ≤ 512) : QueueOk (pushNode n h) where
  stored i hi := by
    rw [liveNodes_pushNode n hstore, Finset.mem_insert] at hi
    rw [pushNode_nNode]
    rcases hi with rfl | hi
    · omega
    · have := hq.stored i hi; omega
  counted := by
    rw [liveNodes_pushNode n hstore, Finset.card_insert_of_notMem hq.next_not_mem, hq.counted, pushNode_nLive]
  store := by rw [pushNode_nNode]; omega
  room := by rw [pushNode_nNode, pushNode_nLive]; omega

theorem liveWeight_pushNode {h : HufEncUnit} (hq : QueueOk h) (n : Node) (hstore : h.nNode < 511) :
    liveWeight (pushNode n h) = liveWeight h + n.w := by
  have hold : ∀ i ∈ liveNodes h, (nodeAt (pushNode n h) i).w = (nodeAt h i).w := fun i hi => by
    rw [nodeAt_pushNode n hstore, if_neg (Nat.ne_of_lt (hq.stored i hi))]
  rw [liveWeight, liveNodes_pushNode n hstore, Finset.sum_insert hq.next_not_mem, Finset.sum_congr rfl hold,
    nodeAt_pushNode n hstore, if_pos rfl, liveWeight, Nat.add_comm]

theorem node_le_pushNode {total : Nat} {h : HufEncUnit} {n : Node} (hstore : h.nNode < 511)
    (hold : ∀ i < h.nNode, (nodeAt h i).w ≤ total) (hnew : n.w ≤ total) :
    ∀ i < (pushNode n h).nNode, (nodeAt (pushNode n h) i).w ≤ total := by
  intro i hi
  rw [pushNode_nNode] at hi
  rw [nodeAt_pushNode n hstore]
  split
  · exact hnew
  · exact hold i (by omega)

/-! ### The leaves -/

/-- The leaves of the symbols below `k`, as the fold of `pushLeaves` has them before symbol `k`. -/
def leavesBelow (k : Nat) (h : HufEncUnit) : HufEncUnit :=
  (List.range k).foldl (fun h s => pushLeaf s h) { h with nNode := 0, nLive := 0, live := Vector.replicate 511 false }

theorem leavesBelow_succ (k : Nat) (h : HufEncUnit) : leavesBelow (k + 1) h = pushLeaf k (leavesBelow k h) := by
  simp [leavesBelow, List.range_succ]

theorem pushLeaves_eq (h : HufEncUnit) : pushLeaves h = { leavesBelow 256 h with nLeaf := (leavesBelow 256 h).nNode } := rfl

/-- A symbol that occurs gets a leaf of its frequency, and no other does. -/
theorem pushLeaf_cases (s : Nat) (h : HufEncUnit) :
    (freqAt h s = 0 ∧ pushLeaf s h = h) ∨ ∃ n : Node, n.w = freqAt h s ∧ pushLeaf s h = pushNode n h := by
  unfold pushLeaf
  by_cases hf : 0 < freqAt h s
  · exact .inr ⟨_, rfl, if_pos hf⟩
  · exact .inl ⟨by omega, if_neg hf⟩

/-- The state of the builder before symbol `k`: at most `k` leaves, which weigh as much as the symbols below `k` occur. -/
structure LeavesOk (k : Nat) (h₀ h : HufEncUnit) : Prop where
  freq : h.freq = h₀.freq
  few : h.nNode ≤ k ∧ h.nLive ≤ k
  queue : QueueOk h
  weights : WeightsOk (∑ j ∈ Finset.range k, freqAt h₀ j) h

theorem leavesOk_zero (h : HufEncUnit) : LeavesOk 0 h (leavesBelow 0 h) := by
  have hnone : liveNodes (leavesBelow 0 h) = ∅ :=
    Finset.filter_false_of_mem fun i _ => by
      rw [show (leavesBelow 0 h).live = Vector.replicate 511 false from rfl, getD_replicate_self]
      exact Bool.false_ne_true
  exact ⟨rfl, ⟨le_rfl, le_rfl⟩, ⟨by simp [hnone], by rw [hnone]; rfl, Nat.zero_le _, Nat.zero_le _⟩,
    ⟨by simp [liveWeight, hnone], fun i hi => absurd hi (Nat.not_lt_zero i)⟩⟩

theorem LeavesOk.pushLeaf {k : Nat} {h₀ h : HufEncUnit} (hl : LeavesOk k h₀ h) (hk : k < 256) :
    LeavesOk (k + 1) h₀ (pushLeaf k h) := by
  obtain ⟨hfreq, ⟨hnodes, hlive⟩, hq, hw⟩ := hl
  have hk_freq : freqAt h k = freqAt h₀ k := by rw [freqAt, freqAt, hfreq]
  have hsum : ∑ j ∈ Finset.range (k + 1), freqAt h₀ j = liveWeight h + freqAt h k := by
    rw [Finset.sum_range_succ, hw.live, hk_freq]
  rcases pushLeaf_cases k h with ⟨hzero, heq⟩ | ⟨n, hn, heq⟩
  · rw [heq]
    rw [hzero, Nat.add_zero, hw.live] at hsum
    exact ⟨hfreq, ⟨by omega, by omega⟩, hq, hsum ▸ hw⟩
  · have hstore : h.nNode < 511 := by omega
    rw [heq]
    refine ⟨hfreq, ⟨by rw [pushNode_nNode]; omega, by rw [pushNode_nLive]; omega⟩,
      hq.pushNode n hstore (by omega), ⟨?_, node_le_pushNode hstore ?_ ?_⟩⟩
    · rw [liveWeight_pushNode hq n hstore, hsum, hn]
    · intro i hi
      have := hw.node i hi
      have := hw.live
      omega
    · omega

theorem leavesOk_leavesBelow (h : HufEncUnit) (k : Nat) (hk : k ≤ 256) : LeavesOk k h (leavesBelow k h) := by
  induction k with
  | zero => exact leavesOk_zero h
  | succ k ih => rw [leavesBelow_succ]; exact (ih (by omega)).pushLeaf hk

theorem QueueOk.setNLeaf {h : HufEncUnit} (hq : QueueOk h) (n : Nat) : QueueOk { h with nLeaf := n } :=
  ⟨hq.stored, hq.counted, hq.store, hq.room⟩

theorem WeightsOk.setNLeaf {total : Nat} {h : HufEncUnit} (hw : WeightsOk total h) (n : Nat) :
    WeightsOk total { h with nLeaf := n } := ⟨hw.live, hw.node⟩

theorem pushLeaves_ok (h : HufEncUnit) : QueueOk (pushLeaves h) ∧ WeightsOk (freqTotal h) (pushLeaves h) := by
  obtain ⟨-, -, hq, hw⟩ := leavesOk_leavesBelow h 256 le_rfl
  rw [pushLeaves_eq]
  exact ⟨hq.setNLeaf _, hw.setNLeaf _⟩

/-! ### The branches -/

/-- One turn of the loop of R174: the two least live nodes become the children of a branch. -/
def joinLeast (h : HufEncUnit) : HufEncUnit :=
  pushBranch (popMin h).1 (popMin (popMin h).2).1 (popMin (popMin h).2).2

theorem buildLoop_succ (fuel : Nat) (h : HufEncUnit) :
    buildLoop (fuel + 1) h = if 1 < h.nLive then buildLoop fuel (joinLeast h) else h := rfl

/-- A branch is a node as heavy as its two children. -/
theorem joinLeast_eq (h : HufEncUnit) : ∃ n : Node,
    n.w = (nodeAt h (popMin h).1).w + (nodeAt h (popMin (popMin h).2).1).w ∧
    joinLeast h = pushNode n (popMin (popMin h).2).2 := ⟨_, rfl, rfl⟩

theorem joinLeast_ok {total : Nat} {h : HufEncUnit} (hq : QueueOk h) (hw : WeightsOk total h) (hlive : 1 < h.nLive) :
    QueueOk (joinLeast h) ∧ WeightsOk total (joinLeast h) := by
  obtain ⟨n, hn, heq⟩ := joinLeast_eq h
  have hlive₁ : 0 < (popMin h).2.nLive := by rw [popMin_nLive]; omega
  have hq₁ : QueueOk (popMin h).2 := hq.popMin (by omega)
  have hq₂ : QueueOk (popMin (popMin h).2).2 := hq₁.popMin hlive₁
  have hstore : (popMin (popMin h).2).2.nNode < 511 := by
    have := hq.room; simp only [popMin_nNode]; omega
  have hroom : (popMin (popMin h).2).2.nNode + (popMin (popMin h).2).2.nLive + 2 ≤ 512 := by
    have := hq.room; simp only [popMin_nNode, popMin_nLive]; omega
  have hsum : liveWeight (popMin (popMin h).2).2 + n.w = total := by
    have hfirst := liveWeight_popMin (hq.nonempty (by omega))
    have hsecond := liveWeight_popMin (hq₁.nonempty hlive₁)
    rw [nodeAt_popMin] at hsecond
    have := hw.live
    omega
  rw [heq]
  exact ⟨hq₂.pushNode n hstore hroom, ⟨by rw [liveWeight_pushNode hq₂ n hstore, hsum],
    node_le_pushNode hstore hw.node (by omega)⟩⟩

theorem buildLoop_ok {total : Nat} (fuel : Nat) {h : HufEncUnit} (hq : QueueOk h) (hw : WeightsOk total h) :
    QueueOk (buildLoop fuel h) ∧ WeightsOk total (buildLoop fuel h) := by
  induction fuel generalizing h with
  | zero => exact ⟨hq, hw⟩
  | succ fuel ih =>
    rw [buildLoop_succ]
    split
    next hlive => obtain ⟨hq', hw'⟩ := joinLeast_ok hq hw hlive; exact ih hq' hw'
    next => exact ⟨hq, hw⟩

/-- Taking the root off the queue changes no node. -/
theorem buildTree_nNode (h : HufEncUnit) : (buildTree h).nNode = (buildLoop Config.alphabet h).nNode := rfl

theorem nodeAt_buildTree (h : HufEncUnit) (i : Nat) :
    nodeAt (buildTree h) i = nodeAt (buildLoop Config.alphabet h) i := rfl

/-- The tree over any counters fits the store, and none of its nodes weighs more than the counters together. -/
theorem buildTree_pushLeaves_bounds (h : HufEncUnit) :
    (buildTree (pushLeaves h)).nNode ≤ Config.nodeMax ∧
    ∀ i < (buildTree (pushLeaves h)).nNode, (nodeAt (buildTree (pushLeaves h)) i).w ≤ freqTotal h := by
  obtain ⟨hq, hw⟩ := pushLeaves_ok h
  obtain ⟨hq', hw'⟩ := buildLoop_ok Config.alphabet hq hw
  simp only [buildTree_nNode, nodeAt_buildTree]
  exact ⟨hq'.store, hw'.node⟩

/-- Settles O59: the counters add up to ILEN, and the tree builder keeps the weight of its queue. -/
theorem weightsFitTheirWidth : Obligations.WeightsFitTheirWidth := by
  intro s hlen h g
  obtain ⟨hstore, hnode⟩ := buildTree_pushLeaves_bounds h
  have htotal : freqTotal h = s.ilen.toNat := freqTotal_frequencies s
  rw [htotal] at hnode
  have hwidth : s.cfg.nMax < 2 ^ s.cfg.weightWidth := (weightWidth_le_iff s.cfg _).mp le_rfl
  exact ⟨fun f hf => htotal ▸ le_freqTotal hf, hstore, hnode, by omega⟩

end Sys2Proof.Machine
end

section
/-! SUPPORT. What the procedure of a command can write (44_codec_interface.md R243): it appends octets to OBUF from OPOS on
(20_memory.md R72), HUF_ENC back-fills its header (42_huffman_encoder.md R180, R183), and all else it writes is scratch. -/

namespace Sys2Proof.Machine

/-! ### Octets listed one after another -/

theorem Memory.insertAll_append (m : Memory) (a : Nat) (vs ws : List Byte) :
    Memory.insertAll m a (vs ++ ws) = Memory.insertAll (Memory.insertAll m a vs) (a + vs.length) ws := by
  induction vs generalizing m a with
  | nil => rfl
  | cons v vs ih =>
    rw [List.cons_append, Memory.insertAll, ih, Memory.insertAll, List.length_cons, Nat.add_assoc, Nat.add_comm 1]

theorem Memory.insertAll_below {m : Memory} {a n : Nat} {vs : List Byte} (h : m.below n = true)
    (hfit : vs = [] ∨ a + vs.length ≤ n) : (Memory.insertAll m a vs).below n = true := by
  induction vs generalizing m a with
  | nil => exact h
  | cons v vs ih =>
    have hlen : a + (vs.length + 1) ≤ n := hfit.resolve_left (List.cons_ne_nil v vs)
    exact ih (Memory.insert_below v h (by omega)) (.inr (by omega))

theorem Memory.insertAll_listed {m : Memory} {a b : Nat} {vs : List Byte}
    (h : (a ≤ b ∧ b < a + vs.length) ∨ (Memory.lookup m b).isSome = true) :
    (Memory.lookup (Memory.insertAll m a vs) b).isSome = true := by
  rw [Memory.lookup_insertAll]
  split
  next hb => rw [List.getElem?_eq_getElem (by omega)]; rfl
  next hb => exact h.resolve_left hb

theorem putBE_length (v w : Nat) : (putBE v w).length = w := by
  induction w with
  | zero => rfl
  | succ w ih => rw [putBE, List.length_cons, ih]

/-! ### What no procedure writes -/

/-- What no procedure writes: `s` with OBUF, PHASE and the scratch registers and files but OP erased. -/
def State.kept (s : State) : State :=
  { s with obuf := [], phase := .idle, ipos := 0, opos := 0, pk := Packer.zero, re := RleEncUnit.zero, dSvc := 0,
           he := HufEncUnit.zero, hd := HufDecUnit.zero }

theorem writeObufAll_kept (vs : List Byte) (a : Nat) (s : State) : (writeObufAll a vs s).kept = s.kept := by
  induction vs generalizing a s with
  | nil => rfl
  | cons v vs ih =>
    rw [writeObufAll, ih, writeObuf]
    split <;> rfl

/-- A back-fill inside OBUF lists its octets. -/
theorem writeObufAll_obuf {vs : List Byte} {a : Nat} {s : State} (hfit : a + vs.length ≤ s.cfg.mMax) :
    (writeObufAll a vs s).obuf = Memory.insertAll s.obuf a vs := by
  induction vs generalizing a s with
  | nil => rfl
  | cons v vs ih =>
    rw [List.length_cons] at hfit
    have hwrite : (writeObuf a v s).obuf = Memory.insert s.obuf a v := by rw [writeObuf, if_pos (by omega)]
    rw [writeObufAll, ih (by rw [writeObuf_cfg]; omega), hwrite, Memory.insertAll]

/-! ### Appending -/

/-- `t` is `s` with the octets `vs` appended to OBUF (R72); nothing else changed but PHASE and scratch, and no code was
assigned. -/
structure Appended (s t : State) (vs : List Byte) : Prop where
  kept : t.kept = s.kept
  codes : t.he.clen = s.he.clen ∧ t.he.cbits = s.he.cbits
  obuf : t.obuf = Memory.insertAll s.obuf s.opos vs
  opos : t.opos = s.opos + vs.length
  room : vs = [] ∨ t.opos ≤ s.cfg.mMax

/-- `t` is `s` with some octets appended. -/
def Grows (s t : State) : Prop := ∃ vs, Appended s t vs

theorem cfg_eq_of_kept {s t : State} (h : t.kept = s.kept) : t.cfg = s.cfg :=
  calc t.cfg = t.kept.cfg := rfl
    _ = s.kept.cfg := by rw [h]

theorem ilen_eq_of_kept {s t : State} (h : t.kept = s.kept) : t.ilen = s.ilen :=
  calc t.ilen = t.kept.ilen := rfl
    _ = s.kept.ilen := by rw [h]

theorem Appended.cfg {s t : State} {vs : List Byte} (h : Appended s t vs) : t.cfg = s.cfg := cfg_eq_of_kept h.kept

theorem Appended.refl (s : State) : Appended s s [] := ⟨rfl, ⟨rfl, rfl⟩, rfl, rfl, .inl rfl⟩

theorem Appended.trans {s t u : State} {vs ws : List Byte} (h : Appended s t vs) (h' : Appended t u ws) :
    Appended s u (vs ++ ws) where
  kept := h'.kept.trans h.kept
  codes := ⟨h'.codes.1.trans h.codes.1, h'.codes.2.trans h.codes.2⟩
  obuf := by rw [h'.obuf, h.obuf, h.opos, Memory.insertAll_append]
  opos := by rw [h'.opos, h.opos, List.length_append, Nat.add_assoc]
  room := by
    rcases h'.room with rfl | hroom
    · rw [List.append_nil, h'.opos]; exact h.room
    · rw [h.cfg] at hroom; exact .inr hroom

theorem Appended.grows {s t : State} {vs : List Byte} (h : Appended s t vs) : Grows s t := ⟨vs, h⟩

theorem Grows.refl (s : State) : Grows s s := ⟨[], .refl s⟩

theorem Grows.trans {s t u : State} : Grows s t → Grows t u → Grows s u
  | ⟨_, h⟩, ⟨_, h'⟩ => ⟨_, h.trans h'⟩

/-- `Grows.trans` with the later part first. -/
theorem Grows.after {s t u : State} (h' : Grows t u) (h : Grows s t) : Grows s u := h.trans h'

theorem Grows.kept {s t : State} : Grows s t → t.kept = s.kept
  | ⟨_, h⟩ => h.kept

theorem Grows.cfg {s t : State} : Grows s t → t.cfg = s.cfg
  | ⟨_, h⟩ => h.cfg

theorem Grows.clen {s t : State} : Grows s t → t.he.clen = s.he.clen
  | ⟨_, h⟩ => h.codes.1

theorem Grows.opos_le {s t : State} : Grows s t → s.opos ≤ t.opos
  | ⟨_, h⟩ => by rw [h.opos]; omega

/-- Once a result fits OBUF it fits after every `Append`. -/
theorem Grows.fits {s t : State} (h : Grows s t) (hs : s.opos ≤ s.cfg.mMax) : t.opos ≤ s.cfg.mMax := by
  obtain ⟨vs, h⟩ := h
  rcases h.room with rfl | hroom
  · rw [h.opos]; exact hs
  · exact hroom

/-- A change of PHASE and scratch, but for OPOS and the codes, appends nothing. -/
theorem grows_of_scratch {s t : State} (hkept : t.kept = s.kept := by rfl) (hclen : t.he.clen = s.he.clen := by rfl)
    (hcbits : t.he.cbits = s.he.cbits := by rfl) (hobuf : t.obuf = s.obuf := by rfl)
    (hopos : t.opos = s.opos := by rfl) : Grows s t :=
  ⟨[], hkept, ⟨hclen, hcbits⟩, hobuf, hopos, .inl rfl⟩

theorem append_appended {v : Byte} {s t : State} (h : append v s = .ok t) : Appended s t [v] := by
  rw [append_eq] at h
  split at h <;> cases h
  exact ⟨rfl, ⟨rfl, rfl⟩, rfl, rfl, .inr ‹_›⟩

theorem appendAll_appended {vs : List Byte} {s t : State} (h : appendAll vs s = .ok t) : Appended s t vs := by
  rw [appendAll_eq] at h
  split at h <;> cases h
  exact ⟨rfl, ⟨rfl, rfl⟩, rfl, rfl, ‹_›⟩

/-- A relation that holds over every round of a loop holds over the loop. All loops of the procedures have this shape. -/
theorem loop_rel {R : State → State → Prop} (hrefl : ∀ s, R s s) (htrans : ∀ s t u, R s t → R t u → R s u)
    {guard : State → Prop} [DecidablePred guard] {body : State → Except ErrorKind State}
    {loop : Nat → State → Except ErrorKind State} (hzero : ∀ s, loop 0 s = .ok s)
    (hsucc : ∀ fuel s, loop (fuel + 1) s = if guard s then body s >>= loop fuel else .ok s)
    (hbody : ∀ {s t}, body s = .ok t → R s t) {fuel : Nat} {s t : State} (h : loop fuel s = .ok t) : R s t := by
  induction fuel generalizing s with
  | zero => rw [hzero] at h; cases h; exact hrefl _
  | succ fuel ih =>
    rw [hsucc] at h
    split at h
    · obtain ⟨u, hu, h⟩ := except_bind_ok.mp h
      exact htrans s u t (hbody hu) (ih h)
    · cases h; exact hrefl _

/-! ### The packer -/

theorem packBit_grows {b : Bool} {s t : State} (h : packBit b s = .ok t) : Grows s t := by
  obtain ⟨-, u, hu, rfl⟩ | ⟨-, rfl⟩ := packBit_ok h
  · exact (append_appended hu).grows.trans grows_of_scratch
  · exact grows_of_scratch

theorem packBits_grows {bits : Bits} {s t : State} (h : packBits bits s = .ok t) : Grows s t := by
  induction bits generalizing s with
  | nil => cases h; exact .refl _
  | cons b bits ih =>
    obtain ⟨u, hu, h⟩ := except_bind_ok.mp h
    exact (packBit_grows hu).trans (ih h)

theorem packFlush_grows {s t : State} (h : packFlush s = .ok t) : Grows s t := by
  obtain ⟨-, rfl⟩ | ⟨-, u, hu, rfl⟩ := packFlush_ok h
  · exact .refl t
  · exact (append_appended hu).grows.trans grows_of_scratch

theorem packInit_grows (s : State) : Grows s (packInit s) := grows_of_scratch

theorem packCode_grows {code : Bits} {s t : State} (h : packCode code s = .ok t) : Grows s t := by
  obtain ⟨u, hu, h⟩ := except_bind_ok.mp h
  exact (packInit_grows s).trans ((packBits_grows hu).trans (packFlush_grows h))

/-! ### RLE -/

theorem holdLiteral_grows (i : Nat) (c : Byte) (s : State) : Grows s (holdLiteral i c s) :=
  grows_of_scratch

theorem closeRun_grows (s : State) : Grows s (closeRun s) := grows_of_scratch

theorem startRepeat_grows (c : Byte) (s : State) : Grows s (startRepeat c s) := grows_of_scratch

theorem countRepeat_grows (s : State) : Grows s (countRepeat s) := grows_of_scratch

theorem emitLiteral_grows {k : Nat} {s t : State} (h : emitLiteral k s = .ok t) : Grows s t :=
  (appendAll_appended h).grows

theorem emitRepeat_grows {s t : State} (h : emitRepeat s = .ok t) : Grows s t := (appendAll_appended h).grows

theorem rleSymbol_grows {c : Byte} {s t : State} (h : rleSymbol c s = .ok t) : Grows s t := by
  unfold rleSymbol at h
  split at h
  case h_1 => cases h; exact holdLiteral_grows 0 c s
  case h_2 =>
    split at h
    · dsimp only at h
      split at h
      · obtain ⟨u, hu, h⟩ := except_bind_ok.mp h
        cases h
        exact (emitLiteral_grows hu).trans (startRepeat_grows c u)
      · cases h; exact startRepeat_grows c s
    · dsimp only at h
      split at h
      · obtain ⟨u, hu, h⟩ := except_bind_ok.mp h
        cases h
        exact (holdLiteral_grows _ c s).trans ((emitLiteral_grows hu).trans (closeRun_grows u))
      · cases h; exact holdLiteral_grows _ c s
  case h_3 =>
    split at h
    · dsimp only at h
      split at h
      · obtain ⟨u, hu, h⟩ := except_bind_ok.mp h
        cases h
        exact (countRepeat_grows s).trans ((emitRepeat_grows hu).trans (closeRun_grows u))
      · cases h; exact countRepeat_grows s
    · obtain ⟨u, hu, h⟩ := except_bind_ok.mp h
      cases h
      exact (emitRepeat_grows hu).trans (holdLiteral_grows 0 c u)

theorem rleEncLoop_grows {fuel : Nat} {s t : State} (h : rleEncLoop fuel s = .ok t) : Grows s t :=
  loop_rel (guard := fun s => s.ipos < s.ilen.toNat)
    (R := Grows) (body := fun s => rleSymbol (readIbuf s s.ipos) { s with ipos := s.ipos + 1 })
    .refl (fun _ _ _ => .trans) (fun _ => rfl) (fun _ _ => rfl)
    (fun h => (rleSymbol_grows h).after grows_of_scratch) h

theorem rleFlush_grows {s t : State} (h : rleFlush s = .ok t) : Grows s t := by
  unfold rleFlush at h
  split at h
  case h_1 => cases h; exact .refl _
  case h_2 => exact emitLiteral_grows h
  case h_3 => exact emitRepeat_grows h

theorem repeatGroup_grows {n : BitVec 7} {sym : Byte} {s t : State} (h : repeatGroup n sym s = .ok t) : Grows s t :=
  (appendAll_appended h).grows.after grows_of_scratch

theorem literalGroup_grows {n : BitVec 7} {syms : List Byte} {s t : State} (h : literalGroup n syms s = .ok t) :
    Grows s t :=
  (appendAll_appended h).grows.after grows_of_scratch

theorem nextGroup_grows {s t : State} (h : nextGroup s = .ok t) : Grows s t := by
  unfold nextGroup at h
  split at h
  case h_1 => exact repeatGroup_grows h
  case h_2 => exact literalGroup_grows h
  all_goals cases h

theorem rleDecLoop_grows {fuel : Nat} {s t : State} (h : rleDecLoop fuel s = .ok t) : Grows s t :=
  loop_rel (guard := fun s => s.ipos < s.ilen.toNat) (body := nextGroup)
    .refl (fun _ _ _ => .trans) (fun _ => rfl) (fun _ _ => rfl) nextGroup_grows h

/-! ### HUF_DEC -/

/-- A table entry is scratch: it appends nothing. -/
theorem tableEntry_appended {len sym : Byte} {code : List Byte} {s t : State} (h : tableEntry len sym code s = .ok t) :
    Appended s t [] := by
  simp only [tableEntry] at h
  split at h
  · cases h
  · split at h <;> cases h
    exact ⟨rfl, ⟨rfl, rfl⟩, rfl, rfl, .inl rfl⟩

theorem nextEntry_appended {s t : State} (h : nextEntry s = .ok t) : Appended s t [] := by
  unfold nextEntry at h
  split at h
  case h_1 => exact tableEntry_appended h
  all_goals cases h

theorem tableLoop_appended {fuel : Nat} {s t : State} (h : tableLoop fuel s = .ok t) : Appended s t [] :=
  loop_rel (R := fun s t => Appended s t []) (guard := fun s => s.hd.tpos < tableEnd s) (body := nextEntry)
    .refl (fun _ _ _ => .trans) (fun _ => rfl) (fun _ _ => rfl) nextEntry_appended h

theorem mapBit_grows {s t : State} (h : mapBit s = .ok t) : Grows s t := by
  unfold mapBit at h
  dsimp only [unpackBit] at h
  split at h
  · cases h
  · split at h
    · cases h; exact grows_of_scratch
    · obtain ⟨u, hu, h⟩ := except_bind_ok.mp h
      cases h
      exact ((append_appended hu).grows.trans grows_of_scratch).after grows_of_scratch

theorem mapLoop_grows {fuel : Nat} {s t : State} (h : mapLoop fuel s = .ok t) : Grows s t :=
  loop_rel (guard := fun s => s.hd.upIdx < s.hd.hB.toNat) (body := mapBit)
    .refl (fun _ _ _ => .trans) (fun _ => rfl) (fun _ _ => rfl) mapBit_grows h

/-- The payload phase starts at OPOS 0 (43_huffman_decoder.md R219). -/
theorem hufDecPayload_grows {s t : State} (h : hufDecPayload s = .ok t) : Grows { s with opos := 0 } t := by
  unfold hufDecPayload at h
  split at h
  · cases h
  · obtain ⟨u, hu, h⟩ := except_bind_ok.mp h
    split at h <;> cases h
    exact (mapLoop_grows hu).after grows_of_scratch

/-! ### HUF_ENC -/

theorem freqLoop_kept (fuel : Nat) (s : State) : (freqLoop fuel s).kept = s.kept ∧ (freqLoop fuel s).obuf = s.obuf := by
  induction fuel generalizing s with
  | zero => exact ⟨rfl, rfl⟩
  | succ fuel ih =>
    rw [freqLoop]
    split
    · exact ih _
    · exact ⟨rfl, rfl⟩

theorem frequencies_kept (s : State) : (frequencies s).kept = s.kept ∧ (frequencies s).obuf = s.obuf :=
  freqLoop_kept _ _

/-- A symbol without a code has no table entry, a symbol with one has a non-empty entry. -/
theorem writeEntry_ok {sym : Nat} {s t : State} (h : writeEntry sym s = .ok t) :
    (codeLen s.he sym = 0 ∧ t = s) ∨ ∃ vs, vs ≠ [] ∧ Appended s t vs := by
  unfold writeEntry at h
  split at h
  · obtain ⟨u, hu, h⟩ := except_bind_ok.mp h
    obtain ⟨u', hu', h⟩ := except_bind_ok.mp h
    obtain ⟨ws, hws⟩ := packCode_grows h
    exact .inr ⟨_, List.cons_ne_nil _ _, (append_appended hu).trans ((append_appended hu').trans hws)⟩
  · cases h; exact .inl ⟨by omega, rfl⟩

theorem writeEntry_grows {sym : Nat} {s t : State} (h : writeEntry sym s = .ok t) : Grows s t := by
  obtain ⟨-, rfl⟩ | ⟨vs, -, h⟩ := writeEntry_ok h
  · exact .refl t
  · exact h.grows

theorem writeEntries_grows {syms : List Nat} {s t : State} (h : writeEntries syms s = .ok t) : Grows s t := by
  induction syms generalizing s with
  | nil => cases h; exact .refl _
  | cons sym syms ih =>
    obtain ⟨u, hu, h⟩ := except_bind_ok.mp h
    exact (writeEntry_grows hu).trans (ih h)

theorem Grows.codeLen_eq {s t : State} (h : Grows s t) (sym : Nat) : codeLen t.he sym = codeLen s.he sym := by
  rw [codeLen, codeLen, h.clen]

/-- A code table with an entry fits OBUF. -/
theorem writeEntries_fits {syms : List Nat} {s t : State} {sym : Nat} (h : writeEntries syms s = .ok t)
    (hmem : sym ∈ syms) (hcode : codeLen s.he sym ≠ 0) : t.opos ≤ s.cfg.mMax := by
  induction syms generalizing s with
  | nil => cases hmem
  | cons x syms ih =>
    obtain ⟨u, hu, hrest⟩ := except_bind_ok.mp h
    have hgrows := writeEntry_grows hu
    rcases List.mem_cons.mp hmem with rfl | hmem
    · obtain ⟨hzero, -⟩ | ⟨vs, hne, hentry⟩ := writeEntry_ok hu
      · exact absurd hzero hcode
      · have hroom : u.opos ≤ u.cfg.mMax := hentry.cfg ▸ hentry.room.resolve_left hne
        have hfits := (writeEntries_grows hrest).fits hroom
        rwa [hgrows.cfg] at hfits
    · have hfits := ih hrest hmem (by rwa [hgrows.codeLen_eq])
      rwa [hgrows.cfg] at hfits

theorem packSymbol_ok {c : Byte} {s t : State} (h : packSymbol c s = .ok t) :
    codeLen s.he c.toNat ≠ 0 ∧ Grows s t := by
  unfold packSymbol at h
  split at h
  · cases h
  · obtain ⟨u, hu, h⟩ := except_bind_ok.mp h
    cases h
    exact ⟨‹_›, (packBits_grows hu).trans grows_of_scratch⟩

theorem payloadLoop_grows {fuel : Nat} {s t : State} (h : payloadLoop fuel s = .ok t) : Grows s t :=
  loop_rel (guard := fun s => s.ipos < s.ilen.toNat)
    (R := Grows) (body := fun s => packSymbol (readIbuf s s.ipos) { s with ipos := s.ipos + 1 })
    .refl (fun _ _ _ => .trans) (fun _ => rfl) (fun _ _ => rfl)
    (fun h => (packSymbol_ok h).2.after grows_of_scratch) h

/-- The payload of a non-empty input is written only if its first symbol has a code. -/
theorem payloadLoop_codeLen {fuel : Nat} {s t : State} (h : payloadLoop fuel s = .ok t) (hfuel : fuel ≠ 0)
    (hin : s.ipos < s.ilen.toNat) : ∃ c : Byte, codeLen s.he c.toNat ≠ 0 := by
  obtain ⟨fuel, rfl⟩ := Nat.exists_eq_succ_of_ne_zero hfuel
  rw [payloadLoop, if_pos hin] at h
  obtain ⟨u, hu, -⟩ := except_bind_ok.mp h
  exact ⟨_, (packSymbol_ok hu).1⟩

end Sys2Proof.Machine
end

section
/-! SUPPORT. What a codec command leaves: the frame of its procedure and the form of its result (44_codec_interface.md R242
to R244), and that no instruction writes the input or the host's side (10_state.md R24, R33; 20_memory.md R63). -/

namespace Sys2Proof.Machine

/-! ### The result in OBUF -/

/-- OBUF is in canonical form inside its bounds, and every octet from `lo` on up to OPOS is specified. -/
structure OutputOk (lo : Nat) (s : State) : Prop where
  wf : s.obuf.wf = true
  below : s.obuf.below s.cfg.mMax = true
  listed : ∀ a, lo ≤ a → a < s.opos → (Memory.lookup s.obuf a).isSome = true

theorem OutputOk.of_eq {lo : Nat} {s t : State} (h : OutputOk lo s) (hcfg : t.cfg = s.cfg) (hobuf : t.obuf = s.obuf)
    (hopos : t.opos = s.opos) : OutputOk lo t :=
  ⟨hobuf ▸ h.wf, by rw [hobuf, hcfg]; exact h.below, by rw [hobuf, hopos]; exact h.listed⟩

theorem OutputOk.grows {lo : Nat} {s t : State} (h : OutputOk lo s) (hg : Grows s t) : OutputOk lo t := by
  obtain ⟨vs, hvs⟩ := hg
  refine ⟨?_, ?_, fun a hlo hlt => ?_⟩ <;> rw [hvs.obuf]
  · exact Memory.insertAll_wf _ _ h.wf
  · rw [hvs.cfg]
    exact Memory.insertAll_below h.below (hvs.room.imp_right fun hroom => hvs.opos ▸ hroom)
  · rw [hvs.opos] at hlt
    refine Memory.insertAll_listed ?_
    by_cases ha : a < s.opos
    · exact .inr (h.listed a hlo ha)
    · exact .inl ⟨by omega, hlt⟩

/-- A back-fill of the octets before `lo` leaves every octet from its start on specified. -/
theorem OutputOk.backfill {lo a : Nat} {vs : List Byte} {s : State} (h : OutputOk lo s) (hlo : a + vs.length = lo)
    (hfit : lo ≤ s.cfg.mMax) : OutputOk a (writeObufAll a vs s) := by
  have hobuf := writeObufAll_obuf (s := s) (hlo.trans_le hfit)
  refine ⟨writeObufAll_wf a vs h.wf, ?_, fun b hb hlt => ?_⟩ <;> rw [hobuf]
  · rw [writeObufAll_cfg]
    exact Memory.insertAll_below h.below (.inr (hlo.trans_le hfit))
  · rw [writeObufAll_opos] at hlt
    refine Memory.insertAll_listed ?_
    by_cases hlt' : b < lo
    · exact .inl ⟨hb, by omega⟩
    · exact .inr (h.listed b (by omega) hlt)

/-! ### The procedures -/

/-- What a procedure that ends in `t` has done to `s`: its frame is kept, and its result fits OBUF and is specified
throughout. -/
structure Produced (s t : State) : Prop where
  kept : t.kept = s.kept
  fits : t.opos ≤ s.cfg.mMax
  output : s.obuf.wf = true → s.obuf.below s.cfg.mMax = true → OutputOk 0 t

/-- OPOS starts a command at 0 (R30), so that all of the result is appended. -/
theorem Grows.produced {s t : State} (h : Grows { s with opos := 0 } t) : Produced s t where
  kept := h.kept
  fits := h.fits (Nat.zero_le _)
  output hwf hbelow :=
    have hempty : OutputOk 0 { s with opos := 0 } := ⟨hwf, hbelow, fun _ _ hlt => absurd hlt (Nat.not_lt_zero _)⟩
    hempty.grows h

theorem rleEncProc_produced {s t : State} (h : rleEncProc s = .ok t) : Produced s t := by
  unfold rleEncProc at h
  split at h
  · cases h
  · obtain ⟨u, hu, h⟩ := except_bind_ok.mp h
    exact (((rleEncLoop_grows hu).trans (rleFlush_grows h)).after grows_of_scratch).produced

theorem rleDecProc_produced {s t : State} (h : rleDecProc s = .ok t) : Produced s t :=
  ((rleDecLoop_grows h).after grows_of_scratch).produced

/-- The table walk of HUF_DEC appends nothing, so its payload still starts at OPOS 0. -/
theorem hufDecProc_produced {s t : State} (h : hufDecProc s = .ok t) : Produced s t := by
  simp only [hufDecProc] at h
  split at h
  · cases h
  · split at h
    · cases h
    · obtain ⟨u, hu, h⟩ := except_bind_ok.mp h
      have htable := tableLoop_appended hu
      have hrewind : Grows u { u with opos := 0 } := grows_of_scratch (hopos := htable.opos.symm)
      exact (((htable.grows.trans hrewind).trans (hufDecPayload_grows h)).after grows_of_scratch).produced

/-! ### HUF_ENC -/

/-- What the table writer does to a state: the entries from OPOS 12 on, then the field `T` in `OBUF[8..12)`. -/
theorem writeTable_ok {s t : State} (h : writeTable s = .ok t) :
    ∃ u, writeEntries (List.range 256) { s with phase := .hTab, opos := Config.hdrLen } = .ok u ∧
      t = writeObufAll 8 (putBE (u.opos - Config.hdrLen) 4)
        { u with he := { u.he with tlen := u.opos - Config.hdrLen } } := by
  unfold writeTable at h
  obtain ⟨u, hu, h⟩ := except_bind_ok.mp h
  exact ⟨u, hu, (Except.ok.inj h).symm⟩

/-- What the payload writer does to a state: the bits of the input, then the field `B` in `OBUF[0..8)`. -/
theorem writePayload_ok {s t : State} (h : writePayload s = .ok t) :
    ∃ u v, payloadLoop s.ilen.toNat
        (packInit { s with phase := .hPay, ipos := 0, he := { s.he with btot := 0 } }) = .ok u ∧
      packFlush u = .ok v ∧ t = writeObufAll 0 (putBE v.he.btot 8) v := by
  unfold writePayload at h
  obtain ⟨u, hu, h⟩ := except_bind_ok.mp h
  obtain ⟨v, hv, h⟩ := except_bind_ok.mp h
  exact ⟨u, v, hu, hv, (Except.ok.inj h).symm⟩

/-- The steps of HUF_ENC on a non-empty input: a tree from the counters, codes from the tree, the table, the payload. -/
theorem hufEncProc_ok {s t : State} (h : hufEncProc s = .ok t) :
    s.ilen ≠ 0 ∧ ∃ he u, writeTable { frequencies s with phase := .hCode, he := he } = .ok u ∧ writePayload u = .ok t := by
  unfold hufEncProc at h
  dsimp only at h
  split at h
  · cases h
  · obtain ⟨he, -, h⟩ := except_bind_ok.mp h
    obtain ⟨u, hu, h⟩ := except_bind_ok.mp h
    exact ⟨‹_›, he, u, hu, h⟩

/-- The table of a coded symbol fits OBUF. -/
theorem writeTable_fits {s t : State} (h : writeTable s = .ok t) {c : Byte} (hc : codeLen t.he c.toNat ≠ 0) :
    t.opos ≤ s.cfg.mMax := by
  obtain ⟨u, hu, ht⟩ := writeTable_ok h
  rw [ht, writeObufAll_he] at hc
  rw [ht, writeObufAll_opos]
  have hcode := (writeEntries_grows hu).codeLen_eq c.toNat
  exact (writeEntries_fits hu (List.mem_range.mpr c.isLt) (hcode ▸ hc) :)

theorem writeTable_frame {s t : State} (h : writeTable s = .ok t) : t.kept = s.kept ∧ Config.hdrLen ≤ t.opos := by
  obtain ⟨u, hu, ht⟩ := writeTable_ok h
  have hg := writeEntries_grows hu
  rw [ht, writeObufAll_kept, writeObufAll_opos]
  exact ⟨hg.kept, hg.opos_le⟩

/-- A table that fits is specified from the field `T` on. -/
theorem writeTable_output {s t : State} (h : writeTable s = .ok t) (hwf : s.obuf.wf = true)
    (hbelow : s.obuf.below s.cfg.mMax = true) (hfits : t.opos ≤ s.cfg.mMax) : OutputOk 8 t := by
  have hstart := (writeTable_frame h).2
  obtain ⟨u, hu, ht⟩ := writeTable_ok h
  have hg := writeEntries_grows hu
  have hempty : OutputOk Config.hdrLen { s with phase := .hTab, opos := Config.hdrLen } :=
    ⟨hwf, hbelow, fun _ hle hlt => absurd hlt (Nat.not_lt.mpr hle)⟩
  have htable : OutputOk Config.hdrLen { u with he := { u.he with tlen := u.opos - Config.hdrLen } } :=
    (hempty.grows hg).of_eq rfl rfl rfl
  rw [ht]
  refine htable.backfill (by rw [putBE_length]; rfl) ?_
  show Config.hdrLen ≤ u.cfg.mMax
  rw [hg.cfg]
  exact hstart.trans hfits

/-- The payload of a non-empty input is written only if a symbol has a code. -/
theorem writePayload_codeLen {s t : State} (h : writePayload s = .ok t) (hne : s.ilen ≠ 0) :
    ∃ c : Byte, codeLen s.he c.toNat ≠ 0 := by
  obtain ⟨u, v, hu, -, -⟩ := writePayload_ok h
  have hlen : s.ilen.toNat ≠ 0 := fun hzero => hne (BitVec.eq_of_toNat_eq hzero)
  exact (payloadLoop_codeLen hu hlen (Nat.pos_of_ne_zero hlen) :)

theorem writePayload_grows {s t : State} (h : writePayload s = .ok t) :
    ∃ v, Grows s v ∧ t = writeObufAll 0 (putBE v.he.btot 8) v := by
  obtain ⟨u, v, hu, hv, ht⟩ := writePayload_ok h
  exact ⟨v, ((payloadLoop_grows hu).trans (packFlush_grows hv)).after grows_of_scratch, ht⟩

theorem writePayload_frame {s t : State} (h : writePayload s = .ok t) :
    t.kept = s.kept ∧ (s.opos ≤ s.cfg.mMax → t.opos ≤ s.cfg.mMax) := by
  obtain ⟨v, hg, ht⟩ := writePayload_grows h
  rw [ht, writeObufAll_kept, writeObufAll_opos]
  exact ⟨hg.kept, hg.fits⟩

/-- After the field `B` the container is specified throughout. -/
theorem writePayload_output {s t : State} (h : writePayload s = .ok t) (hs : OutputOk 8 s)
    (hfits : Config.hdrLen ≤ s.cfg.mMax) : OutputOk 0 t := by
  obtain ⟨v, hg, ht⟩ := writePayload_grows h
  rw [ht]
  refine (hs.grows hg).backfill (by rw [putBE_length]) ?_
  rw [hg.cfg]
  exact le_trans (by decide) hfits

theorem hufEncProc_produced {s t : State} (h : hufEncProc s = .ok t) : Produced s t := by
  obtain ⟨hne, he, u, hu, ht⟩ := hufEncProc_ok h
  obtain ⟨hfreq, hobuf⟩ := frequencies_kept s
  obtain ⟨htable, hstart⟩ := writeTable_frame hu
  obtain ⟨hpayload, hmono⟩ := writePayload_frame ht
  have hkept : u.kept = s.kept := htable.trans hfreq
  have hcfg : u.cfg = s.cfg := cfg_eq_of_kept hkept
  obtain ⟨c, hc⟩ := writePayload_codeLen ht (ilen_eq_of_kept hkept ▸ hne)
  have hfits : u.opos ≤ u.cfg.mMax := cfg_eq_of_kept htable ▸ writeTable_fits hu hc
  refine ⟨hpayload.trans hkept, hcfg ▸ hmono hfits, fun hwf hbelow => ?_⟩
  have hout : OutputOk 8 u := writeTable_output hu (hobuf ▸ hwf) ?_ (cfg_eq_of_kept htable ▸ hfits)
  · exact writePayload_output ht hout (hstart.trans hfits)
  · show (frequencies s).obuf.below (frequencies s).cfg.mMax = true
    rw [hobuf, cfg_eq_of_kept hfreq]
    exact hbelow

/-! ### The commands -/

/-- Every codec command is its procedure in the frame of R240 and R243, under one of the four opcodes of R242. -/
theorem exec_codec_produced {i : Instr} (hi : (codecFn i).isSome = true) :
    ∃ op proc, (1 ≤ op.toNat ∧ op.toNat ≤ 4) ∧ (∀ s, exec i s = .next (codecCommand op proc s)) ∧
      ∀ {s t}, proc s = .ok t → Produced s t := by
  cases i with
  | rleEnc => exact ⟨1, rleEncProc, by decide, fun _ => rfl, rleEncProc_produced⟩
  | rleDec => exact ⟨2, rleDecProc, by decide, fun _ => rfl, rleDecProc_produced⟩
  | hufEnc => exact ⟨3, hufEncProc, by decide, fun _ => rfl, hufEncProc_produced⟩
  | hufDec => exact ⟨4, hufDecProc, by decide, fun _ => rfl, hufDecProc_produced⟩
  | clr | rleRepeat _ _ | rleLiteral _ _ | hufEntry _ _ _ => cases hi

/-- What a codec command does: outside BUSY it is issued; in BUSY it ends with what its procedure produced, or with an
error. -/
theorem exec_codec_cases {i : Instr} {s t : State} (hi : (codecFn i).isSome = true) (h : exec i s = .next t) :
    (s.runState ≠ .busy ∧ ∃ op : BitVec 3, (1 ≤ op.toNat ∧ op.toNat ≤ 4) ∧ t = issue op s) ∨
    (s.runState = .busy ∧ ∃ u, Produced s u ∧ t = completeDone u) ∨
    (s.runState = .busy ∧ ∃ k, t = failCommand k s) := by
  obtain ⟨op, proc, hop, hexec, hproc⟩ := exec_codec_produced hi
  rw [hexec] at h
  cases h
  by_cases hb : s.runState = .busy
  · rw [codecCommand_busy hb]
    refine .inr ?_
    obtain ⟨-, hrefused⟩ | ⟨-, hrun⟩ := execute_cases proc s
    · exact .inr ⟨hb, _, hrefused⟩
    · obtain ⟨u, hu, hdone⟩ | ⟨k, -, hfail⟩ := complete_cases s (proc s)
      · exact .inl ⟨hb, u, hproc hu, hrun.trans hdone⟩
      · exact .inr ⟨hb, k, hrun.trans hfail⟩
  · rw [codecCommand_free hb]
    exact .inl ⟨hb, op, hop, rfl⟩

/-- CLR is ignored in BUSY (R246). -/
theorem exec_clr_cases {s t : State} (h : exec .clr s = .next t) :
    (s.runState = .busy ∧ t = s) ∨ (s.runState ≠ .busy ∧ t = clearStatus s) := by
  have ht : (if s.runState = .busy then s else clearStatus s) = t := Host.Outcome.next.inj h
  split at ht
  · exact .inl ⟨‹_›, ht.symm⟩
  · exact .inr ⟨‹_›, ht.symm⟩

/-! ### The input and the host's side -/

/-- `t` has the input, the parameters and the host's side of `s`. -/
structure SameInput (s t : State) : Prop where
  ilen : t.ilen = s.ilen
  ibuf : t.ibuf = s.ibuf
  ibufEpoch : t.ibufEpoch = s.ibufEpoch
  cfg : t.cfg = s.cfg
  port : t.port = s.port
  reply : t.reply = s.reply

theorem SameInput.refl (s : State) : SameInput s s := ⟨rfl, rfl, rfl, rfl, rfl, rfl⟩

theorem sameInput_of_kept {s t : State} (h : t.kept = s.kept) : SameInput s t := by
  have hsame : SameInput s.kept t.kept := h ▸ .refl _
  exact ⟨hsame.ilen, hsame.ibuf, hsame.ibufEpoch, hsame.cfg, hsame.port, hsame.reply⟩

theorem issue_sameInput (op : BitVec 3) (s : State) : SameInput s (issue op s) := ⟨rfl, rfl, rfl, rfl, rfl, rfl⟩

theorem clearStatus_sameInput (s : State) : SameInput s (clearStatus s) := ⟨rfl, rfl, rfl, rfl, rfl, rfl⟩

theorem failCommand_sameInput (k : ErrorKind) (s : State) : SameInput s (failCommand k s) :=
  ⟨rfl, rfl, rfl, rfl, rfl, rfl⟩

theorem completeDone_sameInput {s t : State} (h : SameInput s t) : SameInput s (completeDone t) :=
  ⟨h.ilen, h.ibuf, h.ibufEpoch, h.cfg, h.port, h.reply⟩

/-- A stream-level instruction keeps the input if its decoder's action keeps the frame. -/
theorem streamStep_sameInput {s : State} {r : Except ErrorKind State} (h : ∀ {t}, r = .ok t → t.kept = s.kept) :
    SameInput s (streamStep s r) := by
  cases r with
  | ok t => exact sameInput_of_kept (h rfl)
  | error k => exact failCommand_sameInput k s

theorem execCodec_sameInput {i : Instr} {s t : State} (hi : (codecFn i).isSome = true) (h : exec i s = .next t) :
    SameInput s t := by
  obtain ⟨-, op, -, rfl⟩ | ⟨-, u, hu, rfl⟩ | ⟨-, k, rfl⟩ := exec_codec_cases hi h
  · exact issue_sameInput op s
  · exact completeDone_sameInput (sameInput_of_kept hu.kept)
  · exact failCommand_sameInput k s

theorem exec_sameInput {i : Instr} {s t : State} (h : exec i s = .next t) : SameInput s t := by
  cases i with
  | clr =>
    obtain ⟨-, rfl⟩ | ⟨-, rfl⟩ := exec_clr_cases h
    · exact .refl t
    · exact clearStatus_sameInput s
  | rleEnc | rleDec | hufEnc | hufDec => exact execCodec_sameInput rfl h
  | rleRepeat n sym =>
    cases h
    exact streamStep_sameInput fun h => (repeatGroup_grows h).kept
  | rleLiteral n syms =>
    simp only [exec, execRleLiteral] at h
    split at h <;> cases h
    exact streamStep_sameInput fun h => (literalGroup_grows h).kept
  | hufEntry len sym code =>
    simp only [exec, execHufEntry] at h
    split at h <;> cases h
    exact streamStep_sameInput fun h => (tableEntry_appended h).kept

/-- Settles O30: procedures write OBUF and scratch only, and issue, completion and errors leave the input as it is. -/
theorem noInstructionWritesTheInput : Obligations.NoInstructionWritesTheInput := by
  intro i s t h
  have hsame := exec_sameInput h
  exact ⟨hsame.ilen, readIbuf_congr hsame.ibuf hsame.ibufEpoch, hsame.ibuf, hsame.cfg, hsame.port, hsame.reply⟩

end Sys2Proof.Machine
end

section
/-! SUPPORT. The invariant of the states at rest (10_state.md R23, R25, R31, R34; 44_codec_interface.md R242, R244;
20_memory.md R60): the reset state has it and every step keeps it. -/

namespace Sys2Proof.Machine

/-! ### States without a result -/

/-- A state in IDLE or ERROR with OBUF forgotten has no result to speak of: what is left is STATUS, PHASE and IBUF. -/
theorem inv_of_noResult {s : State} (hvalid : s.cfg.Valid) (hstatus : s.statusOk)
    (hrest : s.runState = .idle ∨ s.runState = .error) (hphase : s.phase = .idle) (holen : s.olen = 0)
    (hibuf : s.ibuf.wf = true ∧ s.ibuf.below s.cfg.nMax = true) (hobuf : s.obuf = []) : s.Inv := by
  obtain ⟨hfree, hnotDone⟩ : s.runState ≠ .busy ∧ s.runState ≠ .done := by
    rcases hrest with h | h <;> rw [h] <;> decide
  exact
    { valid := hvalid
      status := hstatus
      op := fun hb => absurd hb hfree
      phase := hphase.trans (if_neg hfree).symm
      result := fun hd => absurd hd hnotDone
      olen := fun _ => holen
      buffers := ⟨hibuf.1, hobuf ▸ rfl, hibuf.2, hobuf ▸ rfl⟩ }

theorem resetWith_inv {c : Config} (hc : c.Valid) : (State.resetWith c).Inv :=
  inv_of_noResult hc (by simp [State.statusOk, State.resetWith]) (.inl rfl) rfl rfl ⟨rfl, rfl⟩ rfl

theorem resetFrom_inv {s : State} (hs : s.Inv) : (resetFrom s).Inv :=
  inv_of_noResult hs.valid (by simp [State.statusOk]) (.inl rfl) rfl rfl ⟨rfl, rfl⟩ rfl

theorem State.Inv.ibuf {s : State} (hs : s.Inv) : s.ibuf.wf = true ∧ s.ibuf.below s.cfg.nMax = true :=
  ⟨hs.buffers.1, hs.buffers.2.2.1⟩

theorem State.Inv.obuf {s : State} (hs : s.Inv) : s.obuf.wf = true ∧ s.obuf.below s.cfg.mMax = true :=
  ⟨hs.buffers.2.1, hs.buffers.2.2.2⟩

theorem State.Inv.phase_idle {s : State} (hs : s.Inv) (hfree : s.runState ≠ .busy) : s.phase = .idle :=
  hs.phase.trans (if_neg hfree)

theorem raiseError_inv {s : State} (k : ErrorKind) (hs : s.Inv) : (raiseError k s).Inv :=
  inv_of_noResult hs.valid (by simp [State.statusOk]) (.inr rfl) rfl rfl hs.ibuf rfl

theorem failCommand_inv {s : State} (k : ErrorKind) (hs : s.Inv) : (failCommand k s).Inv :=
  inv_of_noResult hs.valid (by simp [State.statusOk]) (.inr rfl) rfl rfl hs.ibuf rfl

theorem clearStatus_inv {s : State} (hs : s.Inv) (hfree : s.runState ≠ .busy) : (clearStatus s).Inv :=
  inv_of_noResult hs.valid (by simp [State.statusOk]) (.inl rfl) (hs.phase_idle hfree) rfl hs.ibuf rfl

/-! ### Issue and completion -/

theorem issue_inv {s : State} {op : BitVec 3} (hs : s.Inv) (hop : 1 ≤ op.toNat ∧ op.toNat ≤ 4) : (issue op s).Inv where
  valid := hs.valid
  status := by simp [State.statusOk]
  op _ := hop
  phase := rfl
  result hd := by simp at hd
  olen hrest := by simp at hrest
  buffers := ⟨hs.ibuf.1, rfl, hs.ibuf.2, rfl⟩

/-- The OPOS octets that a procedure has produced are a result (R244). -/
theorem completeDone_inv {s t : State} (hs : s.Inv) (h : Produced s t) : (completeDone t).Inv := by
  obtain ⟨hwf, hbelow, hlisted⟩ := h.output hs.obuf.1 hs.obuf.2
  have hcfg : t.cfg = s.cfg := cfg_eq_of_kept h.kept
  have hibuf : t.ibuf = s.ibuf := (sameInput_of_kept h.kept).ibuf
  have holen : (completeDone t).olen.toNat ≤ t.opos := by
    rw [completeDone_olen, BitVec.toNat_ofNat]; exact Nat.mod_le _ _
  exact
    { valid := hcfg ▸ hs.valid
      status := by simp [State.statusOk]
      op := fun hb => by simp at hb
      phase := rfl
      result := fun _ => ⟨by rw [completeDone_cfg, hcfg]; exact holen.trans h.fits,
        fun a ha => hlisted a (Nat.zero_le a) (ha.trans_le holen)⟩
      olen := fun hrest => by simp at hrest
      buffers := ⟨hibuf ▸ hs.ibuf.1, hwf, by rw [completeDone_ibuf, completeDone_cfg, hibuf, hcfg]; exact hs.ibuf.2,
        hbelow⟩ }

theorem execCodec_inv {i : Instr} {s t : State} (hi : (codecFn i).isSome = true) (hs : s.Inv) (h : exec i s = .next t) :
    t.Inv := by
  obtain ⟨-, op, hop, rfl⟩ | ⟨-, u, hu, rfl⟩ | ⟨-, k, rfl⟩ := exec_codec_cases hi h
  · exact issue_inv hs hop
  · exact completeDone_inv hs hu
  · exact failCommand_inv k hs

theorem execClr_inv {s t : State} (hs : s.Inv) (h : exec .clr s = .next t) : t.Inv := by
  obtain ⟨-, rfl⟩ | ⟨hfree, rfl⟩ := exec_clr_cases h
  · exact hs
  · exact clearStatus_inv hs hfree

/-! ### The host's reads and writes -/

/-- A read of a register changes nothing but, for OLEN in BUSY, the count of draws (log 6). -/
theorem readReg_state {n : Nat} {s : State} {r : Word × State} (h : readReg n s = some r) :
    r.2 = s ∨ r.2 = { s with fresh := s.fresh + 1 } := by
  unfold readReg at h
  split at h
  case h_4 =>
    split at h <;> cases h
    · exact .inr rfl
    · exact .inl rfl
  case h_9 => cases h
  all_goals cases h; exact .inl rfl

/-- A read of an octet changes nothing but, for OBUF in BUSY, the count of draws (log 6). -/
theorem readOctet_state {sp : OctetSpace} {a : Nat} {s : State} {r : Byte × State} (h : readOctet sp a s = some r) :
    r.2 = s ∨ r.2 = { s with fresh := s.fresh + 1 } := by
  cases sp with
  | ibuf =>
    simp only [readOctet] at h
    split at h <;> cases h
    exact .inl rfl
  | obuf =>
    simp only [readOctet] at h
    split at h
    · split at h <;> cases h
      · exact .inr rfl
      · exact .inl rfl
    · cases h
  | tagRle | tagHuf => obtain ⟨_, -, rfl⟩ := Option.map_eq_some_iff.mp h; exact .inl rfl

/-- A write of a register other than CMD stores ILEN outside BUSY, or changes nothing. -/
theorem writeReg_state {n : Nat} {v : Word} {s t : State} (h : writeReg n v s = some t) :
    t = s ∨ t = { s with ilen := v } := by
  unfold writeReg at h
  split at h
  · split at h <;> cases h
    · exact .inl rfl
    · exact .inr rfl
  · split at h <;> cases h
    exact .inl rfl

/-- A write of an octet lists it in IBUF outside BUSY, or changes nothing. -/
theorem writeOctet_state {sp : OctetSpace} {a : Nat} {v : Byte} {s t : State} (h : writeOctet sp a v s = some t) :
    t = s ∨ (a < s.cfg.nMax ∧ t = { s with ibuf := Memory.insert s.ibuf a v }) := by
  cases sp with
  | ibuf =>
    simp only [writeOctet] at h
    split at h
    · split at h <;> cases h
      · exact .inl rfl
      · exact .inr ⟨‹_›, rfl⟩
    · cases h
  | obuf | tagRle | tagHuf =>
    simp only [writeOctet] at h
    split at h <;> cases h
    exact .inl rfl

/-- The invariant says nothing of ILEN and of the model's own fields. -/
theorem State.Inv.setHostSide {s : State} (hs : s.Inv) (ilen : Word) (port : List PortEvent) (reply : Reply)
    (fresh : Nat) : State.Inv { s with ilen := ilen, port := port, reply := reply, fresh := fresh } :=
  ⟨hs.valid, hs.status, hs.op, hs.phase, hs.result, hs.olen, hs.buffers⟩

/-- The state after a read, with its answer, has the invariant. -/
theorem read_inv {s t : State} (reply : Reply) (hs : s.Inv) (h : t = s ∨ t = { s with fresh := s.fresh + 1 }) :
    State.Inv { t with reply := reply } := by
  rcases h with rfl | rfl
  · exact hs.setHostSide t.ilen t.port reply t.fresh
  · exact hs.setHostSide s.ilen s.port reply (s.fresh + 1)

theorem writeReg_inv {n : Nat} {v : Word} {s t : State} (hs : s.Inv) (h : writeReg n v s = some t) : t.Inv := by
  obtain rfl | rfl := writeReg_state h
  · exact hs
  · exact hs.setHostSide v s.port s.reply s.fresh

theorem writeOctet_inv {sp : OctetSpace} {a : Nat} {v : Byte} {s t : State} (hs : s.Inv)
    (h : writeOctet sp a v s = some t) : t.Inv := by
  obtain rfl | ⟨ha, rfl⟩ := writeOctet_state h
  · exact hs
  · exact ⟨hs.valid, hs.status, hs.op, hs.phase, hs.result, hs.olen, Memory.insert_wf a v hs.ibuf.1, hs.obuf.1,
      Memory.insert_below v hs.ibuf.2 ha, hs.obuf.2⟩

/-! ### The step -/

theorem commandWrite_inv {v : Word} {s t : State} (hs : s.Inv) (h : commandWrite v s = .next t) : t.Inv := by
  unfold commandWrite at h
  split at h
  · cases h; exact hs
  · split at h
    next i hi =>
      rcases decodeCommand_ok hi with rfl | hcodec
      · exact execClr_inv hs h
      · exact execCodec_inv hcodec hs h
    next => cases h; exact raiseError_inv .badCommand hs

theorem sequencerTurn_inv {s t : State} (hs : s.Inv) (h : sequencerTurn s = .next t) : t.Inv := by
  unfold sequencerTurn at h
  rcases fetch_atRest hs.phase with hf | ⟨i, hi, hf⟩ | hf
  · rw [hf] at h; cases h; exact hs
  · rw [hf] at h; exact execCodec_inv (opInstr_some hi) hs h
  · rw [hf] at h; cases h

theorem portStep_inv {e : PortEvent} {s t : State} (hs : s.Inv) (h : portStep e s = .next t) : t.Inv := by
  cases e with
  | readReg n =>
    obtain ⟨p, hp, rfl⟩ := answerWord_next h
    exact read_inv _ hs (readReg_state hp)
  | writeReg n v =>
    simp only [portStep] at h
    split at h
    · exact commandWrite_inv hs h
    · exact writeReg_inv hs (answerWrite_next h)
  | readOctet sp a =>
    obtain ⟨p, hp, rfl⟩ := answerOctet_next h
    exact read_inv _ hs (readOctet_state hp)
  | writeOctet sp a v => exact writeOctet_inv hs (answerWrite_next h)
  | reset => cases h; exact resetFrom_inv hs
  | turn => exact sequencerTurn_inv hs h

/-- Settles O32, by the kinds of events: the host's, reset, and the sequencer's turn, which at rest executes a whole
command. -/
theorem stepKeepsTheInvariant : Obligations.StepKeepsTheInvariant := by
  intro s t hs h
  unfold step at h
  split at h
  next => exact sequencerTurn_inv hs h
  next e es _ => exact portStep_inv (hs.setHostSide s.ilen es s.reply s.fresh) h

/-- Settles O11. -/
theorem resetMeetsTheInvariant : Obligations.ResetMeetsTheInvariant :=
  ⟨resetWith_inv (by decide), by decide, rfl, rfl, rfl, fun _ => resetWith_inv⟩

end Sys2Proof.Machine
end

section
/-! SUPPORT. Reset and the host port (10_state.md R23, R33, R34, R46; 20_memory.md R60 to R64): what each event that heads
the host's list does. -/

namespace Sys2Proof.Machine

theorem step_event {s : State} {e : PortEvent} {es : List PortEvent} (h : s.port = e :: es) :
    step s = portStep e { s with port := es } := by
  unfold step
  rw [h]

/-! ### Reset -/

theorem readOctet_tagRle (a : Nat) (s : State) : (readOctet .tagRle a s).map Prod.fst = Config.tagRle[a]? := by
  simp [readOctet, Function.comp_def]

theorem readOctet_tagHuf (a : Nat) (s : State) : (readOctet .tagHuf a s).map Prod.fst = Config.tagHuf[a]? := by
  simp [readOctet, Function.comp_def]

/-- Settles O10: the step of a reset event is `resetFrom`, whose fields are those of R46. -/
theorem resetLeavesTheStatedValues : Obligations.ResetLeavesTheStatedValues := by
  intro s es h
  refine ⟨resetFrom { s with port := es }, step_event h, rfl, rfl, ?_, rfl, rfl, rfl, rfl, rfl, rfl, rfl, rfl, rfl,
    fun a => ⟨readOctet_tagRle a _, readOctet_tagHuf a _⟩, fun _ => ⟨rfl, rfl⟩⟩
  rw [statusWord, resetFrom_runState, resetFrom_errKind]
  decide

/-! ### STATUS -/

/-- The fields of a word laid out as STATUS is. -/
theorem statusLayout (e : BitVec 4) (r : BitVec 2) :
    let w : Word := (0 : BitVec 56) ++ (e ++ ((0 : BitVec 2) ++ r))
    w.extractLsb' 0 2 = r ∧ w.extractLsb' 2 2 = 0 ∧ w.extractLsb' 4 4 = e ∧ w.extractLsb' 8 56 = 0 := by
  decide +revert

theorem errCode_ne_zero {e : Option ErrorKind} : errCode e ≠ 0 ↔ e ≠ none := by
  cases e with
  | none => decide
  | some k => cases k <;> decide

theorem runState_code_eq_error {r : RunState} : r.code = 3 ↔ r = .error := by cases r <;> decide

/-- Settles O12: the four fields of the word, and the invariant of STATUS read in two of them. -/
theorem statusWordLayout : Obligations.StatusWordLayout := by
  intro s
  obtain ⟨hstate, hlow, herr, hhigh⟩ := statusLayout (errCode s.errKind) s.runState.code
  change (statusWord s).extractLsb' 0 2 = _ at hstate
  change (statusWord s).extractLsb' 4 4 = _ at herr
  refine ⟨?_, hlow, ?_, hhigh, ?_, fun es h => ?_, fun v es h => ?_⟩
  · rw [hstate]; cases s.runState <;> rfl
  · rw [herr]
    cases s.errKind with
    | none => rfl
    | some k => cases k <;> rfl
  · intro hinv
    rw [herr, hstate, errCode_ne_zero, runState_code_eq_error]
    exact hinv.status
  · rw [step_event h]; rfl
  · rw [step_event h]; rfl

/-! ### The buffers -/

/-- A write to IBUF is read back, and changes no other octet. -/
theorem readIbuf_insert (s : State) (a b : Nat) (v : Byte) :
    readIbuf { s with ibuf := Memory.insert s.ibuf a v } b = if b = a then v else readIbuf s b := by
  simp only [readIbuf, Memory.lookup_insert]
  split <;> rfl

/-- Settles O14: the write lists the octet in IBUF, and the read answers it. -/
theorem hostInputBufferAccess : Obligations.HostInputBufferAccess := by
  refine ⟨fun s es a v h ha hfree => ?_, fun s es a h ha => ?_⟩
  · have hstep : step s = .next { s with port := es, ibuf := Memory.insert s.ibuf a v } := by
      simp only [step_event h, portStep, writeOctet, if_pos ha, if_neg hfree, answerWrite]
    have hread := readIbuf_insert { s with port := es } a
    exact ⟨_, hstep, rfl, (hread a v).trans (if_pos rfl), fun b hb => (hread b v).trans (if_neg hb)⟩
  · simp only [step_event h, portStep, readOctet, if_pos ha, answerOctet]
    rfl

/-- Settles O15. -/
theorem hostOutputBufferAccess : Obligations.HostOutputBufferAccess := by
  refine ⟨fun s es a h ha hfree => ?_, fun s es a v h ha => ?_⟩
  · simp only [step_event h, portStep, readOctet, if_pos ha, if_neg hfree, answerOctet]
    rfl
  · simp only [step_event h, portStep, writeOctet, if_pos ha, answerWrite]

end Sys2Proof.Machine
end

section
/-! SUPPORT. The host's accesses (20_memory.md R60 to R65, R76): the registers in and out of BUSY, the indices that do not
exist, and the BUSY window. -/

namespace Sys2Proof.Machine

/-! ### The step of an access -/

section
variable {s t : State} {es : List PortEvent}

theorem step_readReg {n : Nat} {v : Word} (h : s.port = .readReg n :: es)
    (hread : readReg n { s with port := es } = some (v, t)) : step s = .next { t with reply := .word v } :=
  (step_event h).trans (congrArg answerWord hread)

theorem step_writeCmd {v : Word} (h : s.port = .writeReg 0 v :: es) : step s = commandWrite v { s with port := es } :=
  step_event h

theorem step_writeReg {n : Nat} {v : Word} (h : s.port = .writeReg n v :: es) (hcmd : n ≠ 0)
    (hwrite : writeReg n v { s with port := es } = some t) : step s = .next t :=
  (step_event h).trans ((if_neg hcmd).trans (congrArg answerWrite hwrite))

theorem step_readOctet {sp : OctetSpace} {a : Nat} {v : Byte} (h : s.port = .readOctet sp a :: es)
    (hread : readOctet sp a { s with port := es } = some (v, t)) : step s = .next { t with reply := .octet v } :=
  (step_event h).trans (congrArg answerOctet hread)

theorem step_writeOctet {sp : OctetSpace} {a : Nat} {v : Byte} (h : s.port = .writeOctet sp a v :: es)
    (hwrite : writeOctet sp a v { s with port := es } = some t) : step s = .next t :=
  (step_event h).trans (congrArg answerWrite hwrite)

end

/-! ### Indices that do not exist -/

/-- The number of indices of an octet space (20_memory.md R60). -/
def OctetSpace.size (c : Config) : OctetSpace → Nat
  | .ibuf => c.nMax
  | .obuf => c.mMax
  | .tagRle => Config.tagRle.length
  | .tagHuf => Config.tagHuf.length

theorem readReg_missing {n : Nat} (hn : 7 < n) (s : State) : readReg n s = none := by
  unfold readReg
  split
  case h_9 => rfl
  all_goals omega

theorem writeReg_missing {n : Nat} (hn : 7 < n) (v : Word) (s : State) : writeReg n v s = none := by
  rw [writeReg, if_neg (by omega), if_neg (by omega)]

theorem readOctet_missing {sp : OctetSpace} {a : Nat} {s : State} (ha : sp.size s.cfg ≤ a) : readOctet sp a s = none := by
  cases sp with
  | ibuf | obuf => exact if_neg (Nat.not_lt.mpr ha)
  | tagRle | tagHuf => exact Option.map_eq_none_iff.mpr (List.getElem?_eq_none ha)

theorem writeOctet_missing {sp : OctetSpace} {a : Nat} {s : State} (v : Byte) (ha : sp.size s.cfg ≤ a) :
    writeOctet sp a v s = none := by
  cases sp with
  | ibuf | obuf | tagRle | tagHuf => exact if_neg (Nat.not_lt.mpr ha)

/-- Settles O17: an access answers from `readReg`, `writeReg`, `readOctet` or `writeOctet`, and each has nothing there. -/
theorem missingIndexIsNoAction : Obligations.MissingIndexIsNoAction := by
  intro s e es h hmissing
  rw [step_event h]
  cases e with
  | readReg n => exact congrArg answerWord (readReg_missing hmissing _)
  | writeReg n v =>
    have hcmd : n ≠ 0 := Nat.ne_of_gt (Nat.zero_lt_of_lt hmissing)
    exact (if_neg hcmd).trans (congrArg answerWrite (writeReg_missing hmissing v _))
  | readOctet sp a =>
    have ha : sp.size s.cfg ≤ a := by cases sp <;> exact hmissing
    exact congrArg answerOctet (readOctet_missing (s := { s with port := es }) ha)
  | writeOctet sp a v =>
    have ha : sp.size s.cfg ≤ a := by cases sp <;> exact hmissing
    exact congrArg answerWrite (writeOctet_missing (s := { s with port := es }) v ha)
  | reset | turn => exact hmissing.elim

/-! ### Registers -/

theorem readReg_olen_free {s : State} (hfree : s.runState ≠ .busy) : readReg 3 s = some (s.olen, s) := if_neg hfree

theorem readReg_olen_busy {s : State} (hbusy : s.runState = .busy) :
    readReg 3 s = some (Config.olenFree s.fresh, { s with fresh := s.fresh + 1 }) := if_pos hbusy

theorem writeReg_ilen_free {s : State} (v : Word) (hfree : s.runState ≠ .busy) :
    writeReg 2 v s = some { s with ilen := v } := by
  rw [writeReg, if_pos rfl, if_neg hfree]

/-- A write to a register that exists is ignored: to ILEN in BUSY, to any register but ILEN in every state. -/
theorem writeReg_ignored {n : Nat} {s : State} (v : Word) (hn : n < 8) (h : n = 2 → s.runState = .busy) :
    writeReg n v s = some s := by
  by_cases hilen : n = 2
  · rw [writeReg, if_pos hilen, if_pos (h hilen)]
  · rw [writeReg, if_neg hilen, if_pos hn]

theorem commandWrite_busy {s : State} (v : Word) (hbusy : s.runState = .busy) : commandWrite v s = .next s :=
  if_pos hbusy

theorem commandWrite_ok {s : State} {v : Word} {i : Instr} (hfree : s.runState ≠ .busy) (hv : decodeCommand v = .ok i) :
    commandWrite v s = exec i s := by
  rw [commandWrite, if_neg hfree, hv]

theorem commandWrite_error {s : State} {v : Word} {e : Reject} (hfree : s.runState ≠ .busy)
    (hv : decodeCommand v = .error e) : commandWrite v s = .next (raiseError .badCommand s) := by
  rw [commandWrite, if_neg hfree, hv]

/-- Settles O13: a read answers what `readReg` gives; a write goes to `commandWrite` for CMD and to `writeReg` otherwise. -/
theorem hostRegisterAccess : Obligations.HostRegisterAccess := by
  constructor
  · intro s es n h
    refine ⟨?cmd, ?status, ?ilen, ?olen, ?olenBusy, ?capIn, ?capOut, ?reserved⟩
    case olen => rintro rfl hfree; exact step_readReg h (readReg_olen_free hfree)
    case olenBusy => rintro rfl hbusy; exact ⟨_, step_readReg h (readReg_olen_busy hbusy)⟩
    case reserved => rintro (rfl | rfl) <;> exact step_readReg h rfl
    all_goals rintro rfl; exact step_readReg h rfl
  · intro s es n v h
    refine ⟨?store, ?storeBusy, ?readOnly, ?commandBusy, ?command, ?badCommand⟩
    case store => rintro rfl hfree; exact step_writeReg h (by decide) (writeReg_ilen_free v hfree)
    case storeBusy => rintro rfl hbusy; exact step_writeReg h (by decide) (writeReg_ignored v (by decide) fun _ => hbusy)
    case readOnly => intro hn; exact step_writeReg h (by omega) (writeReg_ignored v (by omega) (by omega))
    case commandBusy => rintro rfl hbusy; exact (step_writeCmd h).trans (commandWrite_busy v hbusy)
    case command => rintro rfl hfree i hv; exact (step_writeCmd h).trans (commandWrite_ok hfree hv)
    case badCommand => rintro rfl hfree e hv; exact (step_writeCmd h).trans (commandWrite_error hfree hv)

/-! ### The BUSY window -/

/-- In BUSY there is no error kind, so STATUS reads 1 (10_state.md R23). -/
theorem statusWord_busy {s : State} (hbusy : s.runState = .busy) (hs : s.statusOk) : statusWord s = 1 := by
  have hnone : s.errKind = none := by
    by_contra hk
    exact absurd (hbusy.symm.trans (hs.mp hk)) (by decide)
  rw [statusWord, hnone, hbusy]
  decide

theorem step_writeReg_busy {n : Nat} {v : Word} {s : State} {es : List PortEvent} (h : s.port = .writeReg n v :: es)
    (hbusy : s.runState = .busy) (hn : n < 8) : step s = .next { s with port := es } := by
  by_cases hcmd : n = 0
  · subst hcmd
    exact (step_writeCmd h).trans (commandWrite_busy v hbusy)
  · exact step_writeReg h hcmd (writeReg_ignored v hn fun _ => hbusy)

theorem writeOctet_busy {sp : OctetSpace} {a : Nat} {s : State} (v : Byte) (hbusy : s.runState = .busy)
    (ha : a < sp.size s.cfg) : writeOctet sp a v s = some s := by
  cases sp with
  | ibuf => exact (if_pos ha).trans (congrArg some (if_pos hbusy))
  | obuf | tagRle | tagHuf => exact if_pos ha

theorem readOctet_ibuf {a : Nat} {s : State} (ha : a < s.cfg.nMax) : readOctet .ibuf a s = some (readIbuf s a, s) :=
  if_pos ha

theorem readOctet_obuf_busy {a : Nat} {s : State} (hbusy : s.runState = .busy) (ha : a < s.cfg.mMax) :
    readOctet .obuf a s = some (Config.obufFree s.fresh a, { s with fresh := s.fresh + 1 }) :=
  (if_pos ha).trans (if_pos hbusy)

theorem getElem?_eq_getD {os : List Byte} {a : Nat} (ha : a < os.length) : os[a]? = some (os.getD a 0) := by
  rw [List.getElem?_eq_getElem ha, List.getD_eq_getElem _ _ ha]

theorem readOctet_tagRle_of_lt {a : Nat} (s : State) (ha : a < 8) :
    readOctet .tagRle a s = some (Config.tagRle.getD a 0, s) :=
  congrArg (Option.map fun o => (o, s)) (getElem?_eq_getD ha)

theorem readOctet_tagHuf_of_lt {a : Nat} (s : State) (ha : a < 12) :
    readOctet .tagHuf a s = some (Config.tagHuf.getD a 0, s) :=
  congrArg (Option.map fun o => (o, s)) (getElem?_eq_getD ha)

/-- Settles O18, by the kinds of accesses. -/
theorem busyWindowIgnoresWrites : Obligations.BusyWindowIgnoresWrites := by
  intro s e es h hbusy hs
  cases e with
  | writeReg n v => exact step_writeReg_busy h hbusy
  | writeOctet sp a v =>
    have hignored : a < sp.size s.cfg → step s = .next { s with port := es } :=
      fun ha => step_writeOctet h (writeOctet_busy v hbusy ha)
    cases sp <;> exact hignored
  | readReg n =>
    match n, h with
    | 0, _ | _ + 6, _ => trivial
    | 1, h => rw [← statusWord_busy hbusy hs.status]; exact step_readReg h rfl
    | 2, h | 4, h | 5, h => exact step_readReg h rfl
    | 3, h => exact ⟨_, step_readReg h (readReg_olen_busy hbusy)⟩
  | readOctet sp a =>
    cases sp with
    | ibuf => exact fun ha => step_readOctet h (readOctet_ibuf ha)
    | obuf => exact fun ha => ⟨_, step_readOctet h (readOctet_obuf_busy hbusy ha)⟩
    | tagRle => exact fun ha => step_readOctet h (readOctet_tagRle_of_lt _ ha)
    | tagHuf => exact fun ha => step_readOctet h (readOctet_tagHuf_of_lt _ ha)
  | reset | turn => trivial

end Sys2Proof.Machine
end

section
/-! SUPPORT. The three formats (30_encoding.md R90): for each decoder, that it accepts exactly the encodings of the
well-formed instructions of its format, the rest being what follows. Both round trips are the two directions of that. -/

namespace Sys2Proof.Machine

/-! ### Command words -/

/-- A command word with bits 63:3 clear is the word of its opcode (30_encoding.md R91). -/
theorem commandWord_opcode {w : Word} (h : w.extractLsb' 3 61 = 0) : commandWord (w.extractLsb' 0 3) = w := by
  have hhigh := congrArg BitVec.toNat h
  simp only [BitVec.extractLsb'_toNat, Nat.shiftRight_eq_div_pow] at hhigh
  apply BitVec.eq_of_toNat_eq
  simp only [commandWord, BitVec.toNat_setWidth, BitVec.extractLsb'_toNat, Nat.shiftRight_zero]
  simp only [BitVec.ofNat_eq_ofNat, BitVec.toNat_ofNat] at hhigh
  omega

theorem decodeCommand_encode {w : Word} {i : Instr} (h : encode i = .command w) : decodeCommand w = .ok i := by
  cases i with
  | clr | rleEnc | rleDec | hufEnc | hufDec => cases h; decide
  | rleRepeat _ _ | rleLiteral _ _ | hufEntry _ _ _ => cases h

theorem encode_of_decodeCommand {w : Word} {i : Instr} (h : decodeCommand w = .ok i) : encode i = .command w := by
  unfold decodeCommand at h
  split at h
  case isFalse => cases h
  case isTrue hhigh =>
    rw [← commandWord_opcode hhigh]
    split at h <;> cases h
    all_goals
      next hop => exact congrArg (Code.command ∘ commandWord) (BitVec.eq_of_toNat_eq hop).symm

theorem decodeCommand_eq_ok_iff {w : Word} {i : Instr} : decodeCommand w = .ok i ↔ encode i = .command w :=
  ⟨encode_of_decodeCommand, decodeCommand_encode⟩

theorem wellFormed_of_encode_command {w : Word} {i : Instr} (h : encode i = .command w) : i.WellFormed := by
  cases i with
  | clr | rleEnc | rleDec | hufEnc | hufDec => rfl
  | rleRepeat _ _ | rleLiteral _ _ | hufEntry _ _ _ => cases h

/-- With bits 63:3 clear, the reserved opcodes are 5, 6 and 7 (30_encoding.md R93). -/
theorem decodeCommand_commandWord_reserved_iff :
    ∀ op : BitVec 3, decodeCommand (commandWord op) = .error .reservedCommand ↔ op = 5 ∨ op = 6 ∨ op = 7 := by
  decide

theorem decodeCommand_of_high {w : Word} (h : w.extractLsb' 3 61 ≠ 0) :
    decodeCommand w = .error .reservedCommand := if_neg h

theorem decodeCommand_reserved_iff (w : Word) : decodeCommand w = .error .reservedCommand ↔
    (w.extractLsb' 3 61 ≠ 0 ∨ w.extractLsb' 0 3 = 5 ∨ w.extractLsb' 0 3 = 6 ∨ w.extractLsb' 0 3 = 7) := by
  by_cases h : w.extractLsb' 3 61 = 0
  · have hreserved := decodeCommand_commandWord_reserved_iff (w.extractLsb' 0 3)
    rw [commandWord_opcode h] at hreserved
    rw [hreserved, or_iff_right (not_not_intro h)]
  · exact iff_of_true (decodeCommand_of_high h) (.inl h)

/-- Settles O4, by the opcode table and the split on bits 63:3. -/
theorem commandWordsAreTheOpcodes : Obligations.CommandWordsAreTheOpcodes :=
  ⟨decodeCommand_encode rfl, decodeCommand_encode rfl, decodeCommand_encode rfl, decodeCommand_encode rfl,
    decodeCommand_encode rfl, decodeCommand_reserved_iff⟩

/-! ### Service octets -/

/-- The bits of a service octet: the stored count in 6:0, the kind in 7 (30_encoding.md R96). -/
theorem serviceOctet_getElem (k : Bool) (n : BitVec 7) {j : Nat} (hj : j < 8) :
    (serviceOctet k n)[j] = if h : j < 7 then n[j] else k := by
  refine (BitVec.getElem_append (x := BitVec.ofBool k) (y := n) hj).trans ?_
  simp

@[simp] theorem serviceOctet_kind (k : Bool) (n : BitVec 7) : (serviceOctet k n)[7] = k :=
  serviceOctet_getElem k n (by decide)

@[simp] theorem serviceOctet_stored (k : Bool) (n : BitVec 7) : (serviceOctet k n).extractLsb' 0 7 = n :=
  BitVec.extractLsb'_append_eq_right

theorem exists_eq_serviceOctet (svc : Byte) : ∃ k n, svc = serviceOctet k n := by
  refine ⟨svc[7], svc.extractLsb' 0 7, BitVec.eq_of_getElem_eq fun j hj => ?_⟩
  rw [serviceOctet_getElem]
  split
  · simp [BitVec.getLsbD_eq_getElem hj]
  · congr 1
    omega

theorem serviceOctet_repeat_toNat (n : BitVec 7) : (serviceOctet true n).toNat = 128 + n.toNat := by
  revert n; decide

theorem serviceOctet_literal_toNat (n : BitVec 7) : (serviceOctet false n).toNat = n.toNat := by
  revert n; decide

/-! ### RLE groups -/

theorem decodeGroup_repeat (n : BitVec 7) (sym : Byte) (rest : List Byte) :
    decodeGroup (serviceOctet true n :: sym :: rest) = .ok (.rleRepeat n sym, rest) := by
  simp [decodeGroup]

theorem decodeGroup_literal_split (n : BitVec 7) (rest : List Byte) :
    decodeGroup (serviceOctet false n :: rest) =
      if rest.length < literalCount n then .error .truncatedGroup
      else .ok (.rleLiteral n (rest.take (literalCount n)), rest.drop (literalCount n)) := by
  simp [decodeGroup, literalCount]

theorem decodeGroup_literal {n : BitVec 7} {syms : List Byte} (rest : List Byte) (h : syms.length = literalCount n) :
    decodeGroup (serviceOctet false n :: (syms ++ rest)) = .ok (.rleLiteral n syms, rest) := by
  rw [decodeGroup_literal_split, if_neg (by simp [h]), ← h, List.take_left, List.drop_left]

/-- A group is rejected only for want of payload octets (30_encoding.md R100, 41_rle.md R159). -/
theorem decodeGroup_error {k : Bool} {n : BitVec 7} {rest : List Byte} {e : Reject}
    (h : decodeGroup (serviceOctet k n :: rest) = .error e) :
    rest.length < if k then 1 else literalCount n := by
  cases k with
  | true =>
    cases rest with
    | nil => exact Nat.one_pos
    | cons sym rest => rw [decodeGroup_repeat] at h; cases h
  | false =>
    rw [decodeGroup_literal_split] at h
    split at h
    · assumption
    · cases h

/-- Settles O5, by the kind bit of the service octet. -/
theorem everyServiceOctetOpensAGroup : Obligations.EveryServiceOctetOpensAGroup := by
  intro svc
  obtain ⟨k, n, rfl⟩ := exists_eq_serviceOctet svc
  cases k with
  | true =>
    have hlarge : 128 ≤ (serviceOctet true n).toNat := by rw [serviceOctet_repeat_toNat]; omega
    refine ⟨fun hsmall => absurd hsmall hlarge.not_gt, fun _ sym rest => ⟨n, decodeGroup_repeat n sym rest, ?_⟩,
      fun rest e h => ?_⟩
    · rw [serviceOctet_repeat_toNat, Nat.add_sub_cancel_left, repeatCount]
    · rw [if_neg hlarge.not_gt]
      exact decodeGroup_error h
  | false =>
    have hsmall : (serviceOctet false n).toNat < 128 := by rw [serviceOctet_literal_toNat]; exact n.isLt
    rw [serviceOctet_literal_toNat] at hsmall ⊢
    refine ⟨fun _ syms rest hlen => ⟨n, decodeGroup_literal rest hlen, rfl⟩, fun hlarge => absurd hsmall hlarge.not_gt,
      fun rest e h => ?_⟩
    rw [if_pos hsmall]
    exact decodeGroup_error h

theorem wellFormed_rleLiteral_iff {n : BitVec 7} {syms : List Byte} :
    (Instr.rleLiteral n syms).WellFormed ↔ syms.length = literalCount n := beq_iff_eq

theorem decodeGroup_encode {os rest : List Byte} {i : Instr} (hi : i.WellFormed)
    (h : (encode i).followedBy rest = .group os) : decodeGroup os = .ok (i, rest) := by
  cases i with
  | clr | rleEnc | rleDec | hufEnc | hufDec | hufEntry _ _ _ => cases h
  | rleRepeat n sym => cases h; exact decodeGroup_repeat n sym rest
  | rleLiteral n syms => cases h; exact decodeGroup_literal rest (wellFormed_rleLiteral_iff.mp hi)

theorem encode_of_decodeGroup {os rest : List Byte} {i : Instr} (h : decodeGroup os = .ok (i, rest)) :
    i.WellFormed ∧ (encode i).followedBy rest = .group os := by
  cases os with
  | nil => cases h
  | cons svc payload =>
    obtain ⟨k, n, rfl⟩ := exists_eq_serviceOctet svc
    cases k with
    | true =>
      cases payload with
      | nil => simp [decodeGroup] at h
      | cons sym payload =>
        rw [decodeGroup_repeat] at h
        cases h
        exact ⟨rfl, rfl⟩
    | false =>
      rw [decodeGroup_literal_split] at h
      split at h <;> cases h
      next hroom =>
        refine ⟨wellFormed_rleLiteral_iff.mpr (List.length_take_of_le (not_lt.mp hroom)), ?_⟩
        exact congrArg (Code.group ∘ List.cons _) (List.take_append_drop _ payload)

theorem decodeGroup_eq_ok_iff {os rest : List Byte} {i : Instr} :
    decodeGroup os = .ok (i, rest) ↔ i.WellFormed ∧ (encode i).followedBy rest = .group os :=
  ⟨encode_of_decodeGroup, fun ⟨hi, h⟩ => decodeGroup_encode hi h⟩

/-! ### Code-table entries -/

theorem wellFormed_hufEntry_iff {len sym : Byte} {code : List Byte} :
    (Instr.hufEntry len sym code).WellFormed ↔ len ≠ 0 ∧ code.length = ceil8 len.toNat := by
  simp [Instr.WellFormed, Instr.wellFormed]

theorem decodeEntry_encode {os rest : List Byte} {i : Instr} (hi : i.WellFormed)
    (h : (encode i).followedBy rest = .entry os) : decodeEntry os = .ok (i, rest) := by
  cases i with
  | clr | rleEnc | rleDec | hufEnc | hufDec | rleRepeat _ _ | rleLiteral _ _ => cases h
  | hufEntry len sym code =>
    cases h
    obtain ⟨hlen, hcode⟩ := wellFormed_hufEntry_iff.mp hi
    have hroom : ¬ (code ++ rest).length < ceil8 len.toNat := by simp [hcode]
    rw [List.cons_append, List.cons_append, decodeEntry, if_neg hlen, if_neg hroom, ← hcode, List.take_left,
      List.drop_left]

theorem encode_of_decodeEntry {os rest : List Byte} {i : Instr} (h : decodeEntry os = .ok (i, rest)) :
    i.WellFormed ∧ (encode i).followedBy rest = .entry os := by
  unfold decodeEntry at h
  split at h
  · cases h
  · cases h
  next len sym code =>
    split at h
    · cases h
    next hlen =>
      split at h <;> cases h
      next hroom =>
        refine ⟨wellFormed_hufEntry_iff.mpr ⟨hlen, List.length_take_of_le (not_lt.mp hroom)⟩, ?_⟩
        exact congrArg (Code.entry ∘ List.cons len ∘ List.cons sym) (List.take_append_drop _ code)

theorem decodeEntry_eq_ok_iff {os rest : List Byte} {i : Instr} :
    decodeEntry os = .ok (i, rest) ↔ i.WellFormed ∧ (encode i).followedBy rest = .entry os :=
  ⟨encode_of_decodeEntry, fun ⟨hi, h⟩ => decodeEntry_encode hi h⟩

/-! ### The decoder -/

theorem decode_command_eq_ok_iff {w : Word} {i : Instr} {rest : List Byte} :
    decode (.command w) = .ok (i, rest) ↔ encode i = .command w ∧ rest = [] := by
  rw [← decodeCommand_eq_ok_iff, decode]
  cases decodeCommand w <;> simp [Except.map, eq_comm]

@[simp] theorem followedBy_nil (c : Code) : c.followedBy [] = c := by
  cases c <;> simp [Code.followedBy]

theorem decode_encode_followedBy {i : Instr} (rest : List Byte) (hi : i.WellFormed)
    (hstream : ∀ w, encode i ≠ .command w) : decode ((encode i).followedBy rest) = .ok (i, rest) := by
  cases hcode : encode i with
  | command w => exact absurd hcode (hstream w)
  | group os => exact decodeGroup_eq_ok_iff.mpr ⟨hi, by rw [hcode]; rfl⟩
  | entry os => exact decodeEntry_eq_ok_iff.mpr ⟨hi, by rw [hcode]; rfl⟩

theorem decode_encode {i : Instr} (hi : i.WellFormed) : decode (encode i) = .ok (i, []) := by
  by_cases hcommand : ∃ w, encode i = .command w
  · obtain ⟨w, hw⟩ := hcommand
    rw [hw]
    exact decode_command_eq_ok_iff.mpr ⟨hw, rfl⟩
  · rw [← followedBy_nil (encode i)]
    exact decode_encode_followedBy [] hi (not_exists.mp hcommand)

/-- Settles O1, by the format of the encoding. -/
theorem decodeReadsBackEveryEncoding : Obligations.DecodeReadsBackEveryEncoding :=
  ⟨fun _ => decode_encode, fun _ => decode_encode_followedBy⟩

/-- Settles O2, by the format of the encoded form. -/
theorem decodedFormsEncodeBack : Obligations.DecodedFormsEncodeBack := by
  intro c i rest h
  cases c with
  | command w =>
    obtain ⟨hw, rfl⟩ := decode_command_eq_ok_iff.mp h
    exact ⟨wellFormed_of_encode_command hw, (followedBy_nil _).trans hw⟩
  | group os => exact decodeGroup_eq_ok_iff.mp h
  | entry os => exact decodeEntry_eq_ok_iff.mp h

/-- Settles O3: each sample is the encoding of the instruction it stands for. -/
theorem sampleWordsDecode : Obligations.SampleWordsDecode :=
  ⟨decode_encode (i := .clr) rfl, decode_encode (i := .hufEnc) rfl, decode_encode (i := .rleRepeat 2 0xAA) rfl,
    decode_encode (i := .rleLiteral 2 [0x41, 0x42, 0x43]) rfl, decode_encode (i := .hufEntry 3 0x42 [0xC0]) rfl⟩

end Sys2Proof.Machine
end

section
/-! SUPPORT. Bit I/O (40_bitio.md R130 to R138): the octets of `Pack` bit by bit, the packer as the appending of them,
`Unpack` as its inverse, and the big-endian fields. -/

namespace Sys2Proof.Machine

/-! ### The bits of an octet -/

/-- Bit `i` of bits read first bit highest is the `i`-th from the end. -/
theorem testBit_foldl_bits (f : Nat → Bool) (n i : Nat) :
    ((List.range n).foldl (fun acc p => acc * 2 + (f p).toNat) 0).testBit i = (decide (i < n) && f (n - 1 - i)) := by
  induction n generalizing i with
  | zero => simp
  | succ n ih =>
    rw [List.range_succ, List.foldl_append]
    cases i with
    | zero => cases h : f n <;> simp [Nat.testBit_zero, h]
    | succ i =>
      have hhalf : ∀ a : Nat, (a * 2 + (f n).toNat) / 2 = a := fun a => by have := (f n).toNat_le; omega
      simp only [List.foldl_cons, List.foldl_nil, Nat.testBit_succ, hhalf, ih, Nat.add_lt_add_iff_right,
        show n + 1 - 1 - (i + 1) = n - 1 - i by omega]

theorem packOctet_getLsbD (bits : Bits) {p : Nat} (hp : p < 8) :
    (packOctet bits).getLsbD (7 - p) = bits.getD p false := by
  rw [packOctet, BitVec.getLsbD_ofNat, testBit_foldl_bits]
  have hpos : 8 - 1 - (7 - p) = p := by omega
  simp [hpos, show 7 - p < 8 by omega]

/-- An octet is the packed octet of any bits that it holds first bit highest. -/
theorem eq_packOctet {o : Byte} {bits : Bits} (h : ∀ p < 8, o.getLsbD (7 - p) = bits.getD p false) :
    o = packOctet bits := by
  refine BitVec.eq_of_getLsbD_eq fun i hi => ?_
  have hbit := (h (7 - i) (by omega)).trans (packOctet_getLsbD bits (by omega)).symm
  rwa [show 7 - (7 - i) = i by omega] at hbit

@[simp] theorem packOctet_nil : packOctet [] = 0 := by decide

theorem packOctet_append {os : Bits} (rest : Bits) (h : os.length = 8) : packOctet (os ++ rest) = packOctet os := by
  refine eq_packOctet fun p hp => ?_
  rw [packOctet_getLsbD _ hp, List.getD_append _ _ _ _ (by omega)]

theorem setBit_getLsbD (acc : Byte) {i : Nat} (j : Nat) (b : Bool) (hi : i < 8) :
    (setBit acc i b).getLsbD j = if j = i then b else acc.getLsbD j := by
  by_cases hj : j = i
  · cases b <;> simp [setBit, hj, hi]
  · cases b
    · simpa [setBit, hj, Ne.symm hj] using BitVec.lt_of_getLsbD
    · simp [setBit, hj, Ne.symm hj]

/-- The bit that `PackBit` sets extends the bits packed so far. -/
theorem setBit_packOctet {ps : Bits} (b : Bool) (h : ps.length < 8) :
    setBit (packOctet ps) (7 - ps.length) b = packOctet (ps ++ [b]) := by
  refine eq_packOctet fun p hp => ?_
  rw [setBit_getLsbD _ _ _ (by omega)]
  rcases Nat.lt_trichotomy p ps.length with hlt | heq | hgt
  · rw [if_neg (by omega), packOctet_getLsbD _ hp, List.getD_append _ _ _ _ hlt]
  · simp [heq]
  · rw [if_neg (by omega), packOctet_getLsbD _ hp]
    simp [hgt, hgt.le]

/-! ### `Pack` -/

@[simp] theorem pack_length (bits : Bits) : (pack bits).length = ceil8 bits.length := by simp [pack]

/-- Eight bits at the head are the first octet. -/
theorem pack_append {os : Bits} (rest : Bits) (h : os.length = 8) : pack (os ++ rest) = packOctet os :: pack rest := by
  have hceil : ceil8 (os ++ rest).length = ceil8 rest.length + 1 := by simp [ceil8, h]; omega
  rw [pack, hceil, List.range_succ_eq_map, List.map_cons, List.map_map, Nat.mul_zero, List.drop_zero,
    packOctet_append rest h, pack]
  congr 1
  refine List.map_congr_left fun q _ => ?_
  rw [Function.comp_apply, show 8 * q.succ = os.length + 8 * q by omega, List.drop_length_add_append]

/-- Up to eight bits fill one octet. -/
theorem pack_of_length_le {ps : Bits} (hne : ps ≠ []) (h : ps.length ≤ 8) : pack ps = [packOctet ps] := by
  have hpos := List.length_pos_of_ne_nil hne
  have hceil : ceil8 ps.length = 1 := by unfold ceil8; omega
  simp [pack, hceil]

theorem pack_getLsbD {bits : Bits} {q p : Nat} (hq : q < ceil8 bits.length) (hp : p < 8) :
    ((pack bits).getD q 0).getLsbD (7 - p) = bits.getD (8 * q + p) false := by
  have hoctet : (pack bits).getD q 0 = packOctet (bits.drop (8 * q)) := by simp [pack, List.getD, hq]
  rw [hoctet, packOctet_getLsbD _ hp]
  simp [List.getD]

/-! ### The packer -/

/-- A state whose packer holds the bits `ps`, fewer than an octet's. -/
def pending (ps : Bits) (s : State) : State := { s with pk := { acc := packOctet ps, cnt := ps.length } }

theorem pending_nil (s : State) : pending [] s = packInit s := by simp [pending, packInit]

/-- `Append` does not look at the packer, and clearing it afterwards forgets what it held. -/
theorem append_pending_clear (v : Byte) (ps : Bits) (s : State) :
    (append v (pending ps s)).map packInit = (append v s).map packInit := by
  simp only [append_eq, pending]
  split <;> rfl

theorem packBit_pending {ps : Bits} (b : Bool) (s : State) (h : ps.length < 7) :
    packBit b (pending ps s) = .ok (pending (ps ++ [b]) s) := by
  simp [packBit, pending, setBit_packOctet b (show ps.length < 8 by omega), h.ne]

theorem packBit_pending_full {ps : Bits} (b : Bool) (s : State) (h : ps.length = 7) :
    packBit b (pending ps s) = (append (packOctet (ps ++ [b])) s).map packInit := by
  rw [← append_pending_clear _ ps, ← setBit_packOctet b (by omega)]
  exact if_pos h

theorem packFlush_pending {ps : Bits} (s : State) (h : ps.length < 8) :
    packFlush (pending ps s) = (appendAll (pack ps) s).map packInit := by
  by_cases hne : ps = []
  · rw [hne, pending_nil]; rfl
  · have hone : appendAll (pack ps) s = append (packOctet ps) s := by
      rw [pack_of_length_le hne h.le]
      exact bind_pure _
    rw [hone, ← append_pending_clear _ ps]
    exact if_neg (by simpa [pending] using hne)

/-- The packer appends the octets of the bits it holds and the bits it is given, and ends empty. -/
theorem packBits_packFlush (bits : Bits) {ps : Bits} (s : State) (h : ps.length < 8) :
    (packBits bits (pending ps s) >>= packFlush) = (appendAll (pack (ps ++ bits)) s).map packInit := by
  induction bits generalizing ps s with
  | nil => rw [List.append_nil]; exact packFlush_pending s h
  | cons b bits ih =>
    have hsplit : ps ++ b :: bits = (ps ++ [b]) ++ bits := by simp
    show ((packBit b (pending ps s) >>= packBits bits) >>= packFlush) = _
    rw [hsplit]
    by_cases hfull : ps.length = 7
    · rw [packBit_pending_full b s hfull, pack_append bits (by simp [hfull])]
      show _ = (append _ s >>= appendAll (pack bits)).map packInit
      cases append (packOctet (ps ++ [b])) s with
      | error e => rfl
      | ok t =>
        show (packBits bits (packInit t) >>= packFlush) = _
        rw [← pending_nil]
        exact ih t (by decide)
    · rw [packBit_pending b s (by omega)]
      exact ih s (by simp; omega)

/-- Settles O6, by the bits of a packed octet and by induction on the bits still to be packed. -/
theorem packerAppendsThePackedOctets : Obligations.PackerAppendsThePackedOctets := by
  refine ⟨fun bits => ⟨pack_length bits, fun q p => pack_getLsbD⟩, fun bits s => ?_⟩
  show (packBits bits (packInit s) >>= packFlush) = _
  rw [← pending_nil]
  exact packBits_packFlush bits s (by decide)

/-! ### `Unpack` -/

@[simp] theorem unpack_length (octets : List Byte) (n : Nat) : (unpack octets n).length = n := by simp [unpack]

theorem unpack_getD (octets : List Byte) {n i : Nat} (hi : i < n) :
    (unpack octets n).getD i false = (octets.getD (i / 8) 0).getLsbD (7 - i % 8) := by simp [unpack, List.getD, hi]

theorem unpack_pack (bits : Bits) : unpack (pack bits) bits.length = bits := by
  refine List.ext_getElem (unpack_length _ _) fun i _ hi => ?_
  have hq : i / 8 < ceil8 bits.length := by unfold ceil8; omega
  have hbit := (unpack_getD (pack bits) hi).trans (pack_getLsbD hq (Nat.mod_lt i (by decide)))
  rw [Nat.div_add_mod] at hbit
  simpa [List.getD, hi] using hbit

/-- Packing unpacked bits clears the bits past them (R135). -/
theorem pack_unpack_getLsbD (octets : List Byte) {n q p : Nat} (hq : q < ceil8 n) (hp : p < 8) :
    ((pack (unpack octets n)).getD q 0).getLsbD (7 - p) =
      (decide (8 * q + p < n) && (octets.getD q 0).getLsbD (7 - p)) := by
  rw [pack_getLsbD (by rwa [unpack_length]) hp]
  by_cases h : 8 * q + p < n
  · have hdiv : (8 * q + p) / 8 = q := by omega
    have hmod : (8 * q + p) % 8 = p := by omega
    rw [unpack_getD octets h, hdiv, hmod, decide_eq_true h, Bool.true_and]
  · rw [List.getD_eq_default _ _ (by rw [unpack_length]; omega), decide_eq_false h, Bool.false_and]

/-- Settles O7, by reading both laws at each bit. -/
theorem unpackInvertsPack : Obligations.UnpackInvertsPack :=
  ⟨unpack_pack, fun octets n _ => ⟨unpack_length octets n, fun _ => unpack_getD octets, by simp,
    fun _ _ => pack_unpack_getLsbD octets⟩⟩

/-! ### Fixed-width fields -/

theorem putBE_getD (v : Nat) {w i : Nat} (hi : i < w) :
    (putBE v w).getD i 0 = BitVec.ofNat 8 (v / 256 ^ (w - 1 - i)) := by
  induction w generalizing i with
  | zero => omega
  | succ w ih =>
    cases i with
    | zero => rfl
    | succ i =>
      rw [putBE, List.getD_cons_succ, ih (by omega)]
      congr 3
      omega

/-- What is already read weighs more than every octet still to be read. -/
theorem foldl_octets (a : Nat) (os : List Byte) :
    os.foldl (fun acc o => acc * 256 + o.toNat) a = a * 256 ^ os.length + beNat os := by
  induction os generalizing a with
  | nil => simp [beNat]
  | cons o os ih =>
    simp only [beNat, List.foldl_cons, List.length_cons] at ih ⊢
    rw [ih, ih (0 * 256 + _)]
    ring

theorem beNat_cons (o : Byte) (os : List Byte) : beNat (o :: os) = o.toNat * 256 ^ os.length + beNat os := by
  rw [← foldl_octets, beNat, List.foldl_cons, Nat.zero_mul, Nat.zero_add]

theorem beNat_eq_sum (os : List Byte) :
    beNat os = ((List.range os.length).map (fun i => (os.getD i 0).toNat * 256 ^ (os.length - 1 - i))).sum := by
  induction os with
  | nil => rfl
  | cons o os ih =>
    rw [beNat_cons, ih, List.length_cons, List.range_succ_eq_map, List.map_cons, List.sum_cons, List.map_map]
    congr 2
    refine List.map_congr_left fun i _ => ?_
    simp only [Function.comp_apply, List.getD_cons_succ]
    congr 2
    omega

/-- A field holds the value's last `w` octets. -/
theorem beNat_putBE (v w : Nat) : beNat (putBE v w) = v % 256 ^ w := by
  induction w with
  | zero => simp [putBE, beNat, Nat.mod_one]
  | succ w ih =>
    rw [putBE, beNat_cons, ih, putBE_length, BitVec.toNat_ofNat,
      Nat.mod_pow_succ (b := 256) (k := w), Nat.add_comm, Nat.mul_comm]

theorem getBE_eq_sum {buf : List Byte} {o w : Nat} (h : o + w ≤ buf.length) :
    getBE buf o w = ((List.range w).map (fun i => (buf.getD (o + i) 0).toNat * 256 ^ (w - 1 - i))).sum := by
  have hlen : ((buf.drop o).take w).length = w := by simp; omega
  rw [getBE, beNat_eq_sum, hlen]
  congr 1
  refine List.map_congr_left fun i hi => ?_
  have hoctet : ((buf.drop o).take w).getD i 0 = buf.getD (o + i) 0 := by
    simp [List.getD, List.mem_range.mp hi]
  rw [hoctet]

/-- A field is read back at the offset it stands at. -/
theorem getBE_putBE {v w : Nat} (before after : List Byte) (hv : v < 256 ^ w) :
    getBE (before ++ putBE v w ++ after) before.length w = v := by
  rw [getBE, List.append_assoc, List.drop_left, List.take_left' (putBE_length v w), beNat_putBE, Nat.mod_eq_of_lt hv]

/-- Settles O8, by induction on the width for the writer and on the octets for the reader. -/
theorem fieldsReadBackBigEndian : Obligations.FieldsReadBackBigEndian := by
  refine ⟨fun v w => ⟨putBE_length v w, fun i hi => ?_⟩, fun _ _ _ => getBE_eq_sum, fun _ _ => getBE_putBE⟩
  rw [putBE_getD v hi]
  exact BitVec.eq_of_toNat_eq (by simp)

/-- Inserting a field at offset 0 puts it in front. -/
theorem insertField_zero (buf : List Byte) (v w : Nat) : insertField buf 0 v w = putBE v w ++ buf := rfl

/-- Settles O9: both insertions are at offset 0. -/
theorem containerIsTwoInsertions : Obligations.ContainerIsTwoInsertions := fun table bits => by
  simp only [container, insertField_zero, List.append_assoc]

end Sys2Proof.Machine
end

section
/-! SUPPORT. `Runs(x)` (41_rle.md R155): which run stands at the head of an input, with what is left after it. The list of
runs follows it, and an induction over the runs of an input. -/

namespace Sys2Proof.Machine

/-! ### Counting from the head -/

theorem sameCount_eq_zero {x : Byte} {rest : List Byte} (h : rest.head? ≠ some x) : sameCount x rest = 0 := by
  cases rest with
  | nil => rfl
  | cons y ys => exact if_neg fun hyx => h (congrArg some hyx)

theorem sameCount_replicate_append (x : Byte) (k : Nat) (rest : List Byte) :
    sameCount x (List.replicate k x ++ rest) = k + sameCount x rest := by
  induction k with
  | zero => rw [List.replicate_zero, List.nil_append, Nat.zero_add]
  | succ k ih =>
    rw [List.replicate_succ, List.cons_append, sameCount, if_pos rfl, ih]
    omega

/-- A stretch with no two neighbours equal goes on past a list as it goes on past its last symbol. -/
theorem stretchCount_append {x : Byte} {l : List Byte} (h : (x :: l).IsChain (· ≠ ·)) (rest : List Byte) :
    stretchCount x (l ++ rest) = l.length + stretchCount (l.getLastD x) rest := by
  induction l generalizing x with
  | nil => rw [List.nil_append, List.length_nil, Nat.zero_add, List.getLastD_nil]
  | cons y l ih =>
    obtain ⟨hxy, hchain⟩ := List.isChain_cons_cons.mp h
    rw [List.cons_append, stretchCount, if_neg hxy.symm, ih hchain, List.length_cons, List.getLastD_cons]
    omega

theorem head?_ne_of_isChain {x : Byte} {xs : List Byte} (h : (x :: xs).IsChain (· ≠ ·)) : xs.head? ≠ some x :=
  fun hx => (List.isChain_cons.mp h).1 x hx rfl

/-! ### The run at the head -/

/-- `FirstRun r rest`: in front of `rest`, the symbols of `r` are the first run that R155 takes. -/
inductive FirstRun : Run → List Byte → Prop
  /-- A repeat ends at 129 or at another symbol. -/
  | rep {s : Byte} {c : Nat} {rest : List Byte} (hlo : 2 ≤ c) (hhi : c ≤ 129) (hend : c < 129 → rest.head? ≠ some s) :
      FirstRun (.rep s c) rest
  /-- A literal of the largest length. -/
  | full {ss rest : List Byte} (hlen : ss.length = 128) (hchain : ss.IsChain (· ≠ ·)) : FirstRun (.lit ss) rest
  /-- A literal that ends with the input. -/
  | last {ss : List Byte} (hlo : 1 ≤ ss.length) (hhi : ss.length < 128) (hchain : ss.IsChain (· ≠ ·)) :
      FirstRun (.lit ss) []
  /-- A literal that ends before two equal symbols. -/
  | broken {ss rest : List Byte} {y : Byte} (hlo : 1 ≤ ss.length) (hhi : ss.length < 127)
      (hchain : (ss ++ [y]).IsChain (· ≠ ·)) : FirstRun (.lit ss) (y :: y :: rest)

theorem FirstRun.inRange {r : Run} {rest : List Byte} (h : FirstRun r rest) : r.inRange = true := by
  cases h with
  | rep hlo hhi => simp [Run.inRange, hlo, hhi]
  | full hlen => simp [Run.inRange, hlen]
  | last hlo hhi => simp [Run.inRange]; omega
  | broken hlo hhi => simp [Run.inRange]; omega

theorem FirstRun.distinct {ss rest : List Byte} (h : FirstRun (.lit ss) rest) : ss.IsChain (· ≠ ·) := by
  cases h with
  | full _ hchain => exact hchain
  | last _ _ hchain => exact hchain
  | broken _ _ hchain => exact hchain.left_of_append

theorem FirstRun.maximal {s : Byte} {c : Nat} {rest : List Byte} (h : FirstRun (.rep s c) rest) (hc : c < 129) :
    rest.head? ≠ some s := by
  cases h with
  | rep _ _ hend => exact hend hc

theorem symbols_ne_nil {r : Run} (h : r.inRange = true) : r.symbols ≠ [] := by
  cases r with
  | rep s c =>
    simp only [Run.inRange, Bool.and_eq_true, decide_eq_true_eq] at h
    simp only [Run.symbols, ne_eq, List.replicate_eq_nil_iff]
    omega
  | lit ss =>
    rintro rfl
    simp [Run.inRange] at h

/-- R155 on a literal's first symbol: no repeat starts there, and its stretch decides. -/
theorem runsFuel_stretch (fuel : Nat) {x : Byte} {xs : List Byte} (h : xs.head? ≠ some x) :
    runsFuel (fuel + 1) (x :: xs) =
      if 128 ≤ stretchCount x xs + 1 then Run.lit ((x :: xs).take 128) :: runsFuel fuel ((x :: xs).drop 128)
      else if stretchCount x xs = xs.length then [Run.lit (x :: xs)]
      else Run.lit ((x :: xs).take (stretchCount x xs)) :: runsFuel fuel ((x :: xs).drop (stretchCount x xs)) := by
  simp [runsFuel, sameCount_eq_zero h]

/-- R155 takes the first run and goes on with the rest. -/
theorem runsFuel_firstRun (fuel : Nat) {r : Run} {rest : List Byte} (h : FirstRun r rest) :
    runsFuel (fuel + 1) (r.symbols ++ rest) = r :: runsFuel fuel rest := by
  cases h with
  | @rep s c _ hlo hhi hend =>
    obtain ⟨k, rfl⟩ : ∃ k, c = k + 1 := ⟨c - 1, by omega⟩
    have hmin : min (k + sameCount s rest + 1) 129 = k + 1 := by
      by_cases hk : k + 1 < 129
      · rw [sameCount_eq_zero (hend hk)]; omega
      · omega
    simp only [Run.symbols, List.replicate_succ, List.cons_append, runsFuel, sameCount_replicate_append]
    rw [if_pos (by omega), hmin, List.drop_succ_cons, List.drop_left' List.length_replicate]
  | @full ss _ hlen hchain =>
    obtain ⟨x, l, rfl⟩ := List.exists_cons_of_length_pos (l := ss) (by omega)
    have hl : l.length = 127 := by simpa using hlen
    have hhead : (l ++ rest).head? ≠ some x := by
      rw [List.head?_append_of_ne_nil _ (List.length_pos_iff.mp (by omega))]
      exact head?_ne_of_isChain hchain
    rw [Run.symbols, List.cons_append, runsFuel_stretch fuel hhead, if_pos (by rw [stretchCount_append hchain]; omega),
      ← List.cons_append, List.take_left' hlen, List.drop_left' hlen]
  | @last ss hlo hhi hchain =>
    obtain ⟨x, l, rfl⟩ := List.exists_cons_of_length_pos hlo
    have hstretch : stretchCount x l = l.length := by simpa [stretchCount] using stretchCount_append hchain []
    rw [List.length_cons] at hhi
    rw [Run.symbols, List.append_nil, runsFuel_stretch fuel (head?_ne_of_isChain hchain), hstretch,
      if_neg (Nat.not_le.mpr hhi), if_pos rfl]
    cases fuel <;> rfl
  | @broken ss rest y hlo hhi hchain =>
    obtain ⟨x, l, rfl⟩ := List.exists_cons_of_length_pos hlo
    have hstretch : stretchCount x (l ++ y :: y :: rest) = l.length + 1 := by
      simpa [stretchCount] using stretchCount_append hchain (y :: rest)
    have hhead : (l ++ y :: y :: rest).head? ≠ some x := by
      simpa using head?_ne_of_isChain hchain
    rw [List.length_cons] at hhi
    rw [Run.symbols, List.cons_append, runsFuel_stretch fuel hhead, hstretch, if_neg (by omega),
      if_neg (by simp only [List.length_append, List.length_cons]; omega), ← List.cons_append,
      List.take_left' List.length_cons, List.drop_left' List.length_cons]

/-! ### Reading an input into runs -/

/-- The symbols of the run that is open, if any. -/
def openSymbols : Option Run → List Byte
  | none => []
  | some r => r.symbols

/-- The runs that can be open between two symbols: a repeat below 129, a literal below 128 (R152). -/
def OpenRun : Option Run → Prop
  | none => True
  | some (.rep _ c) => 2 ≤ c ∧ c < 129
  | some (.lit ss) => 1 ≤ ss.length ∧ ss.length < 128 ∧ ss.IsChain (· ≠ ·)

/-- The classification of R152 over runs: symbol `y` after the open run `o` gives the run that is closed, if any, and the
run open from then on. -/
def classify (y : Byte) : Option Run → Option Run × Option Run
  | none => (none, some (.lit [y]))
  | some (.lit ss) =>
    if ss.getLast? = some y then (if 1 < ss.length then some (.lit ss.dropLast) else none, some (.rep y 2))
    else if ss.length + 1 = 128 then (some (.lit (ss ++ [y])), none)
    else (none, some (.lit (ss ++ [y])))
  | some (.rep s c) =>
    if y = s then if c + 1 = 129 then (some (.rep s (c + 1)), none) else (none, some (.rep s (c + 1)))
    else (some (.rep s c), some (.lit [y]))

theorem openRun_singleton (y : Byte) : OpenRun (some (.lit [y])) := ⟨le_rfl, by simp, .singleton y⟩

theorem isChain_concat {ss : List Byte} {y : Byte} (h : ss.IsChain (· ≠ ·)) (hy : ss.getLast? ≠ some y) :
    (ss ++ [y]).IsChain (· ≠ ·) :=
  List.isChain_append.mpr ⟨h, .singleton y, by rintro x hx _ ⟨⟩ rfl; exact hy hx⟩

/-- What the classification of one symbol does: the open run is carried on, with no symbol lost, and a run that it closes
is the first run in front of whatever follows. -/
theorem classify_spec (y : Byte) {o : Option Run} (ho : OpenRun o) :
    OpenRun (classify y o).2 ∧
      openSymbols o ++ [y] = openSymbols (classify y o).1 ++ openSymbols (classify y o).2 ∧
      ∀ r, (classify y o).1 = some r → ∀ ys, FirstRun r (openSymbols (classify y o).2 ++ ys) := by
  match o, ho with
  | none, _ => exact ⟨openRun_singleton y, rfl, fun r hr => nomatch hr⟩
  | some (.lit ss), ⟨hlo, hhi, hchain⟩ =>
    simp only [classify]
    split
    case isTrue hlast =>
      obtain ⟨init, rfl⟩ := List.getLast?_eq_some_iff.mp hlast
      rw [List.length_append, List.length_singleton] at hhi
      by_cases hinit : init = []
      · subst hinit
        exact ⟨⟨le_rfl, by decide⟩, rfl, fun r hr => nomatch hr⟩
      · have hlen : 1 ≤ init.length := List.length_pos_iff.mpr hinit
        rw [if_pos (by simp; omega), List.dropLast_concat]
        refine ⟨⟨le_rfl, by decide⟩, by simp [openSymbols, Run.symbols], ?_⟩
        rintro _ ⟨⟩ ys
        exact .broken hlen (by omega) hchain
    case isFalse hlast =>
      have hnext := isChain_concat hchain hlast
      split
      case isTrue hfull =>
        refine ⟨trivial, by simp [openSymbols, Run.symbols], ?_⟩
        rintro _ ⟨⟩ ys
        exact .full (by simp [hfull]) hnext
      case isFalse hfull =>
        exact ⟨⟨by simp, by simp; omega, hnext⟩, rfl, fun r hr => nomatch hr⟩
  | some (.rep s c), ⟨hlo, hhi⟩ =>
    simp only [classify]
    split
    case isTrue hsame =>
      subst hsame
      split
      case isTrue hfull =>
        refine ⟨trivial, by simp [openSymbols, Run.symbols, List.replicate_succ'], ?_⟩
        rintro _ ⟨⟩ ys
        exact .rep (by omega) (by omega) (by omega)
      case isFalse hfull =>
        exact ⟨⟨by omega, by omega⟩, by simp [openSymbols, Run.symbols, List.replicate_succ'], fun r hr => nomatch hr⟩
    case isFalse hother =>
      refine ⟨openRun_singleton y, rfl, ?_⟩
      rintro _ ⟨⟩ ys
      exact .rep hlo (by omega) fun _ => by simpa [openSymbols, Run.symbols] using hother

/-- At the end of the input the open run is the last one. -/
theorem OpenRun.firstRun_nil {r : Run} (h : OpenRun (some r)) : FirstRun r [] := by
  cases r with
  | rep s c => exact .rep h.1 (by have := h.2; omega) fun _ => by simp
  | lit ss => exact .last h.1 h.2.1 h.2.2

/-- Every input has a first run: the classification closes one, or its end does. -/
theorem exists_firstRun (xs : List Byte) {o : Option Run} (ho : OpenRun o) (hne : openSymbols o ++ xs ≠ []) :
    ∃ r rest, FirstRun r rest ∧ openSymbols o ++ xs = r.symbols ++ rest := by
  induction xs generalizing o with
  | nil =>
    cases o with
    | none => exact absurd rfl hne
    | some r => exact ⟨r, [], ho.firstRun_nil, rfl⟩
  | cons y ys ih =>
    obtain ⟨hnext, hsyms, hfirst⟩ := classify_spec y ho
    rw [List.append_cons, hsyms]
    cases hclosed : (classify y o).1 with
    | some r => exact ⟨r, _, hfirst r hclosed ys, List.append_assoc ..⟩
    | none =>
      rw [hclosed, openSymbols, List.nil_append] at hsyms
      exact ih hnext (by rw [← hsyms]; simp)

/-! ### The list of runs -/

/-- The runs do not depend on the fuel, the length of the input being enough. -/
theorem runsFuel_eq (fuel fuel' : Nat) {x : List Byte} (h : x.length ≤ fuel) (h' : x.length ≤ fuel') :
    runsFuel fuel x = runsFuel fuel' x := by
  induction fuel generalizing fuel' x with
  | zero =>
    rw [List.length_eq_zero_iff.mp (Nat.le_zero.mp h)]
    cases fuel' <;> rfl
  | succ fuel ih =>
    by_cases hx : x = []
    · rw [hx]; cases fuel' <;> rfl
    · obtain ⟨r, rest, hr, rfl⟩ : ∃ r rest, FirstRun r rest ∧ x = r.symbols ++ rest :=
        exists_firstRun (o := none) x trivial hx
      have hsyms : 0 < r.symbols.length := List.length_pos_iff.mpr (symbols_ne_nil hr.inRange)
      rw [List.length_append] at h h'
      obtain ⟨fuel', rfl⟩ : ∃ k, fuel' = k + 1 := ⟨fuel' - 1, by omega⟩
      rw [runsFuel_firstRun fuel hr, runsFuel_firstRun fuel' hr, ih fuel' (by omega) (by omega)]

theorem runs_firstRun {r : Run} {rest : List Byte} (h : FirstRun r rest) :
    runs (r.symbols ++ rest) = r :: runs rest := by
  have hsyms : 0 < r.symbols.length := List.length_pos_iff.mpr (symbols_ne_nil h.inRange)
  rw [runs, runsFuel_eq _ ((r.symbols ++ rest).length + 1) le_rfl (Nat.le_succ _), runsFuel_firstRun _ h, runs,
    runsFuel_eq _ rest.length (by simp) le_rfl]

/-- Induction over the runs of an input. -/
theorem runs_induction {motive : List Byte → List Run → Prop} (nil : motive [] [])
    (cons : ∀ r rest, FirstRun r rest → motive rest (runs rest) → motive (r.symbols ++ rest) (r :: runs rest))
    (x : List Byte) : motive x (runs x) := by
  induction hn : x.length using Nat.strong_induction_on generalizing x with
  | _ n ih =>
    by_cases hx : x = []
    · rw [hx]; exact nil
    · obtain ⟨r, rest, hr, rfl⟩ : ∃ r rest, FirstRun r rest ∧ x = r.symbols ++ rest :=
        exists_firstRun (o := none) x trivial hx
      have hsyms : 0 < r.symbols.length := List.length_pos_iff.mpr (symbols_ne_nil hr.inRange)
      rw [List.length_append] at hn
      rw [runs_firstRun hr]
      exact cons r rest hr (ih rest.length (by omega) rest rfl)

/-! ### The properties of `Runs(x)` -/

theorem runs_inRange (x : List Byte) : ∀ r ∈ runs x, r.inRange = true :=
  runs_induction (motive := fun _ rs => ∀ r ∈ rs, r.inRange = true) (List.forall_mem_nil _)
    (fun _ _ hr ih => List.forall_mem_cons.mpr ⟨hr.inRange, ih⟩) x

theorem runs_symbols (x : List Byte) : (runs x).flatMap Run.symbols = x :=
  runs_induction (motive := fun x rs => rs.flatMap Run.symbols = x) rfl
    (fun r _ _ ih => by rw [List.flatMap_cons, ih]) x

theorem runs_literal_distinct (x : List Byte) : ∀ ss, Run.lit ss ∈ runs x → ss.IsChain (· ≠ ·) :=
  runs_induction (motive := fun _ rs => ∀ ss, Run.lit ss ∈ rs → ss.IsChain (· ≠ ·)) (fun _ h => nomatch h)
    (fun _ _ hr ih ss h => by
      rcases List.mem_cons.mp h with rfl | h
      · exact hr.distinct
      · exact ih ss h) x

/-- The first run of an input begins with its first symbol. -/
theorem head?_runs {r : Run} {x : List Byte} (h : r ∈ (runs x).head?) : r.symbols.head? = x.head? := by
  revert h
  refine runs_induction (motive := fun x rs => r ∈ rs.head? → r.symbols.head? = x.head?) (fun h => nomatch h) ?_ x
  rintro r' rest hr - ⟨⟩
  exact (List.head?_append_of_ne_nil _ (symbols_ne_nil hr.inRange)).symm

theorem runs_maximal (x : List Byte) :
    (runs x).IsChain (fun r r' => ∀ s c, r = .rep s c → c < 129 → r'.symbols.head? ≠ some s) := by
  refine runs_induction (motive := fun _ rs => rs.IsChain _) .nil ?_ x
  refine fun r rest hr ih => List.isChain_cons.mpr ⟨?_, ih⟩
  rintro r' hr' s c rfl hc
  rw [head?_runs hr']
  exact hr.maximal hc

theorem octets_length_bounds {r : Run} (h : r.inRange = true) :
    2 * ((r.symbols.length + 128) / 129) ≤ r.octets.length ∧ r.octets.length ≤ 2 * r.symbols.length := by
  cases r with
  | rep s c =>
    simp only [Run.inRange, Bool.and_eq_true, decide_eq_true_eq] at h
    simp only [Run.symbols, Run.octets, List.length_replicate, List.length_cons, List.length_nil]
    omega
  | lit ss =>
    simp only [Run.inRange, Bool.and_eq_true, decide_eq_true_eq] at h
    simp only [Run.symbols, Run.octets, List.length_cons]
    omega

theorem rleStream_length_bounds (x : List Byte) :
    2 * ((x.length + 128) / 129) ≤ (rleStream x).length ∧ (rleStream x).length ≤ 2 * x.length := by
  refine runs_induction (motive := fun x rs =>
    2 * ((x.length + 128) / 129) ≤ (rs.flatMap Run.octets).length ∧ (rs.flatMap Run.octets).length ≤ 2 * x.length)
    (by decide) (fun r rest hr ih => ?_) x
  have hrun := octets_length_bounds hr.inRange
  rw [List.flatMap_cons, List.length_append, List.length_append]
  omega

/-- Settles O36, by the induction over the runs of the input. -/
theorem runsAreMaximalAndExpandBack : Obligations.RunsAreMaximalAndExpandBack := fun x =>
  ⟨runs_inRange x, runs_symbols x, runs_literal_distinct x, runs_maximal x, rleStream_length_bounds x⟩

end Sys2Proof.Machine
end

section
/-! SUPPORT. The RLE groups of a stream (41_rle.md R157 to R160): what stands at the head of a stream, the window through
which the decoder reads it, the step that runs a group, and the effect of the group. -/

namespace Sys2Proof.Machine

/-! ### Counts and groups -/

theorem repeatCount_storedRepeat {c : Nat} (hlo : 2 ≤ c) (hhi : c ≤ 129) : repeatCount (storedRepeat c) = c := by
  rw [repeatCount, storedRepeat, BitVec.toNat_ofNat]
  omega

theorem literalCount_storedLiteral {k : Nat} (hlo : 1 ≤ k) (hhi : k ≤ 128) : literalCount (storedLiteral k) = k := by
  rw [literalCount, storedLiteral, BitVec.toNat_ofNat]
  omega

@[simp] theorem storedRepeat_repeatCount (n : BitVec 7) : storedRepeat (repeatCount n) = n := by
  simp [storedRepeat, repeatCount]

@[simp] theorem storedLiteral_literalCount (n : BitVec 7) : storedLiteral (literalCount n) = n := by
  simp [storedLiteral, literalCount]

theorem inRange_rep_iff {s : Byte} {c : Nat} : (Run.rep s c).inRange = true ↔ 2 ≤ c ∧ c ≤ 129 := by
  simp [Run.inRange]

theorem inRange_lit_iff {ss : List Byte} : (Run.lit ss).inRange = true ↔ 1 ≤ ss.length ∧ ss.length ≤ 128 := by
  simp [Run.inRange]

/-- The instruction that the group of a run encodes. -/
def Run.instr : Run → Instr
  | .rep s c => .rleRepeat (storedRepeat c) s
  | .lit ss => .rleLiteral (storedLiteral ss.length) ss

/-- The service octet of a run. -/
def Run.service : Run → Byte
  | .rep _ c => serviceOctet true (storedRepeat c)
  | .lit ss => serviceOctet false (storedLiteral ss.length)

theorem octets_pos (r : Run) : 0 < r.octets.length := by cases r <;> exact Nat.succ_pos _

theorem decodeGroup_run {r : Run} (h : r.inRange = true) (rest : List Byte) :
    decodeGroup (r.octets ++ rest) = .ok (r.instr, rest) := by
  cases r with
  | rep s c => exact decodeGroup_repeat _ s rest
  | lit ss =>
    obtain ⟨hlo, hhi⟩ := inRange_lit_iff.mp h
    exact decodeGroup_literal rest (literalCount_storedLiteral hlo hhi).symm

/-- A decoded group is the group of a run. -/
theorem exists_run_of_decodeGroup {os rest : List Byte} {i : Instr} (h : decodeGroup os = .ok (i, rest)) :
    ∃ r : Run, r.inRange = true ∧ os = r.octets ++ rest ∧ i = r.instr := by
  obtain ⟨hi, hos⟩ := encode_of_decodeGroup h
  cases i with
  | clr | rleEnc | rleDec | hufEnc | hufDec | hufEntry _ _ _ => cases hos
  | rleRepeat n sym =>
    cases hos
    refine ⟨.rep sym (repeatCount n), inRange_rep_iff.mpr ?_, by simp [Run.octets], by simp [Run.instr]⟩
    rw [repeatCount]
    omega
  | rleLiteral n syms =>
    cases hos
    have hlen : syms.length = literalCount n := wellFormed_rleLiteral_iff.mp hi
    refine ⟨.lit syms, inRange_lit_iff.mpr ?_, by simp [Run.octets, hlen], by simp [Run.instr, hlen]⟩
    rw [hlen, literalCount]
    omega

/-- What stands at the head of a stream: the group of a run, or no group. -/
theorem stream_cases (os : List Byte) :
    (∃ (r : Run) (rest : List Byte), r.inRange = true ∧ os = r.octets ++ rest) ∨ ∃ e, decodeGroup os = .error e := by
  cases h : decodeGroup os with
  | error e => exact .inr ⟨e, rfl⟩
  | ok p =>
    obtain ⟨r, hr, hos, -⟩ := exists_run_of_decodeGroup (i := p.1) (rest := p.2) h
    exact .inl ⟨r, p.2, hr, hos⟩

/-! ### The decoders' windows -/

/-- The first 129 octets of a stream decide its first group (30_encoding.md R101). -/
theorem decodeGroup_take {os : List Byte} {k : Nat} (hk : longestGroup ≤ k) :
    (decodeGroup (os.take k)).map Prod.fst = (decodeGroup os).map Prod.fst := by
  have hk : 129 ≤ k := hk
  obtain ⟨k, rfl⟩ : ∃ j, k = j + 2 := ⟨k - 2, by omega⟩
  match os with
  | [] => rfl
  | svc :: payload =>
    obtain ⟨kind, n, rfl⟩ := exists_eq_serviceOctet svc
    match kind, payload with
    | true, [] => rfl
    | true, sym :: payload =>
      rw [List.take_succ_cons, List.take_succ_cons, decodeGroup_repeat, decodeGroup_repeat]
      rfl
    | false, payload =>
      have hn : literalCount n ≤ k + 1 := by rw [literalCount]; omega
      rw [List.take_succ_cons, decodeGroup_literal_split, decodeGroup_literal_split, List.length_take]
      by_cases hroom : payload.length < literalCount n
      · rw [if_pos hroom, if_pos (by omega)]
      · rw [if_neg hroom, if_neg (by omega), List.take_take, min_eq_left hn]
        rfl

/-- The first 34 octets of a code table decide its first entry (30_encoding.md R104). -/
theorem decodeEntry_take {os : List Byte} {k : Nat} (hk : longestEntry ≤ k) :
    (decodeEntry (os.take k)).map Prod.fst = (decodeEntry os).map Prod.fst := by
  have hk : 34 ≤ k := hk
  obtain ⟨k, rfl⟩ : ∃ j, k = j + 2 := ⟨k - 2, by omega⟩
  match os with
  | [] => rfl
  | [_] => rfl
  | len :: sym :: code =>
    rw [List.take_succ_cons, List.take_succ_cons, decodeEntry, decodeEntry]
    by_cases hlen : len = 0
    · rw [if_pos hlen, if_pos hlen]
    · have hceil : ceil8 len.toNat ≤ k := by rw [ceil8]; omega
      rw [if_neg hlen, if_neg hlen, List.length_take]
      by_cases hroom : code.length < ceil8 len.toNat
      · rw [if_pos hroom, if_pos (by omega)]
      · rw [if_neg hroom, if_neg (by omega), List.take_take, min_eq_left hceil]
        rfl

theorem ibufOctets_min (s : State) (o k n : Nat) : ibufOctets s o (min k n) = (ibufOctets s o n).take k := by
  rw [ibufOctets, ibufOctets, ← List.map_take, List.take_range]

/-- The octets of the input from IPOS on. -/
def State.remaining (s : State) : List Byte := ibufOctets s s.ipos (s.ilen.toNat - s.ipos)

@[simp] theorem remaining_length (s : State) : s.remaining.length = s.ilen.toNat - s.ipos := ibufOctets_length ..

theorem remaining_eq_nil_iff {s : State} : s.remaining = [] ↔ s.ilen.toNat ≤ s.ipos := by
  rw [← List.length_eq_zero_iff, remaining_length, Nat.sub_eq_zero_iff_le]

/-- Past `k` octets of the input, what remains is what remained without them. -/
theorem remaining_moved {s t : State} {k : Nat} (h : SameInput s t) (hipos : t.ipos = s.ipos + k) :
    t.remaining = s.remaining.drop k := by
  refine List.ext_getElem (by rw [List.length_drop, remaining_length, remaining_length, hipos, h.ilen]; omega)
    fun j _ _ => ?_
  simp [State.remaining, ibufOctets, hipos, readIbuf_congr h.ibuf h.ibufEpoch, Nat.add_assoc]

theorem remaining_cons {s : State} (h : s.ipos < s.ilen.toNat) :
    s.remaining = readIbuf s s.ipos :: { s with ipos := s.ipos + 1 }.remaining := by
  have hrest : { s with ipos := s.ipos + 1 }.remaining = s.remaining.drop 1 :=
    remaining_moved (sameInput_of_kept rfl) rfl
  have hpos : 0 < s.remaining.length := by rw [remaining_length]; omega
  rw [hrest, ← List.drop_zero (l := s.remaining), List.drop_eq_getElem_cons hpos]
  simp [State.remaining, ibufOctets]

theorem groupWindow_eq (s : State) : groupWindow s = s.remaining.take longestGroup := ibufOctets_min ..

theorem map_fst_ok {α : Type} {x : Except Reject (Instr × α)} {i : Instr} (h : x.map Prod.fst = .ok i) :
    ∃ rest, x = .ok (i, rest) := by
  match x with
  | .error _ => cases h
  | .ok (_, rest) => cases h; exact ⟨rest, rfl⟩

theorem map_fst_error {α : Type} {x : Except Reject (Instr × α)} {e : Reject} (h : x.map Prod.fst = .error e) :
    x = .error e := by
  match x with
  | .error _ => cases h; rfl
  | .ok _ => cases h

theorem decodeGroup_window_ok {s : State} {i : Instr} {rest : List Byte} (h : decodeGroup s.remaining = .ok (i, rest)) :
    ∃ rest', decodeGroup (groupWindow s) = .ok (i, rest') :=
  map_fst_ok (by rw [groupWindow_eq, decodeGroup_take le_rfl, h]; rfl)

theorem decodeGroup_window_error {s : State} {e : Reject} (h : decodeGroup s.remaining = .error e) :
    decodeGroup (groupWindow s) = .error e :=
  map_fst_error (by rw [groupWindow_eq, decodeGroup_take le_rfl, h]; rfl)

/-! ### The step inside a decoder -/

theorem step_of_fetch {s : State} {i : Instr} (hport : s.port = []) (h : fetch s = .run i) : step s = exec i s := by
  simp only [step, hport, sequencerTurn, h]

theorem step_of_fetch_raise {s : State} {k : ErrorKind} (hport : s.port = []) (h : fetch s = .raise k) :
    step s = .next (failCommand k s) := by
  simp only [step, hport, sequencerTurn, h]

theorem fetch_group {s : State} (hbusy : s.runState = .busy) (hphase : s.phase = .rleD) : fetch s = fetchGroup s := by
  rw [fetch, if_pos hbusy, hphase]

theorem fetch_entry {s : State} (hbusy : s.runState = .busy) (hphase : s.phase = .hDtab) : fetch s = fetchEntry s := by
  rw [fetch, if_pos hbusy, hphase]

theorem fetchGroup_run {s : State} {i : Instr} {rest : List Byte} (hin : s.ipos < s.ilen.toNat)
    (h : decodeGroup s.remaining = .ok (i, rest)) : fetchGroup s = .run i := by
  obtain ⟨rest', hwindow⟩ := decodeGroup_window_ok h
  rw [fetchGroup, if_pos hin, hwindow]

theorem fetchGroup_raise {s : State} {e : Reject} (hin : s.ipos < s.ilen.toNat)
    (h : decodeGroup s.remaining = .error e) : fetchGroup s = .raise .malformedStream := by
  rw [fetchGroup, if_pos hin, decodeGroup_window_error h]

theorem fetchEntry_run {s : State} {i : Instr} {rest : List Byte} (hin : s.hd.tpos < tableEnd s)
    (h : decodeEntry (ibufOctets s s.hd.tpos (tableEnd s - s.hd.tpos)) = .ok (i, rest)) : fetchEntry s = .run i := by
  obtain ⟨rest', hwindow⟩ : ∃ rest', decodeEntry (entryWindow s) = .ok (i, rest') :=
    map_fst_ok (by rw [entryWindow, ibufOctets_min, decodeEntry_take le_rfl, h]; rfl)
  rw [fetchEntry, if_pos hin, hwindow]

theorem fetchEntry_raise {s : State} {e : Reject} (hin : s.hd.tpos < tableEnd s)
    (h : decodeEntry (ibufOctets s s.hd.tpos (tableEnd s - s.hd.tpos)) = .error e) :
    fetchEntry s = .raise .malformedStream := by
  have hwindow : decodeEntry (entryWindow s) = .error e :=
    map_fst_error (by rw [entryWindow, ibufOctets_min, decodeEntry_take le_rfl, h]; rfl)
  rw [fetchEntry, if_pos hin, hwindow]

/-- Settles O24: the windows of the two decoders hold every octet that their next instruction can take. -/
theorem stepRunsTheStreamInstruction : Obligations.StepRunsTheStreamInstruction := by
  refine ⟨fun s hport hbusy hphase hin => ?_, fun s hport hbusy hphase hin => ?_⟩
  · have hfetch := fetch_group hbusy hphase
    split
    next h => exact step_of_fetch hport (hfetch.trans (fetchGroup_run hin h))
    next h => exact step_of_fetch_raise hport (hfetch.trans (fetchGroup_raise hin h))
  · have hfetch := fetch_entry hbusy hphase
    split
    next h => exact step_of_fetch hport (hfetch.trans (fetchEntry_run hin h))
    next h => exact step_of_fetch_raise hport (hfetch.trans (fetchEntry_raise hin h))

/-! ### The effect of a group -/

theorem readObuf_appended {s t : State} {vs : List Byte} (h : Appended s t vs) {j : Nat} (hj : j < vs.length) :
    readObuf t (s.opos + j) = vs[j] := by
  rw [readObuf, h.obuf, Memory.lookup_insertAll, if_pos (by omega), Nat.add_sub_cancel_left,
    List.getElem?_eq_getElem hj]
  rfl

theorem readObuf_appended_frame {s t : State} {vs : List Byte} (h : Appended s t vs) {a : Nat}
    (ha : a < s.opos ∨ s.opos + vs.length ≤ a) : readObuf t a = readObuf s a := by
  have hepoch : t.kept.obufEpoch = s.kept.obufEpoch := by rw [h.kept]
  rw [readObuf, h.obuf, Memory.lookup_insertAll, if_neg (by omega), show t.obufEpoch = s.obufEpoch from hepoch]
  rfl

/-- Octets that fit are appended, with nothing else changed but OPOS and OBUF. -/
theorem appendAll_of_fits {vs : List Byte} {s : State} (h : s.opos + vs.length ≤ s.cfg.mMax) :
    ∃ t, appendAll vs s = .ok t ∧ t = { s with opos := s.opos + vs.length, obuf := t.obuf } ∧ Appended s t vs := by
  have heq := appendAll_eq vs s
  rw [if_pos (.inr h)] at heq
  exact ⟨_, heq, rfl, appendAll_appended heq⟩

theorem exec_rleLiteral {n : BitVec 7} {syms : List Byte} (s : State) (h : syms.length = literalCount n) :
    exec (.rleLiteral n syms) s = .next (streamStep s (literalGroup n syms s)) :=
  if_pos (wellFormed_rleLiteral_iff.mpr h)

/-- Settles O42, by what appending octets that fit does. -/
theorem repeatGroupAppendsCopies : Obligations.RepeatGroupAppendsCopies := by
  intro n sym s hfit
  have hlen : (List.replicate (repeatCount n) sym).length = n.toNat + 2 := List.length_replicate
  obtain ⟨t, hrun, ht, happ⟩ := appendAll_of_fits (vs := List.replicate (repeatCount n) sym)
    (s := { s with dSvc := serviceOctet true n, ipos := s.ipos + 2 }) (hlen ▸ hfit)
  rw [hlen] at ht
  refine ⟨t, congrArg (Host.Outcome.next ∘ streamStep s) hrun, ht, fun j hj => ?_, fun a ha => ?_⟩
  · rw [readObuf_appended happ (hlen ▸ hj), List.getElem_replicate]
  · exact (readObuf_appended_frame happ (hlen ▸ ha)).trans rfl

/-- Settles O43, by what appending octets that fit does. -/
theorem literalGroupCopiesItsSymbols : Obligations.LiteralGroupCopiesItsSymbols := by
  intro n syms s hlen hfit
  obtain ⟨t, hrun, ht, happ⟩ := appendAll_of_fits (vs := syms)
    (s := { s with dSvc := serviceOctet false n, ipos := s.ipos + (1 + literalCount n) }) (hlen ▸ hfit)
  rw [hlen] at ht
  refine ⟨t, ?_, ht, fun j hj => ?_, fun a ha => ?_⟩
  · exact (exec_rleLiteral s hlen).trans (congrArg (Host.Outcome.next ∘ streamStep s) hrun)
  · rw [readObuf_appended happ (hlen ▸ hj), List.getD_eq_getElem]
  · exact (readObuf_appended_frame happ (hlen ▸ ha)).trans rfl

end Sys2Proof.Machine
end

section
/-! SUPPORT. Completion of a command that computes its function (44_codec_interface.md R241 to R245), and RLE_DEC
(41_rle.md R157 to R160): its loop and the function of R157 read the stream alike, group by group. -/

namespace Sys2Proof.Machine

/-! ### Completion -/

/-- `Refines s out r p`: after the output `out`, the function's answer `r` and the procedure's answer `p` from `s` agree;
they are the same error, or what the function adds to `out` is what the procedure appends. -/
inductive Refines (s : State) (out : List Byte) : Except ErrorKind (List Byte) → Except ErrorKind State → Prop
  | ok {t : State} {vs : List Byte} (h : Appended s t vs) : Refines s out (.ok (out ++ vs)) (.ok t)
  | error (k : ErrorKind) : Refines s out (.error k) (.error k)

theorem errorWith_failCommand (k : ErrorKind) (s : State) : ErrorWith s (failCommand k s) k where
  state := rfl
  errKind := rfl
  olen := rfl
  phase := rfl
  ibuf _ := rfl
  ilen := rfl
  op := rfl
  cfg := rfl
  port := rfl
  reply := rfl

/-- What a procedure appends from OPOS 0 on is the result of the command. -/
theorem doneWith_completeDone {s t : State} {out : List Byte} (hroom : s.cfg.mMax < 2 ^ 64)
    (h : Appended { s with opos := 0 } t out) : DoneWith s (completeDone t) out := by
  have hsame : SameInput s t := sameInput_of_kept h.kept
  have hop : t.kept.op = s.kept.op := by rw [h.kept]; rfl
  have hlen : out.length < 2 ^ 64 := by
    rcases h.room with rfl | hfit
    · exact Nat.two_pow_pos 64
    · rw [h.opos] at hfit; dsimp only at hfit; omega
  have holen : (completeDone t).olen.toNat = out.length := by
    rw [completeDone_olen, BitVec.toNat_ofNat, h.opos, Nat.zero_add, Nat.mod_eq_of_lt hlen]
  have hresult : (completeDone t).result = out := by
    refine List.ext_getElem (by rw [result_length, holen]) fun j _ hj => ?_
    rw [← readObuf_appended h hj]
    simp only [State.result, obufOctets, List.getElem_map, List.getElem_range]
    rfl
  exact
    { state := rfl
      errKind := rfl
      olen := holen
      result := hresult
      phase := rfl
      ibuf := readIbuf_congr hsame.ibuf hsame.ibufEpoch
      ilen := hsame.ilen
      op := hop
      cfg := hsame.cfg
      port := hsame.port
      reply := hsame.reply }

section
variable {fn : Config → List Byte → Except ErrorKind (List Byte)} {proc : State → Except ErrorKind State} {s : State}

/-- A command whose procedure refines its function ends with the error that the function gives. -/
theorem execute_errorWith {k : ErrorKind} (h : Refines { s with opos := 0 } [] (fn s.cfg s.input) (proc s))
    (hout : outcomeOf fn s = .error k) : ErrorWith s (execute proc s) k := by
  rw [outcomeOf] at hout
  obtain ⟨hlong, hexec⟩ | ⟨hfits, hexec⟩ := execute_cases proc s
  · rw [if_pos hlong] at hout
    cases hout
    rw [hexec]
    exact errorWith_failCommand _ s
  · rw [if_neg (Nat.not_lt.mpr hfits)] at hout
    rw [hout] at h
    rw [hexec]
    generalize proc s = p at h ⊢
    cases h with
    | error => exact errorWith_failCommand k s

/-- A command whose procedure refines its function completes with the result that the function gives. -/
theorem execute_doneWith {out : List Byte} (hroom : s.cfg.mMax < 2 ^ 64)
    (h : Refines { s with opos := 0 } [] (fn s.cfg s.input) (proc s)) (hout : outcomeOf fn s = .ok out) :
    DoneWith s (execute proc s) out := by
  rw [outcomeOf] at hout
  obtain ⟨hlong, -⟩ | ⟨hfits, hexec⟩ := execute_cases proc s
  · rw [if_pos hlong] at hout
    cases hout
  · rw [if_neg (Nat.not_lt.mpr hfits)] at hout
    rw [hout] at h
    rw [hexec]
    generalize proc s = p at h ⊢
    cases h with
    | ok happ => exact doneWith_completeDone hroom happ

theorem execute_completesWith (hvalid : s.cfg.Valid)
    (h : Refines { s with opos := 0 } [] (fn s.cfg s.input) (proc s)) :
    CompletesWith s (execute proc s) (outcomeOf fn s) := by
  obtain ⟨-, -, -, hmax⟩ := hvalid
  cases hout : outcomeOf fn s with
  | ok out => exact execute_doneWith (by omega) h hout
  | error k => exact execute_errorWith h hout

end

/-- The outcome of a command can be read off its completion. -/
theorem CompletesWith.eq_of_error {s t : State} {r : Except ErrorKind (List Byte)} {k : ErrorKind}
    (h : CompletesWith s t r) (ht : ErrorWith s t k) : r = .error k := by
  cases r with
  | ok out => exact absurd (h.state.symm.trans ht.state) (by decide)
  | error k' => exact congrArg Except.error (Option.some.inj (h.errKind.symm.trans ht.errKind))

theorem CompletesWith.eq_of_done {s t : State} {r : Except ErrorKind (List Byte)}
    (h : CompletesWith s t r) (ht : t.runState = .done) : r = .ok t.result := by
  cases r with
  | ok out => exact congrArg Except.ok h.result.symm
  | error k => exact absurd (h.state.symm.trans ht) (by decide)

/-! ### One group, by the function and by the procedure -/

@[simp] theorem rleDecFuel_nil (c : Config) (fuel : Nat) (out : List Byte) : rleDecFuel c fuel [] out = .ok out := by
  cases fuel <;> rfl

theorem rleDecFuel_zero (c : Config) (os out : List Byte) : rleDecFuel c 0 os out = .ok out := by
  cases os <;> rfl

/-- `Dec` (R157) expands the first group of its stream, if there is room for its symbols. -/
theorem rleDecFuel_run (c : Config) (fuel : Nat) {r : Run} (hr : r.inRange = true) (rest out : List Byte) :
    rleDecFuel c (fuel + 1) (r.octets ++ rest) out =
      if c.mMax < out.length + r.symbols.length then .error .capacityExceeded
      else rleDecFuel c fuel rest (out ++ r.symbols) := by
  cases r with
  | rep s n =>
    obtain ⟨hlo, hhi⟩ := inRange_rep_iff.mp hr
    simp [Run.octets, Run.symbols, rleDecFuel, repeatCount_storedRepeat hlo hhi]
  | lit ss =>
    obtain ⟨hlo, hhi⟩ := inRange_lit_iff.mp hr
    by_cases hover : c.mMax < out.length + ss.length <;>
      simp [Run.octets, Run.symbols, rleDecFuel, literalCount_storedLiteral hlo hhi, hover]

/-- `Dec` stops at octets that are no group (R159). -/
theorem rleDecFuel_truncated (c : Config) (fuel : Nat) {os : List Byte} (out : List Byte) {e : Reject} (hne : os ≠ [])
    (h : decodeGroup os = .error e) : rleDecFuel c (fuel + 1) os out = .error .malformedStream := by
  obtain ⟨svc, payload, rfl⟩ := List.exists_cons_of_ne_nil hne
  obtain ⟨kind, n, rfl⟩ := exists_eq_serviceOctet svc
  have hshort := decodeGroup_error h
  cases kind with
  | true =>
    rw [List.length_eq_zero_iff.mp (Nat.lt_one_iff.mp hshort)]
    simp [rleDecFuel]
  | false => simp [rleDecFuel, show payload.length < literalCount n from hshort]

/-- The decoder's action on the group of a run that is next in the input. -/
theorem nextGroup_run {s : State} {r : Run} {rest : List Byte} (hr : r.inRange = true)
    (h : s.remaining = r.octets ++ rest) :
    nextGroup s = appendAll r.symbols { s with dSvc := r.service, ipos := s.ipos + r.octets.length } := by
  obtain ⟨rest', hwindow⟩ := decodeGroup_window_ok (h ▸ decodeGroup_run hr rest)
  rw [nextGroup, hwindow]
  cases r with
  | rep x c =>
    obtain ⟨hlo, hhi⟩ := inRange_rep_iff.mp hr
    simp only [Run.instr, repeatGroup, repeatCount_storedRepeat hlo hhi]
    rfl
  | lit ss =>
    obtain ⟨hlo, hhi⟩ := inRange_lit_iff.mp hr
    simp only [Run.instr, literalGroup, literalCount_storedLiteral hlo hhi, Run.octets, List.length_cons, Run.symbols,
      Run.service, Nat.add_comm 1]

theorem nextGroup_truncated {s : State} {e : Reject} (h : decodeGroup s.remaining = .error e) :
    nextGroup s = .error .malformedStream := by
  rw [nextGroup, decodeGroup_window_error h]

/-- A group moves IPOS past its octets and appends its symbols, if they fit. -/
theorem nextGroup_cases {s : State} {r : Run} {rest : List Byte} (hr : r.inRange = true)
    (h : s.remaining = r.octets ++ rest) :
    (s.cfg.mMax < s.opos + r.symbols.length ∧ nextGroup s = .error .capacityExceeded) ∨
    (s.opos + r.symbols.length ≤ s.cfg.mMax ∧
      ∃ t, nextGroup s = .ok t ∧ Appended s t r.symbols ∧ t.phase = s.phase ∧ t.remaining = rest) := by
  rw [nextGroup_run hr h]
  by_cases hfit : s.opos + r.symbols.length ≤ s.cfg.mMax
  · obtain ⟨t, hrun, ht, happ⟩ := appendAll_of_fits (vs := r.symbols)
      (s := { s with dSvc := r.service, ipos := s.ipos + r.octets.length }) hfit
    refine .inr ⟨hfit, t, hrun, ⟨happ.kept, happ.codes, happ.obuf, happ.opos, happ.room⟩, by rw [ht], ?_⟩
    have hsame : SameInput s t := sameInput_of_kept happ.kept
    have hipos : t.ipos = s.ipos + r.octets.length := by rw [ht]
    rw [remaining_moved hsame hipos, h, List.drop_left]
  · refine .inl ⟨by omega, ?_⟩
    rw [appendAll_eq, if_neg]
    exact not_or_intro (symbols_ne_nil hr) hfit

/-! ### RLE_DEC computes its function -/

theorem rleDecLoop_done {s : State} (fuel : Nat) (h : s.ilen.toNat ≤ s.ipos) : rleDecLoop fuel s = .ok s := by
  cases fuel with
  | zero => rfl
  | succ fuel => exact if_neg (Nat.not_lt.mpr h)

theorem rleDecLoop_step {s : State} (fuel : Nat) (h : s.ipos < s.ilen.toNat) :
    rleDecLoop (fuel + 1) s = nextGroup s >>= rleDecLoop fuel := if_pos h

theorem Refines.after {s t : State} {vs out : List Byte} {r : Except ErrorKind (List Byte)}
    {p : Except ErrorKind State} (h : Appended s t vs) (h' : Refines t (out ++ vs) r p) : Refines s out r p := by
  cases h' with
  | ok happ => rw [List.append_assoc]; exact .ok (h.trans happ)
  | error k => exact .error k

theorem refines_same (s : State) (out : List Byte) : Refines s out (.ok out) (.ok s) := by
  simpa using Refines.ok (out := out) (.refl s)

/-- The loop of R158 and the function of R157 agree from any point of the stream on, whatever the fuel. -/
theorem rleDecLoop_refines (fuel : Nat) {s : State} {out : List Byte} (hout : out.length = s.opos) :
    Refines s out (rleDecFuel s.cfg fuel s.remaining out) (rleDecLoop fuel s) := by
  induction fuel generalizing s out with
  | zero => rw [rleDecFuel_zero]; exact refines_same s out
  | succ fuel ih =>
    by_cases hend : s.ilen.toNat ≤ s.ipos
    · rw [remaining_eq_nil_iff.mpr hend, rleDecFuel_nil, rleDecLoop_done _ hend]
      exact refines_same s out
    · have hne : s.remaining ≠ [] := fun h => hend (remaining_eq_nil_iff.mp h)
      rw [rleDecLoop_step fuel (Nat.not_le.mp hend)]
      obtain ⟨r, rest, hr, hrest⟩ | ⟨e, he⟩ := stream_cases s.remaining
      · rw [hrest, rleDecFuel_run _ _ hr, hout]
        obtain ⟨hover, hnext⟩ | ⟨hfit, t, hnext, happ, -, hrem⟩ := nextGroup_cases hr hrest
        · rw [if_pos hover, hnext]
          exact .error _
        · rw [if_neg (Nat.not_lt.mpr hfit), hnext]
          refine .after happ ?_
          rw [← hrem, ← happ.cfg]
          exact ih (by rw [List.length_append, hout, happ.opos])
      · rw [rleDecFuel_truncated _ _ _ hne he, nextGroup_truncated he]
        exact .error _

theorem rleDecProc_refines (s : State) : Refines { s with opos := 0 } [] (rleDecFn s.cfg s.input) (rleDecProc s) := by
  have hloop := rleDecLoop_refines s.ilen.toNat (s := { s with phase := .rleD, ipos := 0, opos := 0 }) (out := []) rfl
  have hstart : Appended { s with opos := 0 } { s with phase := .rleD, ipos := 0, opos := 0 } [] :=
    ⟨rfl, ⟨rfl, rfl⟩, rfl, rfl, .inl rfl⟩
  rw [rleDecFn, input_length]
  exact .after hstart hloop

theorem exec_rleDec_busy {s : State} (hbusy : s.runState = .busy) : exec .rleDec s = .next (execute rleDecProc s) :=
  congrArg Host.Outcome.next (codecCommand_busy hbusy)

/-- Settles O38: the loop and the function agree group by group. -/
theorem rleDecComputesItsFunction : Obligations.RleDecComputesItsFunction := fun s hbusy hvalid =>
  ⟨_, exec_rleDec_busy hbusy, execute_completesWith hvalid (rleDecProc_refines s)⟩

/-! ### Concatenations of groups -/

/-- `Dec` expands a concatenation of groups whose symbols fit (R160). -/
theorem rleDecFuel_groups {c : Config} {rs : List Run} (hrs : ∀ r ∈ rs, r.inRange = true) (fuel : Nat) {out : List Byte}
    (hfuel : (rs.flatMap Run.octets).length ≤ fuel)
    (hfit : out.length + (rs.flatMap Run.symbols).length ≤ c.mMax) :
    rleDecFuel c fuel (rs.flatMap Run.octets) out = .ok (out ++ rs.flatMap Run.symbols) := by
  induction rs generalizing fuel out with
  | nil => simp
  | cons r rs ih =>
    obtain ⟨hr, hrs⟩ := List.forall_mem_cons.mp hrs
    have hpos := octets_pos r
    rw [List.flatMap_cons, List.length_append] at hfuel hfit
    obtain ⟨fuel, rfl⟩ : ∃ k, fuel = k + 1 := ⟨fuel - 1, by omega⟩
    rw [List.flatMap_cons, List.flatMap_cons, rleDecFuel_run c fuel hr, if_neg (by omega),
      ih hrs fuel (by omega) (by rw [List.length_append]; omega), List.append_assoc]

/-- A stream that `Dec` does not find malformed is a concatenation of groups, if OBUF has room for 129 symbols an octet. -/
theorem rleDecFuel_roomy {c : Config} (fuel : Nat) {os out : List Byte} (hfuel : os.length ≤ fuel)
    (hroom : out.length + 129 * os.length ≤ c.mMax) (h : rleDecFuel c fuel os out ≠ .error .malformedStream) :
    ∃ rs : List Run, (∀ r ∈ rs, r.inRange = true) ∧ os = rs.flatMap Run.octets := by
  induction fuel generalizing os out with
  | zero => exact ⟨[], List.forall_mem_nil _, List.length_eq_zero_iff.mp (Nat.le_zero.mp hfuel)⟩
  | succ fuel ih =>
    by_cases hne : os = []
    · exact ⟨[], List.forall_mem_nil _, hne⟩
    obtain ⟨r, rest, hr, rfl⟩ | ⟨e, he⟩ := stream_cases os
    · obtain ⟨hlow, -⟩ := octets_length_bounds hr
      have hpos := octets_pos r
      rw [List.length_append] at hfuel hroom
      rw [rleDecFuel_run c fuel hr, if_neg (by omega)] at h
      obtain ⟨rs, hrs, rfl⟩ := ih (by omega) (by rw [List.length_append]; omega) h
      exact ⟨r :: rs, List.forall_mem_cons.mpr ⟨hr, hrs⟩, rfl⟩
    · exact absurd (rleDecFuel_truncated c fuel out hne he) h

theorem symbols_length_le {rs : List Run} (hrs : ∀ r ∈ rs, r.inRange = true) :
    (rs.flatMap Run.symbols).length ≤ 129 * (rs.flatMap Run.octets).length := by
  induction rs with
  | nil => exact Nat.le_refl 0
  | cons r rs ih =>
    obtain ⟨hr, hrs⟩ := List.forall_mem_cons.mp hrs
    have hrest := ih hrs
    obtain ⟨hlow, -⟩ := octets_length_bounds hr
    rw [List.flatMap_cons, List.flatMap_cons, List.length_append, List.length_append]
    omega

theorem outcomeOf_rleDecFn_groups {s : State} {rs : List Run} (hfits : s.ilen.toNat ≤ s.cfg.nMax)
    (hrs : ∀ r ∈ rs, r.inRange = true) (hinput : s.input = rs.flatMap Run.octets)
    (hroom : (rs.flatMap Run.symbols).length ≤ s.cfg.mMax) : outcomeOf rleDecFn s = .ok (rs.flatMap Run.symbols) := by
  rw [outcomeOf, if_neg (Nat.not_lt.mpr hfits), rleDecFn, hinput]
  exact rleDecFuel_groups hrs _ le_rfl (by simpa using hroom)

/-- Settles O37: RLE_DEC computes its function, which expands a concatenation of groups. -/
theorem rleDecExpandsEveryGroupStream : Obligations.RleDecExpandsEveryGroupStream := by
  intro s rs hbusy hvalid hfits hrs hinput hroom
  obtain ⟨t, hexec, ht⟩ := rleDecComputesItsFunction s hbusy hvalid
  rw [outcomeOf_rleDecFn_groups hfits hrs hinput hroom] at ht
  exact ⟨t, hexec, ht⟩

/-- Settles O39: with room for any result the only error is a truncated group, and a concatenation of groups has none. -/
theorem rleDecMalformedExactlyOnTruncation : Obligations.RleDecMalformedExactlyOnTruncation := by
  intro s hbusy hvalid hfits hroom
  obtain ⟨t, hexec, ht⟩ := rleDecComputesItsFunction s hbusy hvalid
  constructor
  · rintro ⟨t', hexec', hmalformed⟩ ⟨rs, hrs, hinput⟩
    cases hexec.symm.trans hexec'
    have hsymbols := symbols_length_le hrs
    rw [← hinput, input_length] at hsymbols
    have hout := ht.eq_of_error hmalformed
    rw [outcomeOf_rleDecFn_groups hfits hrs hinput (hsymbols.trans hroom)] at hout
    cases hout
  · intro hnone
    have hout : rleDecFn s.cfg s.input = .error .malformedStream := by
      by_contra h
      exact hnone (rleDecFuel_roomy _ le_rfl (by simpa using hroom) h)
    rw [outcomeOf, if_neg (Nat.not_lt.mpr hfits), hout] at ht
    exact ⟨t, hexec, ht⟩

/-! ### Group by group -/

/-- In P_RLE_D a step carries out the next group. -/
theorem step_group {s : State} (hport : s.port = []) (hbusy : s.runState = .busy) (hphase : s.phase = .rleD)
    (hin : s.ipos < s.ilen.toNat) : step s = .next (streamStep s (nextGroup s)) := by
  have hfetch := fetch_group hbusy hphase
  obtain ⟨r, rest, hr, hrest⟩ | ⟨e, he⟩ := stream_cases s.remaining
  · have hdecode : decodeGroup s.remaining = .ok (r.instr, rest) := hrest ▸ decodeGroup_run hr rest
    rw [step_of_fetch hport (hfetch.trans (fetchGroup_run hin hdecode))]
    obtain ⟨rest', hwindow⟩ := decodeGroup_window_ok hdecode
    rw [nextGroup, hwindow]
    cases r with
    | rep x c => rfl
    | lit ss =>
      obtain ⟨hlo, hhi⟩ := inRange_lit_iff.mp hr
      exact exec_rleLiteral s (literalCount_storedLiteral hlo hhi).symm
  · rw [step_of_fetch_raise hport (hfetch.trans (fetchGroup_raise hin he)), nextGroup_truncated he]
    rfl

/-- In P_RLE_D, past the last group, a step completes the command. -/
theorem step_lastGroup {s : State} (hport : s.port = []) (hbusy : s.runState = .busy) (hphase : s.phase = .rleD)
    (hend : s.ilen.toNat ≤ s.ipos) : step s = .next (completeDone s) := by
  have hfetch : fetch s = .finish := by rw [fetch_group hbusy hphase, fetchGroup, if_neg (Nat.not_lt.mpr hend)]
  simp only [step, hport, sequencerTurn, hfetch, finish, hphase]

/-- A run of any machine goes on from where its first step leads. -/
theorem coreRun_succ {M : Host.Core} {s t : M.State} (h : M.step s = .next t) (k : Nat) :
    M.run (k + 1) s = M.run k t := by
  rw [Host.Core.run, h]

theorem run_succ {s t : State} (h : step s = .next t) (k : Nat) :
    Host.Core.run Sys2Proof.core (k + 1) s = Host.Core.run Sys2Proof.core k t := coreRun_succ (M := Sys2Proof.core) h k

/-- With no host action left, a state outside BUSY stays as it is. -/
theorem run_of_free {s : State} (hport : s.port = []) (hfree : s.runState ≠ .busy) (k : Nat) :
    Host.Core.run Sys2Proof.core k s = .next s := by
  have hstep : step s = .next s := by simp only [step, hport, sequencerTurn, fetch, if_neg hfree]
  induction k with
  | zero => rfl
  | succ k ih => rw [run_succ hstep]; exact ih

/-- What a host sees of the end of a command: STATUS, OLEN and OBUF. -/
structure SameEnd (u t : State) : Prop where
  status : statusWord u = statusWord t
  olen : u.olen = t.olen
  obuf : ∀ a, readObuf u a = readObuf t a

theorem SameEnd.refl (t : State) : SameEnd t t := ⟨rfl, rfl, fun _ => rfl⟩

/-- An error ends a command alike wherever in it it is met: nothing but the draw behind OBUF is left of the state. -/
theorem sameEnd_failCommand (k : ErrorKind) {s t : State} (h : t.fresh = s.fresh) :
    SameEnd (failCommand k t) (failCommand k s) where
  status := rfl
  olen := rfl
  obuf a := show Config.obufFree t.fresh a = Config.obufFree s.fresh a by rw [h]

theorem runState_eq_of_kept {s t : State} (h : t.kept = s.kept) : t.runState = s.runState :=
  show t.kept.runState = s.kept.runState by rw [h]

theorem fresh_eq_of_kept {s t : State} (h : t.kept = s.kept) : t.fresh = s.fresh :=
  show t.kept.fresh = s.kept.fresh by rw [h]

/-- Steps from P_RLE_D end as the loop of R158 does, when they are enough for every octet that remains. -/
theorem run_groups (fuel : Nat) {s₀ s : State} (hfresh : s.fresh = s₀.fresh) (hport : s.port = [])
    (hbusy : s.runState = .busy) (hphase : s.phase = .rleD) (hfuel : s.remaining.length ≤ fuel) :
    ∃ u, Host.Core.run Sys2Proof.core (fuel + 1) s = .next u ∧ SameEnd u (complete s₀ (rleDecLoop fuel s)) := by
  induction fuel generalizing s with
  | zero =>
    have hend := remaining_eq_nil_iff.mp (List.length_eq_zero_iff.mp (Nat.le_zero.mp hfuel))
    exact ⟨completeDone s, run_succ (step_lastGroup hport hbusy hphase hend) 0, .refl _⟩
  | succ fuel ih =>
    by_cases hend : s.ilen.toNat ≤ s.ipos
    · rw [run_succ (step_lastGroup hport hbusy hphase hend), rleDecLoop_done _ hend]
      exact ⟨completeDone s, run_of_free (s := completeDone s) hport (by simp) _, .refl _⟩
    · have hin := Nat.not_le.mp hend
      rw [run_succ (step_group hport hbusy hphase hin), rleDecLoop_step fuel hin]
      have hfails : ∀ k, nextGroup s = .error k →
          ∃ u, Host.Core.run Sys2Proof.core (fuel + 1) (streamStep s (nextGroup s)) = .next u ∧
            SameEnd u (complete s₀ (nextGroup s >>= rleDecLoop fuel)) := by
        intro k hk
        rw [hk]
        exact ⟨failCommand k s, run_of_free (s := failCommand k s) hport (by simp) _, sameEnd_failCommand k hfresh⟩
      obtain ⟨r, rest, hr, hrest⟩ | ⟨e, he⟩ := stream_cases s.remaining
      · obtain ⟨-, hnext⟩ | ⟨-, t, hnext, happ, htphase, hrem⟩ := nextGroup_cases hr hrest
        · exact hfails _ hnext
        · rw [hnext]
          have hpos := octets_pos r
          rw [hrest, List.length_append, ← hrem] at hfuel
          exact ih (s := t) ((fresh_eq_of_kept happ.kept).trans hfresh) ((sameInput_of_kept happ.kept).port.trans hport)
            ((runState_eq_of_kept happ.kept).trans hbusy) (htphase.trans hphase) (by omega)
      · exact hfails _ (nextGroup_truncated he)

/-- Settles O41: each step carries out one round of the loop, and an error in any round ends alike. -/
theorem groupByGroupIsRleDec : Obligations.GroupByGroupIsRleDec := by
  intro s hbusy _ hport hfits
  obtain ⟨hlong, -⟩ | ⟨-, hexec⟩ := execute_cases rleDecProc s
  · exact absurd hfits (Nat.not_le.mpr hlong)
  obtain ⟨u, hrun, hend⟩ := run_groups s.ilen.toNat (s₀ := s) (s := { s with phase := .rleD, ipos := 0, opos := 0 })
    rfl hport hbusy rfl (by simp)
  refine ⟨_, u, exec_rleDec_busy hbusy, hrun, ?_⟩
  rw [hexec]
  exact ⟨hend.status, hend.olen, hend.obuf⟩

end Sys2Proof.Machine
end

section
/-! SUPPORT. RLE_ENC (41_rle.md R150 to R155, R161): the registers of the encoder hold the open run of the classification,
and the procedure emits the groups of the runs that the classification closes. -/

namespace Sys2Proof.Machine

/-! ### Emitting octets -/

/-- `Emits s vs Q p`: from `s` the procedure's answer `p` appends exactly `vs` and reaches a state in `Q`, or `vs` does
not fit OBUF and it is CapacityExceeded (60_exceptions.md R271). -/
inductive Emits (s : State) (vs : List Byte) (Q : State → Prop) : Except ErrorKind State → Prop
  | ok {t : State} (h : Appended s t vs) (hQ : Q t) : Emits s vs Q (.ok t)
  | noRoom (h : s.cfg.mMax < s.opos + vs.length) : Emits s vs Q (.error .capacityExceeded)

theorem Emits.bind {s : State} {vs ws : List Byte} {Q Q' : State → Prop} {p : Except ErrorKind State}
    {f : State → Except ErrorKind State} (h : Emits s vs Q p)
    (hf : ∀ {t}, Appended s t vs → Q t → Emits t ws Q' (f t)) : Emits s (vs ++ ws) Q' (p >>= f) := by
  cases h with
  | noRoom hroom => exact .noRoom (by rw [List.length_append]; omega)
  | @ok t happ hQ =>
    show Emits s (vs ++ ws) Q' (f t)
    have hnext := hf happ hQ
    generalize f t = p' at hnext ⊢
    cases hnext with
    | ok happ' hQ' => exact .ok (happ.trans happ') hQ'
    | noRoom hroom =>
      rw [happ.cfg, happ.opos] at hroom
      exact .noRoom (by rw [List.length_append]; omega)

theorem Emits.weaken {s : State} {vs : List Byte} {Q : State → Prop} {p : Except ErrorKind State}
    (h : Emits s vs Q p) : Emits s vs (fun _ => True) p := by
  cases h with
  | ok happ _ => exact .ok happ trivial
  | noRoom hroom => exact .noRoom hroom

/-- A change of scratch before the emission. -/
theorem Emits.after {s t : State} {vs : List Byte} {Q : State → Prop} {p : Except ErrorKind State}
    (h : Emits t vs Q p) (happ : Appended s t []) : Emits s vs Q p :=
  Emits.bind (vs := []) (p := .ok t) (f := fun _ => p) (.ok (Q := (· = t)) happ rfl) (fun _ ht => ht ▸ h)

/-- A change of scratch after the emission. -/
theorem Emits.map {s : State} {vs : List Byte} {Q Q' : State → Prop} {p : Except ErrorKind State} {f : State → State}
    (h : Emits s vs Q p) (hf : ∀ {t}, Q t → Appended t (f t) [] ∧ Q' (f t)) :
    Emits s vs Q' (p >>= fun t => .ok (f t)) := by
  rw [← List.append_nil vs]
  exact h.bind fun _ hQ => .ok (hf hQ).1 (hf hQ).2

/-- A command that emits `vs` from OPOS 0 on refines the function that gives `vs`, or CapacityExceeded. -/
theorem Emits.refines {s : State} {vs : List Byte} {Q : State → Prop} {p : Except ErrorKind State} (h : Emits s vs Q p)
    (hopos : s.opos = 0) (hne : vs ≠ []) :
    Refines s [] (if s.cfg.mMax < vs.length then .error .capacityExceeded else .ok vs) p := by
  cases h with
  | ok happ hQ =>
    have hfit := happ.room.resolve_left hne
    rw [happ.opos] at hfit
    rw [if_neg (by omega)]
    exact .ok happ
  | noRoom hroom =>
    rw [if_pos (by omega)]
    exact .error _

/-- Appending octets leaves the cursor of the input and the registers of the encoder as they are. -/
theorem appendAll_emits (vs : List Byte) (s : State) :
    Emits s vs (fun t => t.ipos = s.ipos ∧ t.re = s.re) (appendAll vs s) := by
  cases h : appendAll vs s with
  | ok t =>
    have happ := appendAll_appended h
    rw [appendAll_eq] at h
    split at h <;> cases h
    exact .ok happ ⟨rfl, rfl⟩
  | error k =>
    rw [appendAll_eq] at h
    split at h <;> cases h
    next hroom => exact .noRoom (Nat.not_le.mp (not_or.mp hroom).2)

/-! ### The registers of the encoder -/

/-- The encoder's registers (10_state.md R38) hold the open run. -/
def HoldsRun (re : RleEncUnit) : Option Run → Prop
  | none => re.mode = .none
  | some (.lit ss) => re.mode = .lit ∧ re.lCnt = ss.length ∧ re.litBuf.toList.take ss.length = ss
  | some (.rep x c) => re.mode = .rep ∧ re.sym = x ∧ re.cnt = c

/-- The last symbol of a held literal is the one before L_CNT. -/
theorem litAt_last {s : State} {ss : List Byte} (h : HoldsRun s.re (some (.lit ss))) (hlo : 1 ≤ ss.length) :
    ss.getLast? = some (litAt s (s.re.lCnt - 1)) := by
  obtain ⟨-, hcnt, hbuf⟩ := h
  have hlt : ss.length - 1 < ss.length := by omega
  have hcell : ss[ss.length - 1]? = s.re.litBuf.toList[ss.length - 1]? := by
    have hcell := List.getElem?_take_of_lt (l := s.re.litBuf.toList) hlt
    rwa [hbuf] at hcell
  rw [litAt, hcnt, List.getLast?_eq_getElem?, List.getD_eq_getElem?_getD, ← hcell, List.getElem?_eq_getElem hlt]
  rfl

/-- Writing the next symbol into LITBUF lengthens the held literal. -/
theorem holdLiteral_holds {s : State} {ss : List Byte} (c : Byte) (hlen : ss.length < 128)
    (hbuf : s.re.litBuf.toList.take ss.length = ss) :
    HoldsRun (holdLiteral ss.length c s).re (some (.lit (ss ++ [c]))) := by
  refine ⟨rfl, by simp [holdLiteral], ?_⟩
  simp only [holdLiteral, Vector.toList_setIfInBounds, List.length_append, List.length_singleton]
  rw [List.take_add_one, List.take_set_of_le le_rfl, hbuf, List.getElem?_set_self (by simpa using hlen)]
  rfl

theorem holdLiteral_zero_holds (s : State) (c : Byte) : HoldsRun (holdLiteral 0 c s).re (some (.lit [c])) :=
  holdLiteral_holds (ss := []) c (by decide) rfl

theorem holdLiteral_appended (i : Nat) (c : Byte) (s : State) : Appended s (holdLiteral i c s) [] :=
  ⟨rfl, ⟨rfl, rfl⟩, rfl, rfl, .inl rfl⟩

theorem closeRun_appended (s : State) : Appended s (closeRun s) [] := ⟨rfl, ⟨rfl, rfl⟩, rfl, rfl, .inl rfl⟩

theorem startRepeat_appended (c : Byte) (s : State) : Appended s (startRepeat c s) [] :=
  ⟨rfl, ⟨rfl, rfl⟩, rfl, rfl, .inl rfl⟩

theorem countRepeat_appended (s : State) : Appended s (countRepeat s) [] := ⟨rfl, ⟨rfl, rfl⟩, rfl, rfl, .inl rfl⟩

/-- The group of a run, if there is one. -/
def groupOctets : Option Run → List Byte
  | none => []
  | some r => r.octets

/-- `EmitLiteral` (R154) of the first symbols of LITBUF emits their group. -/
theorem emitLiteral_emits {s : State} {ss : List Byte} (hbuf : s.re.litBuf.toList.take ss.length = ss) :
    Emits s (Run.lit ss).octets (fun t => t.ipos = s.ipos ∧ t.re = s.re) (emitLiteral ss.length s) := by
  rw [emitLiteral, hbuf]
  exact appendAll_emits ..

/-- `EmitRepeat` (R153) emits the group of the held repeat. -/
theorem emitRepeat_emits {s : State} {x : Byte} {c : Nat} (h : HoldsRun s.re (some (.rep x c))) :
    Emits s (Run.rep x c).octets (fun t => t.ipos = s.ipos ∧ t.re = s.re) (emitRepeat s) := by
  obtain ⟨-, rfl, rfl⟩ := h
  exact appendAll_emits ..

/-! ### One symbol -/

/-- What the registers hold after a symbol that leaves `o` open. -/
def Leaves (s : State) (o : Option Run) (t : State) : Prop := t.ipos = s.ipos ∧ HoldsRun t.re o

theorem rleSymbol_repeat_emits (y : Byte) {s : State} {x : Byte} {c : Nat} (h : HoldsRun s.re (some (.rep x c))) :
    Emits s (groupOctets (classify y (some (.rep x c))).1) (Leaves s (classify y (some (.rep x c))).2)
      (rleSymbol y s) := by
  obtain ⟨hmode, hsym, hcnt⟩ := h
  have hcount : HoldsRun (countRepeat s).re (some (.rep x (c + 1))) := ⟨hmode, hsym, congrArg (· + 1) hcnt⟩
  have hcnt' : (countRepeat s).re.cnt = c + 1 := hcount.2.2
  simp only [rleSymbol, hmode, classify, hsym, hcnt', Config.maxRepeat]
  split
  case isTrue hsame =>
    split
    case isTrue hfull =>
      refine Emits.after (Emits.map (emitRepeat_emits hcount) ?_) (countRepeat_appended s)
      rintro t ⟨hipos, -⟩
      exact ⟨closeRun_appended t, hipos, rfl⟩
    case isFalse hfull => exact .ok (countRepeat_appended s) ⟨rfl, hcount⟩
  case isFalse hother =>
    refine Emits.map (emitRepeat_emits ⟨hmode, hsym, hcnt⟩) ?_
    rintro t ⟨hipos, -⟩
    exact ⟨holdLiteral_appended 0 y t, hipos, holdLiteral_zero_holds t y⟩

theorem rleSymbol_literal_emits (y : Byte) {s : State} {ss : List Byte} (hlo : 1 ≤ ss.length) (hhi : ss.length < 128)
    (h : HoldsRun s.re (some (.lit ss))) :
    Emits s (groupOctets (classify y (some (.lit ss))).1) (Leaves s (classify y (some (.lit ss))).2)
      (rleSymbol y s) := by
  have hlast := litAt_last h hlo
  obtain ⟨hmode, hcnt, hbuf⟩ := h
  have hnext := holdLiteral_holds y hhi hbuf
  rw [hcnt] at hlast
  simp only [rleSymbol, hmode, hcnt, classify, hlast, Option.some.injEq, eq_comm (a := litAt s (ss.length - 1)),
    Config.maxLiteral]
  split
  case isTrue hsame =>
    have hstart : ∀ {t}, t.ipos = s.ipos ∧ t.re = s.re →
        Appended t (startRepeat y t) [] ∧ Leaves s (some (.rep y 2)) (startRepeat y t) :=
      fun ht => ⟨startRepeat_appended y _, ht.1, rfl, rfl, rfl⟩
    by_cases hlong : 1 < ss.length
    · rw [if_pos hlong, if_pos (by omega)]
      have hinit : s.re.litBuf.toList.take ss.dropLast.length = ss.dropLast := by
        rw [List.length_dropLast, List.dropLast_eq_take]
        calc s.re.litBuf.toList.take (ss.length - 1)
            = (s.re.litBuf.toList.take ss.length).take (ss.length - 1) := by
              rw [List.take_take, min_eq_left (Nat.sub_le _ _)]
          _ = ss.take (ss.length - 1) := by rw [hbuf]
      rw [show ss.length - 1 = ss.dropLast.length by simp]
      exact Emits.map (emitLiteral_emits hinit) hstart
    · rw [if_neg hlong, if_neg (by omega)]
      exact .ok (startRepeat_appended y s) (hstart ⟨rfl, rfl⟩).2
  case isFalse hother =>
    have hlen : (ss ++ [y]).length = ss.length + 1 := List.length_append
    have hcnt' : (holdLiteral ss.length y s).re.lCnt = ss.length + 1 := hnext.2.1.trans hlen
    have hemit := emitLiteral_emits hnext.2.2
    rw [hlen] at hemit
    rw [hcnt']
    split
    case isTrue hfull =>
      refine Emits.after (Emits.map hemit ?_) (holdLiteral_appended ss.length y s)
      rintro t ⟨hipos, -⟩
      exact ⟨closeRun_appended t, hipos, rfl⟩
    case isFalse hfull => exact .ok (holdLiteral_appended _ y s) ⟨rfl, hnext⟩

/-- R152 on one symbol is the classification of it: the group of the run that it closes is emitted, and the registers hold
the run that is open from then on. -/
theorem rleSymbol_emits (y : Byte) {s : State} {o : Option Run} (ho : OpenRun o) (h : HoldsRun s.re o) :
    Emits s (groupOctets (classify y o).1) (Leaves s (classify y o).2) (rleSymbol y s) := by
  match o, ho, h with
  | none, _, hmode =>
    rw [rleSymbol, show s.re.mode = .none from hmode]
    exact .ok (holdLiteral_appended 0 y s) ⟨rfl, holdLiteral_zero_holds s y⟩
  | some (.lit ss), ⟨hlo, hhi, hchain⟩, h => exact rleSymbol_literal_emits y hlo hhi h
  | some (.rep x c), ⟨hlo, hhi⟩, h => exact rleSymbol_repeat_emits y h

/-! ### The whole input -/

/-- The flush (R152) emits the open run, which is the last one. -/
theorem rleFlush_emits {s : State} {o : Option Run} (h : HoldsRun s.re o) :
    Emits s (groupOctets o) (fun _ => True) (rleFlush s) := by
  match o, h with
  | none, hmode =>
    rw [rleFlush, show s.re.mode = .none from hmode]
    exact .ok (.refl s) trivial
  | some (.lit ss), ⟨hmode, hcnt, hbuf⟩ =>
    rw [rleFlush, hmode]
    exact hcnt ▸ (emitLiteral_emits hbuf).weaken
  | some (.rep x c), h =>
    rw [rleFlush, h.1]
    exact (emitRepeat_emits h).weaken

theorem rleStream_firstRun {r : Run} {rest : List Byte} (h : FirstRun r rest) :
    rleStream (r.symbols ++ rest) = r.octets ++ rleStream rest := by
  rw [rleStream, runs_firstRun h, List.flatMap_cons]
  rfl

/-- At the end of the input the stream of the open run is its group. -/
theorem rleStream_open {o : Option Run} (ho : OpenRun o) : rleStream (openSymbols o) = groupOctets o := by
  cases o with
  | none => rfl
  | some r =>
    have hlast := rleStream_firstRun ho.firstRun_nil
    rwa [List.append_nil, show rleStream [] = [] from rfl, List.append_nil] at hlast

/-- The stream of an input after one symbol of classification: the group that is closed, then the stream of the rest. -/
theorem rleStream_classify (y : Byte) {o : Option Run} (ho : OpenRun o) (ys : List Byte) :
    rleStream (openSymbols o ++ y :: ys) =
      groupOctets (classify y o).1 ++ rleStream (openSymbols (classify y o).2 ++ ys) := by
  obtain ⟨-, hsyms, hfirst⟩ := classify_spec y ho
  rw [List.append_cons, hsyms, List.append_assoc]
  cases hclosed : (classify y o).1 with
  | none => rfl
  | some r => exact rleStream_firstRun (hfirst r hclosed ys)

/-- The loop and the flush of R152 emit the stream of the open run and what remains of the input. -/
theorem rleEncLoop_emits (fuel : Nat) {s : State} {o : Option Run} (ho : OpenRun o) (h : HoldsRun s.re o)
    (hfuel : s.remaining.length ≤ fuel) :
    Emits s (rleStream (openSymbols o ++ s.remaining)) (fun _ => True) (rleEncLoop fuel s >>= rleFlush) := by
  induction fuel generalizing s o with
  | zero =>
    rw [List.length_eq_zero_iff.mp (Nat.le_zero.mp hfuel), List.append_nil, rleStream_open ho]
    exact rleFlush_emits h
  | succ fuel ih =>
    rw [rleEncLoop]
    by_cases hin : s.ipos < s.ilen.toNat
    · rw [if_pos hin, bind_assoc, remaining_cons hin, rleStream_classify _ ho]
      rw [remaining_cons hin, List.length_cons] at hfuel
      refine (rleSymbol_emits (readIbuf s s.ipos) (s := { s with ipos := s.ipos + 1 }) ho h |>.bind ?_).after ?_
      · intro t happ ht
        have hrest : t.remaining = { s with ipos := s.ipos + 1 }.remaining :=
          remaining_moved (k := 0) (sameInput_of_kept happ.kept) ht.1
        rw [← hrest] at hfuel ⊢
        exact ih (classify_spec _ ho).1 ht.2 (by omega)
      · exact ⟨rfl, ⟨rfl, rfl⟩, rfl, rfl, .inl rfl⟩
    · rw [if_neg hin, remaining_eq_nil_iff.mpr (Nat.not_lt.mp hin), List.append_nil, rleStream_open ho]
      exact rleFlush_emits h

theorem rleStream_ne_nil {x : List Byte} (hx : x ≠ []) : rleStream x ≠ [] := by
  intro h
  have hlow := (rleStream_length_bounds x).1
  have hpos : 0 < x.length := List.length_pos_iff.mpr hx
  rw [h, List.length_nil] at hlow
  omega

theorem input_eq_nil_iff {s : State} : s.input = [] ↔ s.ilen = 0 := by
  rw [← List.length_eq_zero_iff, input_length]
  exact ⟨fun h => BitVec.eq_of_toNat_eq h, fun h => h ▸ rfl⟩

/-- RLE_ENC computes the function of R150 and R151. -/
theorem rleEncProc_refines (s : State) : Refines { s with opos := 0 } [] (rleEncFn s.cfg s.input) (rleEncProc s) := by
  rw [rleEncFn, rleEncProc]
  by_cases hlen : s.ilen = 0
  · rw [if_pos (input_eq_nil_iff.mpr hlen), if_pos hlen]
    exact .error _
  · have hne : s.input ≠ [] := mt input_eq_nil_iff.mp hlen
    rw [if_neg hne, if_neg hlen]
    have hloop := rleEncLoop_emits s.ilen.toNat (s := closeRun { s with phase := .rleE, ipos := 0, opos := 0 })
      (o := none) trivial rfl (by simp [closeRun])
    exact (hloop.after (s := { s with opos := 0 }) ⟨rfl, ⟨rfl, rfl⟩, rfl, rfl, .inl rfl⟩).refines rfl
      (rleStream_ne_nil hne)

theorem exec_rleEnc_busy {s : State} (hbusy : s.runState = .busy) : exec .rleEnc s = .next (execute rleEncProc s) :=
  congrArg Host.Outcome.next (codecCommand_busy hbusy)

theorem outcomeOf_rleEncFn {s : State} (hfits : s.ilen.toNat ≤ s.cfg.nMax) :
    outcomeOf rleEncFn s = rleEncFn s.cfg s.input := if_neg (Nat.not_lt.mpr hfits)

/-- Settles O34: the procedure refines the function of R151, which gives the stream where it fits. -/
theorem rleEncGivesTheRuns : Obligations.RleEncGivesTheRuns := by
  intro s hbusy hvalid hlen hfits hroom
  refine ⟨_, exec_rleEnc_busy hbusy, execute_doneWith ?_ (rleEncProc_refines s) ?_⟩
  · obtain ⟨-, -, -, hmax⟩ := hvalid
    omega
  · rw [outcomeOf_rleEncFn hfits, rleEncFn, if_neg (mt input_eq_nil_iff.mp hlen), if_neg (Nat.not_lt.mpr hroom)]

/-- Settles O35: the function's error in each of the three cases. -/
theorem rleEncErrors : Obligations.RleEncErrors := by
  intro s hbusy
  have hends : ∀ k, outcomeOf rleEncFn s = .error k → ∃ t, exec .rleEnc s = .next t ∧ ErrorWith s t k :=
    fun k hk => ⟨_, exec_rleEnc_busy hbusy, execute_errorWith (rleEncProc_refines s) hk⟩
  refine ⟨fun hlong => hends _ (if_pos hlong), fun hlen => hends _ ?_, fun hlen hfits hroom => hends _ ?_⟩
  · have hzero : s.ilen.toNat = 0 := by rw [hlen]; rfl
    rw [outcomeOf_rleEncFn (by omega), rleEncFn, if_pos (input_eq_nil_iff.mpr hlen)]
  · rw [outcomeOf_rleEncFn hfits, rleEncFn, if_neg (mt input_eq_nil_iff.mp hlen), if_pos hroom]

theorem rleEncFn_ok {c : Config} {x out : List Byte} (h : rleEncFn c x = .ok out) : out = rleStream x := by
  rw [rleEncFn] at h
  split at h
  · cases h
  · split at h <;> cases h
    rfl

/-- Settles O40: a DONE result is the groups of `Runs(x)`, whose symbols are `x`. -/
theorem rleRoundTrip : Obligations.RleRoundTrip := by
  intro s t u hbusy hvalid hexec hdone hbusy' hvalid' hinput hfits hroom
  cases (exec_rleEnc_busy hbusy).symm.trans hexec
  have hout := (execute_completesWith hvalid (rleEncProc_refines s)).eq_of_done hdone
  have hresult : u.input = (runs s.input).flatMap Run.octets := by
    rw [hinput]
    rw [outcomeOf] at hout
    split at hout
    · cases hout
    · exact rleEncFn_ok hout
  have hsyms := runs_symbols s.input
  obtain ⟨v, hv, hdec⟩ := rleDecExpandsEveryGroupStream u (runs s.input) hbusy' hvalid' hfits
    (runs_inRange s.input) hresult (by rw [hsyms, input_length]; exact hroom)
  rw [hsyms] at hdec
  exact ⟨v, hv, hdec⟩

end Sys2Proof.Machine
end

section
/-! SUPPORT. The tree of an input and its codes (42_huffman_encoder.md R171 to R176, R184): each round of the builder
joins the two least entries of its queue, so that the tree has one leaf for each symbol that occurs, and paths from the
root to different leaves part. -/

namespace Sys2Proof.Machine

/-! ### The least entry of a queue -/

/-- The order of R173: by weight, then by number. -/
def rank (e : Nat × Tree) : Nat ×ₗ Nat := toLex (e.2.weight, e.1)

theorem leastOf_cons (q e : Nat × Tree) (qs : List (Nat × Tree)) :
    leastOf q (e :: qs) = leastOf (if rank e < rank q then e else q) qs := by
  simp only [leastOf, List.foldl_cons, rank, Prod.Lex.toLex_lt_toLex]

theorem leastOf_mem (q : Nat × Tree) (qs : List (Nat × Tree)) : leastOf q qs ∈ q :: qs := by
  induction qs generalizing q with
  | nil => exact List.mem_singleton_self q
  | cons e qs ih =>
    rw [leastOf_cons]
    split
    · exact List.mem_cons_of_mem q (ih e)
    · rcases List.mem_cons.mp (ih q) with h | h
      · rw [h]; exact List.mem_cons_self
      · exact List.mem_cons_of_mem q (List.mem_cons_of_mem e h)

theorem rank_leastOf_le {q e : Nat × Tree} {qs : List (Nat × Tree)} (he : e ∈ q :: qs) :
    rank (leastOf q qs) ≤ rank e := by
  induction qs generalizing q e with
  | nil => rw [List.mem_singleton.mp he]; rfl
  | cons e' qs ih =>
    rw [leastOf_cons]
    have hhead : rank (leastOf (if rank e' < rank q then e' else q) qs) ≤ rank (if rank e' < rank q then e' else q) :=
      ih List.mem_cons_self
    have hmin : rank (if rank e' < rank q then e' else q) ≤ rank q ∧
        rank (if rank e' < rank q then e' else q) ≤ rank e' := by
      split
      next hlt => exact ⟨hlt.le, le_rfl⟩
      next hge => exact ⟨le_rfl, not_lt.mp hge⟩
    obtain rfl | rfl | he := by simpa only [List.mem_cons] using he
    · exact hhead.trans hmin.1
    · exact hhead.trans hmin.2
    · exact ih (List.mem_cons_of_mem _ he)

/-! ### One round of the builder -/

/-- A queue whose entries have different numbers, all below the next one. -/
structure QueueWf (next : Nat) (qs : List (Nat × Tree)) : Prop where
  nodup : (qs.map Prod.fst).Nodup
  below : ∀ e ∈ qs, e.1 < next

theorem QueueWf.perm {next : Nat} {qs qs' : List (Nat × Tree)} (h : QueueWf next qs) (hp : qs.Perm qs') :
    QueueWf next qs' :=
  ⟨(hp.map _).nodup_iff.mp h.nodup, fun e he => h.below e (hp.mem_iff.mpr he)⟩

theorem QueueWf.tail {next : Nat} {q : Nat × Tree} {qs : List (Nat × Tree)} (h : QueueWf next (q :: qs)) :
    QueueWf next qs :=
  ⟨(List.nodup_cons.mp h.nodup).2, fun e he => h.below e (List.mem_cons_of_mem q he)⟩

theorem nodup_snoc {α : Type} {l : List α} {a : α} (hl : l.Nodup) (ha : a ∉ l) : (l ++ [a]).Nodup :=
  List.concat_eq_append ▸ hl.concat ha

theorem QueueWf.snoc {next : Nat} {qs : List (Nat × Tree)} (h : QueueWf next qs) (t : Tree) :
    QueueWf (next + 1) (qs ++ [(next, t)]) where
  nodup := by
    rw [List.map_append]
    refine nodup_snoc h.nodup fun hmem => ?_
    obtain ⟨e, he, heq⟩ := List.mem_map.mp hmem
    exact (h.below e he).ne heq
  below e he := by
    rcases List.mem_append.mp he with he | he
    · have := h.below e he; omega
    · rw [List.mem_singleton.mp he]; exact Nat.lt_succ_self next

/-- Where the numbers differ, the entries of other numbers than `a`'s are the entries but `a`. -/
theorem perm_cons_filter_ne {qs : List (Nat × Tree)} {a : Nat × Tree} (hnodup : (qs.map Prod.fst).Nodup) (ha : a ∈ qs) :
    qs.Perm (a :: qs.filter (fun e => e.1 != a.1)) := by
  induction qs with
  | nil => cases ha
  | cons q qs ih =>
    rw [List.map_cons, List.nodup_cons] at hnodup
    obtain ⟨hq, hnodup⟩ := hnodup
    rcases List.mem_cons.mp ha with rfl | ha
    · have hall : qs.filter (fun e => e.1 != a.1) = qs :=
        List.filter_eq_self.mpr fun e he => bne_iff_ne.mpr fun heq => hq (heq ▸ List.mem_map_of_mem he)
      rw [List.filter_cons_of_neg (by simp), hall]
    · have hne : q.1 ≠ a.1 := fun heq => hq (heq ▸ List.mem_map_of_mem ha)
      rw [List.filter_cons_of_pos (by exact bne_iff_ne.mpr hne)]
      exact ((ih hnodup ha).cons q).trans (.swap a q _)

/-- `a` and `b` are the two entries popped first from `qs`, in this order, and `rest` is what they leave. -/
structure TwoLeast (qs : List (Nat × Tree)) (a b : Nat × Tree) (rest : List (Nat × Tree)) : Prop where
  perm : qs.Perm (a :: b :: rest)
  first : ∀ e ∈ b :: rest, rank a ≤ rank e
  second : ∀ e ∈ rest, rank b ≤ rank e

/-- The branch over two entries. -/
def join (a b : Nat × Tree) : Tree := .branch (a.2.weight + b.2.weight) a.2 b.2

/-- A round of R174 pops the two least entries and queues their branch. -/
theorem treeFuel_round {next : Nat} {qs : List (Nat × Tree)} (hwf : QueueWf next qs) (hlen : 2 ≤ qs.length)
    (fuel : Nat) : ∃ a b rest, TwoLeast qs a b rest ∧
      treeFuel (fuel + 1) next qs = treeFuel fuel (next + 1) (rest ++ [(next, join a b)]) := by
  match qs with
  | q :: q' :: qs =>
    have ha := leastOf_mem q (q' :: qs)
    have hperm := perm_cons_filter_ne hwf.nodup ha
    have hleast := fun e => rank_leastOf_le (q := q) (e := e) (qs := q' :: qs)
    rw [treeFuel]
    case x_3 => exact fun h => nomatch h
    generalize leastOf q (q' :: qs) = a at ha hperm hleast ⊢
    split
    next hnil => simp [hnil] at hperm
    next r rs hrest =>
      have hb := leastOf_mem r rs
      rw [hrest] at hperm
      have hperm' := perm_cons_filter_ne (hwf.perm hperm).tail.nodup hb
      refine ⟨a, leastOf r rs, _, ⟨hperm.trans (hperm'.cons a), fun e he => hleast e ?_, fun e he => ?_⟩, rfl⟩
      · exact hperm.mem_iff.mpr (List.mem_cons_of_mem a (hperm'.mem_iff.mpr he))
      · exact rank_leastOf_le (hperm'.mem_iff.mpr (List.mem_cons_of_mem _ he))

theorem treeFuel_singleton (fuel next : Nat) (q : Nat × Tree) : treeFuel fuel next [q] = some q.2 := by
  cases fuel <;> rfl

theorem TwoLeast.length_eq {qs rest : List (Nat × Tree)} {a b : Nat × Tree} (h : TwoLeast qs a b rest) :
    qs.length = rest.length + 2 := h.perm.length_eq

theorem TwoLeast.queueWf {next : Nat} {qs rest : List (Nat × Tree)} {a b : Nat × Tree} (h : TwoLeast qs a b rest)
    (hwf : QueueWf next qs) : QueueWf (next + 1) (rest ++ [(next, join a b)]) :=
  (hwf.perm h.perm).tail.tail.snoc _

/-! ### The leaves -/

/-- The symbols below `k` that occur in `x`, in ascending order. -/
def presentBelow (k : Nat) (x : List Byte) : List Nat :=
  (List.range k).filter (fun s => 0 < x.count (BitVec.ofNat 8 s))

/-- The leaf of symbol `s` (R172). -/
def leafOf (x : List Byte) (s : Nat) : Tree := .leaf (x.count (BitVec.ofNat 8 s)) (BitVec.ofNat 8 s)

/-- The leaves of the symbols below `k`, numbered from 0. -/
def leavesUpTo (k : Nat) (x : List Byte) : List (Nat × Tree) :=
  (presentBelow k x).zipIdx.map (fun p => (p.2, leafOf x p.1))

theorem leaves_eq (x : List Byte) : leaves x = leavesUpTo 256 x := rfl

@[simp] theorem leavesUpTo_length (k : Nat) (x : List Byte) : (leavesUpTo k x).length = (presentBelow k x).length := by
  simp [leavesUpTo]

theorem presentBelow_length_le (k : Nat) (x : List Byte) : (presentBelow k x).length ≤ k :=
  (List.length_filter_le _ _).trans_eq List.length_range

/-- A symbol that occurs adds its leaf, and no other does. -/
theorem leavesUpTo_succ (k : Nat) (x : List Byte) :
    leavesUpTo (k + 1) x =
      if 0 < x.count (BitVec.ofNat 8 k) then leavesUpTo k x ++ [((leavesUpTo k x).length, leafOf x k)]
      else leavesUpTo k x := by
  have hsucc : presentBelow (k + 1) x =
      presentBelow k x ++ if 0 < x.count (BitVec.ofNat 8 k) then [k] else [] := by
    simp only [presentBelow, List.range_succ, List.filter_append, List.filter_singleton]
    simp
  rw [leavesUpTo, hsucc]
  split
  · rw [List.zipIdx_append, List.map_append, leavesUpTo_length]
    simp [leavesUpTo]
  · rw [List.append_nil]; rfl

theorem leavesUpTo_wf (k : Nat) (x : List Byte) : QueueWf (leavesUpTo k x).length (leavesUpTo k x) := by
  induction k with
  | zero => exact ⟨List.nodup_nil, fun _ he => nomatch he⟩
  | succ k ih =>
    rw [leavesUpTo_succ]
    split
    · rw [List.length_append]; exact ih.snoc _
    · exact ih

/-- The symbols of the leaves of a tree, from left to right. -/
def Tree.symbols : Tree → List Byte
  | .leaf _ sym => [sym]
  | .branch _ l r => l.symbols ++ r.symbols

/-- The symbols of the trees in a queue. -/
def queueSymbols (qs : List (Nat × Tree)) : List Byte := qs.flatMap (fun e => e.2.symbols)

theorem queueSymbols_leaves (x : List Byte) : queueSymbols (leaves x) = (presentBelow 256 x).map (BitVec.ofNat 8) := by
  rw [queueSymbols, leaves_eq, leavesUpTo, List.flatMap_map]
  simp only [leafOf, Tree.symbols]
  rw [← List.map_eq_flatMap]
  calc (presentBelow 256 x).zipIdx.map (fun p => BitVec.ofNat 8 p.1)
      = ((presentBelow 256 x).zipIdx.map Prod.fst).map (BitVec.ofNat 8) := by rw [List.map_map]; rfl
    _ = (presentBelow 256 x).map (BitVec.ofNat 8) := by rw [List.zipIdx_map_fst]

theorem mem_presentBelow {x : List Byte} {s : Nat} :
    s ∈ presentBelow 256 x ↔ s < 256 ∧ BitVec.ofNat 8 s ∈ x := by
  simp [presentBelow, List.mem_filter, List.count_pos_iff]

theorem mem_queueSymbols_leaves {x : List Byte} {c : Byte} : c ∈ queueSymbols (leaves x) ↔ c ∈ x := by
  rw [queueSymbols_leaves, List.mem_map]
  constructor
  · rintro ⟨s, hs, rfl⟩
    exact (mem_presentBelow.mp hs).2
  · intro hc
    exact ⟨c.toNat, mem_presentBelow.mpr ⟨c.isLt, by simpa using hc⟩, by simp⟩

theorem ofNat_byte_inj {a b : Nat} (ha : a < 256) (hb : b < 256) (h : BitVec.ofNat 8 a = BitVec.ofNat 8 b) : a = b := by
  have h := congrArg BitVec.toNat h
  rw [BitVec.toNat_ofNat, BitVec.toNat_ofNat] at h
  omega

theorem queueSymbols_leaves_nodup (x : List Byte) : (queueSymbols (leaves x)).Nodup := by
  rw [queueSymbols_leaves]
  refine List.Nodup.map_on (fun s hs s' hs' heq => ?_) (List.nodup_range.filter _)
  exact ofNat_byte_inj (mem_presentBelow.mp hs).1 (mem_presentBelow.mp hs').1 heq

/-! ### The tree -/

/-- The builder loses no leaf and makes none: the tree has the symbols of the queue. -/
theorem treeFuel_symbols {fuel next : Nat} {qs : List (Nat × Tree)} (hwf : QueueWf next qs) (hne : qs ≠ [])
    (hlen : qs.length ≤ fuel + 1) : ∃ t, treeFuel fuel next qs = some t ∧ t.symbols.Perm (queueSymbols qs) := by
  induction fuel generalizing next qs with
  | zero =>
    obtain ⟨q, rfl⟩ := List.length_eq_one_iff.mp (Nat.le_antisymm hlen (List.length_pos_iff.mpr hne))
    exact ⟨q.2, rfl, by simp [queueSymbols]⟩
  | succ fuel ih =>
    by_cases htwo : 2 ≤ qs.length
    · obtain ⟨a, b, rest, hleast, hround⟩ := treeFuel_round hwf htwo fuel
      have hlen' := hleast.length_eq
      obtain ⟨t, ht, hsyms⟩ := ih (hleast.queueWf hwf) (by simp) (by simp; omega)
      refine ⟨t, hround.trans ht, hsyms.trans ?_⟩
      have hqueue : (queueSymbols qs).Perm (a.2.symbols ++ (b.2.symbols ++ queueSymbols rest)) :=
        hleast.perm.flatMap_right _
      refine .trans ?_ hqueue.symm
      rw [← List.append_assoc]
      rw [queueSymbols, List.flatMap_append, List.flatMap_singleton, join, Tree.symbols]
      exact List.perm_append_comm
    · obtain ⟨q, rfl⟩ := List.length_eq_one_iff.mp (Nat.le_antisymm (by omega) (List.length_pos_iff.mpr hne))
      exact ⟨q.2, treeFuel_singleton _ _ q, by simp [queueSymbols]⟩

theorem leaves_eq_nil_iff {x : List Byte} : leaves x = [] ↔ x = [] := by
  constructor
  · intro h
    refine List.eq_nil_iff_forall_not_mem.mpr fun c hc => ?_
    have hc := mem_queueSymbols_leaves.mpr hc
    rw [h] at hc
    cases hc
  · rintro rfl; rfl

theorem leaves_length_le (x : List Byte) : (leaves x).length ≤ 256 :=
  (leavesUpTo_length 256 x).trans_le (presentBelow_length_le 256 x)

/-- Every non-empty input has a tree, with the symbols that occur for leaves. -/
theorem huffTree_symbols {x : List Byte} (hne : x ≠ []) :
    ∃ t, huffTree x = some t ∧ t.symbols.Perm (queueSymbols (leaves x)) :=
  treeFuel_symbols (leavesUpTo_wf 256 x) (mt leaves_eq_nil_iff.mp hne) (by have := leaves_length_le x; omega)

theorem symbols_of_huffTree {x : List Byte} {t : Tree} (h : huffTree x = some t) :
    t.symbols.Nodup ∧ ∀ c, c ∈ t.symbols ↔ c ∈ x := by
  have hne : x ≠ [] := by rintro rfl; cases h
  obtain ⟨t', ht', hsyms⟩ := huffTree_symbols hne
  cases h.symm.trans ht'
  exact ⟨hsyms.nodup_iff.mpr (queueSymbols_leaves_nodup x), fun c => hsyms.mem_iff.trans mem_queueSymbols_leaves⟩

/-! ### The codes -/

@[simp] theorem codesBelow_map_fst (t : Tree) (path : Bits) : (t.codesBelow path).map Prod.fst = t.symbols := by
  induction t generalizing path with
  | leaf w sym => rfl
  | branch w l r ihl ihr => rw [Tree.codesBelow, List.map_append, ihl, ihr, Tree.symbols]

theorem codes_map_fst (t : Tree) : t.codes.map Prod.fst = t.symbols := by
  cases t with
  | leaf w sym => rfl
  | branch w l r => exact codesBelow_map_fst _ []

theorem Tree.symbols_length_pos (t : Tree) : 0 < t.symbols.length := by
  induction t with
  | leaf w sym => exact Nat.one_pos
  | branch w l r ihl _ => rw [Tree.symbols, List.length_append]; omega

/-- The codes below a path go on from it, each by fewer bits than there are leaves. -/
theorem codesBelow_extend {t : Tree} {path : Bits} {e : Byte × Bits} (he : e ∈ t.codesBelow path) :
    path <+: e.2 ∧ e.2.length < path.length + t.symbols.length := by
  induction t generalizing path with
  | leaf w sym =>
    cases List.mem_singleton.mp he
    exact ⟨List.prefix_rfl, Nat.lt_succ_self _⟩
  | branch w l r ihl ihr =>
    rw [Tree.symbols, List.length_append]
    have hl := l.symbols_length_pos
    have hr := r.symbols_length_pos
    rcases List.mem_append.mp he with he | he
    · obtain ⟨hpath, hlen⟩ := ihl he
      rw [List.length_append, List.length_singleton] at hlen
      exact ⟨(List.prefix_append _ _).trans hpath, by omega⟩
    · obtain ⟨hpath, hlen⟩ := ihr he
      rw [List.length_append, List.length_singleton] at hlen
      exact ⟨(List.prefix_append _ _).trans hpath, by omega⟩

/-- Paths that part are no beginnings of one bit string. -/
theorem not_extend_both {path code : Bits} {b : Bool} (h : path ++ [b] <+: code) : ¬ path ++ [!b] <+: code := by
  intro h'
  have heq := (List.prefix_of_prefix_length_le h h' (by simp)).eq_of_length (by simp)
  simp at heq

/-- The codes below different leaves part (R184 (b)). -/
theorem codesBelow_parted {t : Tree} {path : Bits} {e e' : Byte × Bits} (he : e ∈ t.codesBelow path)
    (he' : e' ∈ t.codesBelow path) (h : e.2 <+: e'.2) : e = e' := by
  induction t generalizing path with
  | leaf w sym => rw [List.mem_singleton.mp he, List.mem_singleton.mp he']
  | branch w l r ihl ihr =>
    rcases List.mem_append.mp he with he | he <;> rcases List.mem_append.mp he' with he' | he'
    · exact ihl he he'
    · exact absurd (codesBelow_extend he').1 (not_extend_both ((codesBelow_extend he).1.trans h))
    · exact absurd (codesBelow_extend he').1 (not_extend_both ((codesBelow_extend he).1.trans h))
    · exact ihr he he'

theorem codes_parted {t : Tree} {e e' : Byte × Bits} (he : e ∈ t.codes) (he' : e' ∈ t.codes) (h : e.2 <+: e'.2) :
    e = e' := by
  cases t with
  | leaf w sym => rw [List.mem_singleton.mp he, List.mem_singleton.mp he']
  | branch w l r => exact codesBelow_parted he he' h

/-- Codes are non-empty, and shorter than the number of leaves but for the code of a single leaf. -/
theorem codes_length {t : Tree} {e : Byte × Bits} (he : e ∈ t.codes) :
    1 ≤ e.2.length ∧ (e.2.length ≤ 1 ∨ e.2.length < t.symbols.length) := by
  cases t with
  | leaf w sym =>
    rw [List.mem_singleton.mp he]
    exact ⟨le_rfl, .inl le_rfl⟩
  | branch w l r =>
    have hlen := (codesBelow_extend (path := []) he).2
    rw [List.length_nil, Nat.zero_add] at hlen
    refine ⟨?_, .inr hlen⟩
    rcases List.mem_append.mp he with he | he
    · exact (codesBelow_extend he).1.length_le
    · exact (codesBelow_extend he).1.length_le

theorem treeSymbols_length_le {t : Tree} (h : t.symbols.Nodup) : t.symbols.length ≤ 256 :=
  calc t.symbols.length ≤ Fintype.card Byte := h.length_le_card
    _ = 256 := Fintype.card_congr (BitVec.equivFin (m := 8)).toEquiv |>.trans (Fintype.card_fin _)

/-- 256 leaves make no path of 256 edges (R177). -/
theorem codes_length_le {x : List Byte} {t : Tree} (ht : huffTree x = some t) {e : Byte × Bits} (he : e ∈ t.codes) :
    1 ≤ e.2.length ∧ e.2.length ≤ 255 := by
  obtain ⟨hlo, hhi⟩ := codes_length he
  have hsyms := treeSymbols_length_le (symbols_of_huffTree ht).1
  omega

/-- Settles O50: the leaves of the tree are the symbols that occur, and the codes are the paths to them. -/
theorem codesFormAPrefixCode : Obligations.CodesFormAPrefixCode := by
  intro x t ht
  obtain ⟨hnodup, hmem⟩ := symbols_of_huffTree ht
  rw [codes_map_fst]
  exact ⟨hnodup, hmem, fun _ => codes_length_le ht, fun _ he _ he' => codes_parted he he'⟩

end Sys2Proof.Machine
end

section
/-! SUPPORT. The registers of the Huffman encoder compute the tree of the input (42_huffman_encoder.md R171 to R174):
FREQ holds the count of each symbol, the live nodes are the queue of the builder, and the node it leaves last is the
root. -/

namespace Sys2Proof.Machine

/-! ### The frequency pass -/

theorem freqTotal_eq_sum (h : HufEncUnit) : freqTotal h = h.freq.toList.sum := by
  have hlen : 256 = h.freq.toList.length := Vector.length_toList.symm
  calc freqTotal h = ∑ j ∈ Finset.range h.freq.toList.length, h.freq.toList.getD j 0 :=
        Finset.sum_congr (congrArg Finset.range hlen) fun _ _ => rfl
    _ = ∑ j : Fin h.freq.toList.length, h.freq.toList[j] := by
        rw [Finset.sum_range]
        exact Finset.sum_congr rfl fun j _ => List.getD_eq_getElem _ 0 j.isLt
    _ = h.freq.toList.sum := Fin.sum_univ_getElem _

/-- The counting pass adds to each counter how often its symbol remains, and moves IPOS past the input. -/
theorem freqLoop_counts {fuel : Nat} {s : State} (hin : s.ipos ≤ s.ilen.toNat) (hfuel : s.remaining.length ≤ fuel) :
    ∃ freq, freqLoop fuel s = { s with ipos := s.ilen.toNat, he := { s.he with freq := freq } } ∧
      ∀ c : Byte, freq.toList.getD c.toNat 0 = freqAt s.he c.toNat + s.remaining.count c := by
  induction fuel generalizing s with
  | zero =>
    have hnil : s.remaining = [] := List.length_eq_zero_iff.mp (Nat.le_zero.mp hfuel)
    have hipos : s.ipos = s.ilen.toNat := Nat.le_antisymm hin (remaining_eq_nil_iff.mp hnil)
    exact ⟨s.he.freq, by rw [← hipos]; rfl, fun c => by rw [hnil]; rfl⟩
  | succ fuel ih =>
    rw [freqLoop]
    split
    next hlt =>
      have hcons := remaining_cons hlt
      rw [hcons, List.length_cons] at hfuel
      obtain ⟨freq, hloop, hcount⟩ :=
        ih (s := { s with he := countSymbol (readIbuf s s.ipos) s.he, ipos := s.ipos + 1 }) hlt
          (Nat.le_of_succ_le_succ hfuel)
      refine ⟨freq, hloop, fun c => (hcount c).trans ?_⟩
      rw [hcons, List.count_cons, freqAt_countSymbol, Nat.add_right_comm, Nat.add_assoc]
      simp only [BitVec.toNat_inj, beq_iff_eq, eq_comm (a := c)]
      rfl
    next hge =>
      have hipos : s.ipos = s.ilen.toNat := by omega
      rw [remaining_eq_nil_iff.mpr (not_lt.mp hge)]
      exact ⟨s.he.freq, by rw [← hipos], fun c => rfl⟩

/-- `Frequencies(x)` (R171), with its frame. -/
theorem frequencies_counts (s : State) :
    ∃ freq, frequencies s =
        { s with phase := .hFreq, ipos := s.ilen.toNat, opos := 0, he := { s.he with freq := freq } } ∧
      ∀ c : Byte, freq.toList.getD c.toNat 0 = s.input.count c := by
  obtain ⟨freq, hpass, hcount⟩ := freqLoop_counts (fuel := s.ilen.toNat)
    (s := { s with phase := .hFreq, ipos := 0, opos := 0, he := { s.he with freq := Vector.replicate 256 0 } })
    (Nat.zero_le _) (by rw [remaining_length]; exact Nat.sub_le _ _)
  refine ⟨freq, hpass, fun c => (hcount c).trans ?_⟩
  rw [freqAt, getD_replicate_self, Nat.zero_add]
  rfl

theorem freqAt_frequencies (s : State) (c : Byte) : freqAt (frequencies s).he c.toNat = s.input.count c := by
  obtain ⟨freq, hpass, hcount⟩ := frequencies_counts s
  rw [hpass]
  exact hcount c

/-- Settles O47, by induction on the symbols still to be counted. -/
theorem frequencyPassCountsTheInput : Obligations.FrequencyPassCountsTheInput := by
  intro s
  obtain ⟨freq, hpass, -⟩ := frequencies_counts s
  refine ⟨_, rfl, ?_, freqAt_frequencies s, (freqTotal_eq_sum _).symm.trans (freqTotal_frequencies s)⟩
  rw [hpass]

/-! ### Trees in the node store -/

/-- The node store holds tree `t` at index `i`, among the nodes already stored. -/
inductive TreeAt (h : HufEncUnit) : Nat → Tree → Prop
  | leaf {i : Nat} (hi : i < h.nNode) (hleaf : (nodeAt h i).leaf = true) :
    TreeAt h i (.leaf (nodeAt h i).w (nodeAt h i).sym)
  | branch {i : Nat} {l r : Tree} (hi : i < h.nNode) (hleaf : (nodeAt h i).leaf = false)
    (hl : TreeAt h (nodeAt h i).left l) (hr : TreeAt h (nodeAt h i).right r) :
    TreeAt h i (.branch (nodeAt h i).w l r)

theorem TreeAt.weight {h : HufEncUnit} {i : Nat} {t : Tree} (ht : TreeAt h i t) : t.weight = (nodeAt h i).w := by
  cases ht <;> rfl

theorem TreeAt.lt_nNode {h : HufEncUnit} {i : Nat} {t : Tree} (ht : TreeAt h i t) : i < h.nNode := by
  cases ht <;> assumption

/-- Storing further nodes keeps the trees in the store. -/
theorem TreeAt.mono {h h' : HufEncUnit} {i : Nat} {t : Tree} (ht : TreeAt h i t) (hle : h.nNode ≤ h'.nNode)
    (hnode : ∀ j < h.nNode, nodeAt h' j = nodeAt h j) : TreeAt h' i t := by
  induction ht with
  | leaf hi hleaf =>
    rw [← hnode _ hi] at hleaf ⊢
    exact .leaf (hi.trans_le hle) hleaf
  | branch hi hleaf _ _ ihl ihr =>
    rw [← hnode _ hi] at hleaf ihl ihr ⊢
    exact .branch (hi.trans_le hle) hleaf ihl ihr

theorem TreeAt.pushNode {h : HufEncUnit} {i : Nat} {t : Tree} (ht : TreeAt h i t) (n : Node) (hstore : h.nNode < 511) :
    TreeAt (pushNode n h) i t :=
  ht.mono (Nat.le_succ _) fun j hj => by rw [nodeAt_pushNode n hstore, if_neg (Nat.ne_of_lt hj)]

theorem TreeAt.popMin {h : HufEncUnit} {i : Nat} {t : Tree} (ht : TreeAt h i t) : TreeAt (popMin h).2 i t :=
  ht.mono le_rfl fun _ _ => rfl

/-! ### `PopMin` takes the least entry -/

/-- The lesser of two candidates is the least in the order of R173, where the second comes after the first. -/
theorem lesser_le {best here : Option (Nat × Nat)} {x : Nat × Nat} (hx : best = some x ∨ here = some x)
    (hafter : ∀ b y, best = some b → here = some y → b.2 < y.2) :
    ∃ r, lesser best here = some r ∧ toLex r ≤ toLex x := by
  match best, here, hx, hafter with
  | none, some y, .inr hx, _ => exact ⟨y, rfl, (congrArg toLex (Option.some.inj hx)).le⟩
  | some b, none, .inl hx, _ => exact ⟨b, rfl, (congrArg toLex (Option.some.inj hx)).le⟩
  | some b, some y, hx, hafter =>
    have hlt := hafter b y rfl rfl
    by_cases hw : y.1 < b.1
    · refine ⟨y, if_pos hw, ?_⟩
      rcases hx with hx | hx <;> cases hx
      · exact (Prod.Lex.toLex_lt_toLex.mpr (.inl hw)).le
      · exact le_rfl
    · refine ⟨b, if_neg hw, ?_⟩
      rcases hx with hx | hx <;> cases hx
      · exact le_rfl
      · exact Prod.Lex.toLex_le_toLex.mpr ((not_lt.mp hw).lt_or_eq.imp_right fun heq => ⟨heq, hlt.le⟩)

/-- The candidate that `minLive` answers is the least of those it is given, where they come in ascending order. -/
theorem minLive_least {ns : List Node} {ls : List Bool} {i : Nat} {best : Option (Nat × Nat)} {b : Nat × Nat}
    (h : minLive ns ls i best = some b) (hbest : ∀ b₀, best = some b₀ → b₀.2 < i) :
    (∀ b₀, best = some b₀ → toLex b ≤ toLex b₀) ∧
    ∀ j n, ns[j]? = some n → ls[j]? = some true → toLex b ≤ toLex (n.w, i + j) := by
  induction ns generalizing ls i best with
  | nil =>
    cases h
    exact ⟨fun b₀ hb₀ => (congrArg toLex (Option.some.inj hb₀)).le, fun j n hn => nomatch hn⟩
  | cons n ns ih =>
    cases ls with
    | nil =>
      cases h
      exact ⟨fun b₀ hb₀ => (congrArg toLex (Option.some.inj hb₀)).le, fun j n _ hl => nomatch hl⟩
    | cons l ls =>
      rw [minLive_cons] at h
      have hhere : ∀ y, (if l then some (n.w, i) else none) = some y → y.2 = i := fun y hy => by
        split at hy <;> cases hy
        rfl
      obtain ⟨hcand, hrest⟩ := ih h fun b₀ hb₀ => by
        rcases lesser_eq_or best (if l then some (n.w, i) else none) with heq | heq <;> rw [heq] at hb₀
        · exact Nat.lt_succ_of_lt (hbest b₀ hb₀)
        · exact (hhere b₀ hb₀).trans_lt (Nat.lt_succ_self i)
      have hbetter : ∀ x, best = some x ∨ (if l then some (n.w, i) else none) = some x → toLex b ≤ toLex x := by
        intro x hx
        obtain ⟨r, hr, hle⟩ := lesser_le hx fun b₀ y hb₀ hy => (hbest b₀ hb₀).trans_eq (hhere y hy).symm
        exact (hcand r hr).trans hle
      refine ⟨fun b₀ hb₀ => hbetter b₀ (.inl hb₀), fun j m hm hl => ?_⟩
      cases j with
      | zero =>
        cases hm
        exact hbetter _ (.inr (if_pos (Option.some.inj hl)))
      | succ j =>
        have hle := hrest j m hm hl
        rwa [Nat.add_right_comm, Nat.add_assoc] at hle

theorem node_getElem? (h : HufEncUnit) {i : Nat} (hi : i < 511) : h.node.toList[i]? = some (nodeAt h i) := by
  have hlt : i < h.node.toList.length := Vector.length_toList.symm ▸ hi
  rw [nodeAt, List.getD_eq_getElem _ _ hlt, List.getElem?_eq_getElem hlt]

/-- What `minLive` answers has the weight of its node. -/
theorem minLive_weight {ns : List Node} {ls : List Bool} {i : Nat} {best : Option (Nat × Nat)} {b : Nat × Nat}
    (h : minLive ns ls i best = some b) : best = some b ∨ ∃ j n, ns[j]? = some n ∧ b = (n.w, i + j) := by
  induction ns generalizing ls i best with
  | nil => exact .inl h
  | cons n ns ih =>
    cases ls with
    | nil => exact .inl h
    | cons l ls =>
      rw [minLive_cons] at h
      rcases ih h with hbest | ⟨j, m, hm, hb⟩
      · rcases lesser_eq_or best (if l then some (n.w, i) else none) with hl | hl
        · exact .inl (hl ▸ hbest)
        · rw [hl] at hbest
          split at hbest <;> cases hbest
          exact .inr ⟨0, n, rfl, rfl⟩
      · exact .inr ⟨j + 1, m, hm, by rw [hb, Nat.add_right_comm, Nat.add_assoc]⟩

/-- `PopMin` takes the live node of the least (weight, index). -/
theorem popMin_least {h : HufEncUnit} {i : Nat} (hi : i ∈ liveNodes h) :
    toLex ((nodeAt h (popMin h).1).w, (popMin h).1) ≤ toLex ((nodeAt h i).w, i) := by
  have hi511 : i < 511 := Finset.mem_range.mp (Finset.mem_filter.mp hi).1
  unfold popMin
  cases hmin : minLive h.node.toList h.live.toList 0 none with
  | none =>
    exact absurd (mem_liveNodes.mp hi) ((minLive_none hmin).2 i (Vector.length_toList.symm ▸ hi511))
  | some b =>
    have hle := (minLive_least hmin fun _ hb => nomatch hb).2 i _ (node_getElem? h hi511) (mem_liveNodes.mp hi)
    obtain hb | ⟨j, n, hn, hb⟩ := minLive_weight hmin
    · cases hb
    · have hw : (nodeAt h b.2).w = b.1 := by
        rw [hb, Nat.zero_add, nodeAt, List.getD_eq_getElem?_getD, hn]
        rfl
      simpa only [hw, Nat.zero_add] using hle

/-! ### The queue of the builder -/

/-- The live nodes are the queue `qs`: each of its entries is the number of a live node and the tree stored there. -/
structure HoldsQueue (h : HufEncUnit) (qs : List (Nat × Tree)) : Prop where
  queue : QueueOk h
  nodup : (qs.map Prod.fst).Nodup
  live : ∀ i, i ∈ liveNodes h ↔ i ∈ qs.map Prod.fst
  trees : ∀ e ∈ qs, TreeAt h e.1 e.2

theorem HoldsQueue.perm {h : HufEncUnit} {qs qs' : List (Nat × Tree)} (hq : HoldsQueue h qs) (hp : qs.Perm qs') :
    HoldsQueue h qs' where
  queue := hq.queue
  nodup := (hp.map _).nodup_iff.mp hq.nodup
  live i := (hq.live i).trans (hp.map _).mem_iff
  trees e he := hq.trees e (hp.mem_iff.mpr he)

theorem HoldsQueue.nLive {h : HufEncUnit} {qs : List (Nat × Tree)} (hq : HoldsQueue h qs) : h.nLive = qs.length := by
  have hset : liveNodes h = (qs.map Prod.fst).toFinset := by
    ext i
    rw [List.mem_toFinset, hq.live]
  rw [← hq.queue.counted, hset, List.toFinset_card_of_nodup hq.nodup, List.length_map]

theorem HoldsQueue.queueWf {h : HufEncUnit} {qs : List (Nat × Tree)} (hq : HoldsQueue h qs) : QueueWf h.nNode qs :=
  ⟨hq.nodup, fun e he => (hq.trees e he).lt_nNode⟩

/-- `PopMin` pops the least entry of the queue. -/
theorem HoldsQueue.popMin_fst {h : HufEncUnit} {a : Nat × Tree} {rest : List (Nat × Tree)}
    (hq : HoldsQueue h (a :: rest)) (hleast : ∀ e ∈ rest, rank a ≤ rank e) : (popMin h).1 = a.1 := by
  have hlive : a.1 ∈ liveNodes h := (hq.live a.1).mpr List.mem_cons_self
  obtain ⟨e, he, hpop⟩ := List.mem_map.mp ((hq.live _).mp (popMin_mem_liveNodes ⟨a.1, hlive⟩))
  have hle : rank e ≤ rank a := by
    have hle := popMin_least hlive
    rwa [← hpop, ← (hq.trees e he).weight, ← (hq.trees a List.mem_cons_self).weight] at hle
  have hge : rank a ≤ rank e := by
    rcases List.mem_cons.mp he with rfl | he
    · exact le_rfl
    · exact hleast e he
  have heq : (e.2.weight, e.1) = (a.2.weight, a.1) := toLex.injective (hle.antisymm hge)
  rw [← hpop]
  exact (Prod.ext_iff.mp heq).2

theorem HoldsQueue.popMin_snd {h : HufEncUnit} {a : Nat × Tree} {rest : List (Nat × Tree)}
    (hq : HoldsQueue h (a :: rest)) (hpop : (popMin h).1 = a.1) : HoldsQueue (popMin h).2 rest where
  queue := hq.queue.popMin (by rw [hq.nLive]; exact Nat.succ_pos _)
  nodup := (List.nodup_cons.mp hq.nodup).2
  live i := by
    have hnew := (List.nodup_cons.mp hq.nodup).1
    rw [liveNodes_popMin, Finset.mem_erase, hq.live, hpop, List.map_cons, List.mem_cons]
    constructor
    · rintro ⟨hne, heq | hi⟩
      · exact absurd heq hne
      · exact hi
    · exact fun hi => ⟨fun heq => hnew (heq ▸ hi), .inr hi⟩
  trees e he := (hq.trees e (List.mem_cons_of_mem a he)).popMin

/-- A node stored as the root of `t` joins the queue. -/
theorem HoldsQueue.pushNode {h : HufEncUnit} {qs : List (Nat × Tree)} (hq : HoldsQueue h qs) {n : Node} {t : Tree}
    (hroom : h.nNode + h.nLive + 2 ≤ 512) (hstore : h.nNode < 511) (ht : TreeAt (pushNode n h) h.nNode t) :
    HoldsQueue (pushNode n h) (qs ++ [(h.nNode, t)]) where
  queue := hq.queue.pushNode n hstore hroom
  nodup := (hq.queueWf.snoc t).nodup
  live i := by
    rw [liveNodes_pushNode n hstore, Finset.mem_insert, hq.live, List.map_append, List.mem_append, or_comm]
    simp
  trees e he := by
    rcases List.mem_append.mp he with he | he
    · exact (hq.trees e he).pushNode n hstore
    · cases List.mem_singleton.mp he
      exact ht

theorem nodeAt_pushed (n : Node) {h : HufEncUnit} (hstore : h.nNode < 511) : nodeAt (pushNode n h) h.nNode = n := by
  rw [nodeAt_pushNode n hstore, if_pos rfl]

theorem treeAt_pushed_leaf {n : Node} {h : HufEncUnit} (hstore : h.nNode < 511) (hleaf : n.leaf = true) :
    TreeAt (pushNode n h) h.nNode (.leaf n.w n.sym) := by
  have hnode := nodeAt_pushed n hstore
  have htree := TreeAt.leaf (h := Machine.pushNode n h) (Nat.lt_succ_self h.nNode) (by rw [hnode]; exact hleaf)
  rwa [hnode] at htree

theorem treeAt_pushed_branch {n : Node} {h : HufEncUnit} {l r : Tree} (hstore : h.nNode < 511) (hleaf : n.leaf = false)
    (hl : TreeAt h n.left l) (hr : TreeAt h n.right r) : TreeAt (pushNode n h) h.nNode (.branch n.w l r) := by
  have hnode := nodeAt_pushed n hstore
  have htree := TreeAt.branch (h := Machine.pushNode n h) (Nat.lt_succ_self h.nNode) (by rw [hnode]; exact hleaf)
    (by rw [hnode]; exact hl.pushNode n hstore) (by rw [hnode]; exact hr.pushNode n hstore)
  rwa [hnode] at htree

/-! ### The leaves -/

/-- A symbol that occurs gets a leaf (R172), stored at NNODE. -/
theorem pushLeaf_present {s : Nat} {h : HufEncUnit} (hf : 0 < freqAt h s) :
    ∃ n : Node, n.leaf = true ∧ Tree.leaf n.w n.sym = .leaf (freqAt h s) (BitVec.ofNat 8 s) ∧
      pushLeaf s h = pushNode n h :=
  ⟨_, rfl, rfl, if_pos hf⟩

theorem pushLeaf_absent {s : Nat} {h : HufEncUnit} (hf : ¬ 0 < freqAt h s) : pushLeaf s h = h := if_neg hf

/-- The leaves of the symbols below `k`, stored one after another, are the queue of the same symbols. -/
theorem leavesBelow_holds {x : List Byte} {h : HufEncUnit}
    (hfreq : ∀ s < 256, freqAt h s = x.count (BitVec.ofNat 8 s)) {k : Nat} (hk : k ≤ 256) :
    HoldsQueue (leavesBelow k h) (leavesUpTo k x) ∧ (leavesBelow k h).nNode = (leavesUpTo k x).length := by
  induction k with
  | zero =>
    have hnone : liveNodes (leavesBelow 0 h) = ∅ :=
      Finset.card_eq_zero.mp (leavesOk_zero h).queue.counted
    refine ⟨⟨(leavesOk_zero h).queue, List.nodup_nil, fun i => ?_, fun e he => nomatch he⟩, rfl⟩
    simp [hnone, leavesUpTo, presentBelow]
  | succ k ih =>
    obtain ⟨hq, hnext⟩ := ih (by omega)
    have hok := leavesOk_leavesBelow h k (by omega)
    obtain ⟨hnodes, hlive⟩ := hok.few
    have hk_freq : freqAt (leavesBelow k h) k = x.count (BitVec.ofNat 8 k) := by
      rw [← hfreq k (by omega), freqAt, freqAt, hok.freq]
    have hstore : (leavesBelow k h).nNode < 511 := by omega
    rw [leavesBelow_succ, leavesUpTo_succ, ← hk_freq]
    split
    next hf =>
      obtain ⟨n, hleaf, htree, hpush⟩ := pushLeaf_present hf
      have hq' := hq.pushNode (by omega) hstore (treeAt_pushed_leaf hstore hleaf)
      rw [hpush, leafOf, ← hk_freq, ← hnext, ← htree]
      exact ⟨hq', by rw [pushNode_nNode, List.length_append, hnext]; rfl⟩
    next hf =>
      rw [pushLeaf_absent hf]
      exact ⟨hq, hnext⟩

/-! ### The branches -/

/-- A round of the loop stores a branch over the two nodes popped, the first to the left. -/
theorem joinLeast_branch (h : HufEncUnit) : ∃ n : Node, n.leaf = false ∧ n.left = (popMin h).1 ∧
    n.right = (popMin (popMin h).2).1 ∧ n.w = (nodeAt h (popMin h).1).w + (nodeAt h (popMin (popMin h).2).1).w ∧
    joinLeast h = pushNode n (popMin (popMin h).2).2 := ⟨_, rfl, rfl, rfl, rfl, rfl⟩

/-- A round of the loop of R174 joins the two least entries of the queue. -/
theorem HoldsQueue.joinLeast {h : HufEncUnit} {qs rest : List (Nat × Tree)} {a b : Nat × Tree} (hq : HoldsQueue h qs)
    (hleast : TwoLeast qs a b rest) : HoldsQueue (joinLeast h) (rest ++ [(h.nNode, join a b)]) := by
  obtain ⟨n, hleaf, hleft, hright, hw, hjoin⟩ := joinLeast_branch h
  have hlive := hq.nLive
  have hroom := hq.queue.room
  rw [hleast.length_eq] at hlive
  have hq₀ := hq.perm hleast.perm
  have hpop₁ := hq₀.popMin_fst hleast.first
  have hq₁ := hq₀.popMin_snd hpop₁
  have hpop₂ := hq₁.popMin_fst hleast.second
  have hq₂ := hq₁.popMin_snd hpop₂
  have ha : TreeAt h a.1 a.2 := hq₀.trees a List.mem_cons_self
  have hb : TreeAt (popMin h).2 b.1 b.2 := hq₁.trees b List.mem_cons_self
  have hstore : (popMin (popMin h).2).2.nNode < 511 := by simp only [popMin_nNode]; omega
  have htree : TreeAt (Machine.pushNode n (popMin (popMin h).2).2) h.nNode (join a b) := by
    rw [join, ha.weight, hb.weight, ← hpop₁, ← hpop₂, nodeAt_popMin, ← hw]
    exact treeAt_pushed_branch hstore hleaf (hleft ▸ hpop₁ ▸ ha.popMin.popMin) (hright ▸ hpop₂ ▸ hb.popMin)
  rw [hjoin]
  exact hq₂.pushNode (by simp only [popMin_nNode, popMin_nLive]; omega) hstore htree

/-- The loop of R174 leaves the tree of the queue, in one live node. -/
theorem buildLoop_treeFuel {fuel : Nat} {h : HufEncUnit} {qs : List (Nat × Tree)} (hq : HoldsQueue h qs) (hne : qs ≠ [])
    (hlen : qs.length ≤ fuel + 1) :
    ∃ i t, treeFuel fuel h.nNode qs = some t ∧ HoldsQueue (buildLoop fuel h) [(i, t)] := by
  have hlive := hq.nLive
  induction fuel generalizing h qs with
  | zero =>
    obtain ⟨q, rfl⟩ := List.length_eq_one_iff.mp (Nat.le_antisymm hlen (List.length_pos_iff.mpr hne))
    exact ⟨q.1, q.2, rfl, hq⟩
  | succ fuel ih =>
    rw [buildLoop_succ]
    split
    next htwo =>
      obtain ⟨a, b, rest, hleast, hround⟩ := treeFuel_round hq.queueWf (hlive ▸ htwo) fuel
      have hlen' := hleast.length_eq
      have hq' := hq.joinLeast hleast
      obtain ⟨i, t, ht, hroot⟩ := ih hq' (by simp) (by simp; omega) hq'.nLive
      exact ⟨i, t, hround.trans ht, hroot⟩
    next hone =>
      obtain ⟨q, rfl⟩ := List.length_eq_one_iff.mp (Nat.le_antisymm (by omega) (List.length_pos_iff.mpr hne))
      exact ⟨q.1, q.2, treeFuel_singleton _ _ q, hq⟩

theorem HoldsQueue.setNLeaf {h : HufEncUnit} {qs : List (Nat × Tree)} (hq : HoldsQueue h qs) (n : Nat) :
    HoldsQueue { h with nLeaf := n } qs :=
  ⟨hq.queue.setNLeaf n, hq.nodup, hq.live, fun e he => (hq.trees e he).mono le_rfl fun _ _ => rfl⟩

theorem pushLeaves_nNode (h : HufEncUnit) : (pushLeaves h).nNode = (leavesBelow 256 h).nNode := by
  rw [pushLeaves_eq]

theorem pushLeaves_holds {x : List Byte} {h : HufEncUnit}
    (hfreq : ∀ s < 256, freqAt h s = x.count (BitVec.ofNat 8 s)) :
    HoldsQueue (pushLeaves h) (leaves x) ∧ (pushLeaves h).nNode = (leaves x).length := by
  obtain ⟨hq, hnext⟩ := leavesBelow_holds hfreq le_rfl
  rw [leaves_eq]
  exact ⟨pushLeaves_eq h ▸ hq.setNLeaf _, (pushLeaves_nNode h).trans hnext⟩

theorem buildTree_root_eq (h : HufEncUnit) : (buildTree h).root = (popMin (buildLoop Config.alphabet h)).1 := rfl

/-- ROOT is the node that the loop leaves. -/
theorem buildTree_root {h : HufEncUnit} {i : Nat} {t : Tree}
    (hroot : HoldsQueue (buildLoop Config.alphabet h) [(i, t)]) :
    TreeAt (buildTree h) (buildTree h).root t := by
  have hpop : (popMin (buildLoop Config.alphabet h)).1 = i := hroot.popMin_fst fun e he => nomatch he
  rw [buildTree_root_eq, hpop]
  exact (hroot.trees _ List.mem_cons_self).mono (buildTree_nNode h).ge fun j _ => nodeAt_buildTree h j

/-- The tree builder stores the tree of the input, ROOT its root, if FREQ holds the input's counts. -/
theorem buildTree_huffTree {x : List Byte} {h : HufEncUnit} (hne : x ≠ [])
    (hfreq : ∀ s < 256, freqAt h s = x.count (BitVec.ofNat 8 s)) :
    ∃ t, huffTree x = some t ∧ TreeAt (buildTree (pushLeaves h)) (buildTree (pushLeaves h)).root t := by
  obtain ⟨hq, hnext⟩ := pushLeaves_holds hfreq
  have hlen : (leaves x).length ≤ Config.alphabet + 1 := (leaves_length_le x).trans (Nat.le_succ _)
  obtain ⟨i, t, ht, hroot⟩ := buildLoop_treeFuel hq (mt leaves_eq_nil_iff.mp hne) hlen
  rw [hnext] at ht
  exact ⟨t, ht, buildTree_root hroot⟩

end Sys2Proof.Machine
end

section
/-! SUPPORT. The code assignment and the container of HUF_ENC (42_huffman_encoder.md R175 to R183): CLEN and CBITS hold
the codes of the tree, which is never too deep. -/

namespace Sys2Proof.Machine

/-! ### The code of a symbol -/

theorem codeOf_cons (e : Byte × Bits) (codes : List (Byte × Bits)) (c : Byte) :
    codeOf (e :: codes) c = if e.1 = c then some e.2 else codeOf codes c := by
  by_cases h : e.1 = c <;> simp [codeOf, h]

theorem codeOf_append (codes codes' : List (Byte × Bits)) (c : Byte) :
    codeOf (codes ++ codes') c = (codeOf codes c).or (codeOf codes' c) := by
  simp [codeOf, List.find?_append, Option.map_or]

theorem mem_of_codeOf {codes : List (Byte × Bits)} {c : Byte} {code : Bits} (h : codeOf codes c = some code) :
    (c, code) ∈ codes := by
  induction codes with
  | nil => cases h
  | cons e codes ih =>
    rw [codeOf_cons] at h
    split at h
    next heq => cases h; exact heq ▸ List.mem_cons_self
    next => exact List.mem_cons_of_mem e (ih h)

theorem codeOf_eq_none_iff {codes : List (Byte × Bits)} {c : Byte} :
    codeOf codes c = none ↔ c ∉ codes.map Prod.fst := by
  induction codes with
  | nil => simp [codeOf]
  | cons e codes ih =>
    rw [codeOf_cons, List.map_cons, List.mem_cons, not_or, ← ih]
    split
    next heq => simp [heq]
    next hne => simp [Ne.symm hne]

/-- Every symbol of an input has a code in its tree (R184 (c)). -/
theorem codeOf_ne_none_of_huffTree {x : List Byte} {t : Tree} (ht : huffTree x = some t) :
    ∀ c ∈ x, codeOf t.codes c ≠ none := fun c hc hnone =>
  codeOf_eq_none_iff.mp hnone (codes_map_fst t ▸ ((symbols_of_huffTree ht).2 c).mpr hc)

/-- Where the symbols differ, each has the code that stands with it. -/
theorem codeOf_of_mem {codes : List (Byte × Bits)} {c : Byte} {code : Bits} (hnodup : (codes.map Prod.fst).Nodup)
    (h : (c, code) ∈ codes) : codeOf codes c = some code := by
  induction codes with
  | nil => cases h
  | cons e codes ih =>
    rw [List.map_cons, List.nodup_cons] at hnodup
    rw [codeOf_cons]
    rcases List.mem_cons.mp h with rfl | h
    · exact if_pos rfl
    · rw [if_neg, ih hnodup.2 h]
      exact fun heq => hnodup.1 (heq ▸ List.mem_map_of_mem h)

/-! ### The files of code lengths and code bits -/

/-- A file of lengths and a file of bit strings (10_state.md R43, R44) hold `codes`: the code of each symbol that has
one, and length 0 for every other symbol. -/
structure FilesHold (lens : Vector Nat 256) (bits : Vector Bits 256) (codes : List (Byte × Bits)) : Prop where
  len : ∀ c : Byte, lens.toList.getD c.toNat 0 = ((codeOf codes c).getD []).length
  bits : ∀ (c : Byte) (code : Bits), codeOf codes c = some code → bits.toList.getD c.toNat [] = code

theorem filesHold_nil (bits : Vector Bits 256) : FilesHold (Vector.replicate 256 0) bits [] :=
  ⟨fun _ => getD_replicate_self .., fun _ _ h => nomatch h⟩

/-- A code written for a symbol that has none. -/
theorem FilesHold.set {lens : Vector Nat 256} {bits : Vector Bits 256} {codes : List (Byte × Bits)}
    (h : FilesHold lens bits codes) {sym : Byte} (code : Bits) (hnew : codeOf codes sym = none) :
    FilesHold (lens.setIfInBounds sym.toNat code.length) (bits.setIfInBounds sym.toNat code)
      (codes ++ [(sym, code)]) := by
  have hlt : sym.toNat < 256 := sym.isLt
  have hcode : ∀ c, codeOf (codes ++ [(sym, code)]) c = if sym = c then some code else codeOf codes c := fun c => by
    rw [codeOf_append, codeOf_cons]
    split
    next heq => rw [← heq, hnew]; rfl
    next => exact Option.or_none
  refine ⟨fun c => ?_, fun c code' hc => ?_⟩
  · rw [getD_setIfInBounds, hcode]
    simp only [BitVec.toNat_inj, hlt, and_true]
    split
    · rfl
    · exact h.len c
  · rw [hcode] at hc
    rw [getD_setIfInBounds]
    simp only [BitVec.toNat_inj, hlt, and_true]
    split at hc
    next heq => cases hc; exact if_pos heq
    next hne => rw [if_neg hne]; exact h.bits c code' hc

/-! ### The code assigner -/

theorem walk_leaf {i : Nat} {path : Bits} {h : HufEncUnit} (fuel : Nat) (hleaf : (nodeAt h i).leaf = true)
    (hdeep : path.length ≤ 255) :
    walk (fuel + 1) i path h = .ok (setCode (nodeAt h i).sym path { h with path := path }) :=
  (if_pos hleaf).trans (if_neg (Nat.not_lt.mpr hdeep))

theorem walk_branch {i : Nat} {h : HufEncUnit} (fuel : Nat) (path : Bits) (hleaf : (nodeAt h i).leaf = false) :
    walk (fuel + 1) i path h =
      walk fuel (nodeAt h i).left (path ++ [false]) { h with path := path } >>=
        walk fuel (nodeAt h i).right (path ++ [true]) :=
  if_neg (hleaf ▸ Bool.false_ne_true)

/-- `Walk` (R176) at the root of a tree adds its codes below the path to those assigned before, where the path and the
tree are not too deep. -/
theorem walk_codesBelow {fuel i : Nat} {path : Bits} {h : HufEncUnit} {t : Tree} {codes : List (Byte × Bits)}
    (ht : TreeAt h i t) (hfiles : FilesHold h.clen h.cbits codes) (hnodup : (codes.map Prod.fst ++ t.symbols).Nodup)
    (hdeep : path.length + t.symbols.length ≤ 256) (hfuel : t.symbols.length ≤ fuel) :
    ∃ h', walk fuel i path h = .ok h' ∧ h'.node = h.node ∧ h'.nNode = h.nNode ∧
      FilesHold h'.clen h'.cbits (codes ++ t.codesBelow path) := by
  induction t generalizing fuel i path h codes with
  | leaf w sym =>
    obtain ⟨fuel, rfl⟩ := Nat.exists_eq_succ_of_ne_zero (Nat.ne_of_gt hfuel)
    cases ht with
    | leaf hi hleaf =>
      refine ⟨_, walk_leaf fuel hleaf (Nat.le_of_succ_le_succ hdeep), rfl, rfl, hfiles.set path ?_⟩
      rw [codeOf_eq_none_iff]
      exact fun hmem => (List.nodup_append.mp hnodup).2.2 _ hmem _ (List.mem_singleton_self _) rfl
  | branch w l r ihl ihr =>
    rw [Tree.symbols, List.length_append] at hdeep hfuel
    rw [Tree.symbols, ← List.append_assoc] at hnodup
    have hl := l.symbols_length_pos
    have hr := r.symbols_length_pos
    obtain ⟨fuel, rfl⟩ := Nat.exists_eq_succ_of_ne_zero (n := fuel) (by omega)
    cases ht with
    | branch hi hleaf htl htr =>
      obtain ⟨h₁, hwalk₁, hnode₁, hnext₁, hfiles₁⟩ := ihl (fuel := fuel) (path := path ++ [false])
        (h := { h with path := path }) (htl.mono le_rfl fun _ _ => rfl) hfiles (List.nodup_append.mp hnodup).1
        (by rw [List.length_append, List.length_singleton]; omega) (by omega)
      have htr₁ : TreeAt h₁ (nodeAt h i).right r := htr.mono hnext₁.ge fun j _ => by rw [nodeAt, hnode₁]; rfl
      obtain ⟨h₂, hwalk₂, hnode₂, hnext₂, hfiles₂⟩ := ihr (fuel := fuel) (path := path ++ [true]) htr₁ hfiles₁
        (by rwa [List.map_append, codesBelow_map_fst])
        (by rw [List.length_append, List.length_singleton]; omega) (by omega)
      refine ⟨h₂, ?_, hnode₂.trans hnode₁, hnext₂.trans hnext₁, ?_⟩
      · exact (walk_branch fuel path hleaf).trans (except_bind_ok.mpr ⟨h₁, hwalk₁, hwalk₂⟩)
      · rwa [Tree.codesBelow, ← List.append_assoc]

/-- The code assignment (R175, R176) writes the codes of the tree at ROOT, and raises nothing. -/
theorem assignCodes_codes {h : HufEncUnit} {t : Tree} (ht : TreeAt h h.root t) (hnodup : t.symbols.Nodup) :
    ∃ h', assignCodes h = .ok h' ∧ FilesHold h'.clen h'.cbits t.codes := by
  have hnone : FilesHold (Vector.replicate 256 0) h.cbits [] := filesHold_nil h.cbits
  have hcount := treeSymbols_length_le hnodup
  have ht' : TreeAt { h with clen := Vector.replicate 256 0 } h.root t := ht.mono le_rfl fun _ _ => rfl
  cases ht with
  | leaf hi hleaf => exact ⟨_, if_pos hleaf, hnone.set [false] rfl⟩
  | branch hi hleaf _ _ =>
    obtain ⟨h', hwalk, -, -, hfiles⟩ := walk_codesBelow (fuel := Config.nodeMax) (path := []) ht' hnone hnodup
      ((Nat.zero_add _).trans_le hcount) (hcount.trans (by decide))
    exact ⟨h', .trans (if_neg (hleaf ▸ Bool.false_ne_true)) hwalk, hfiles⟩

end Sys2Proof.Machine
end

section
/-! SUPPORT. HUF_ENC as a function (42_huffman_encoder.md R170, R178 to R186): the table is appended entry by
entry, and the payload pass packs the codes of the input one after another. -/

namespace Sys2Proof.Machine

/-! ### The code table -/

theorem append_emits (v : Byte) (s : State) : Emits s [v] (fun _ => True) (append v s) := by
  have hone : appendAll [v] s = append v s := bind_pure _
  exact hone ▸ (appendAll_emits [v] s).weaken

theorem packInit_appended (s : State) : Appended s (packInit s) [] := ⟨rfl, ⟨rfl, rfl⟩, rfl, rfl, .inl rfl⟩

theorem packCode_eq (code : Bits) (s : State) : packCode code s = (appendAll (pack code) s).map packInit :=
  packerAppendsThePackedOctets.2 code s

theorem packCode_emits (code : Bits) (s : State) : Emits s (pack code) (fun _ => True) (packCode code s) := by
  rw [packCode_eq]
  exact (appendAll_emits _ s).map fun _ => ⟨packInit_appended _, trivial⟩

/-- The table entry of a symbol, if it has a code (R178). -/
def entryOctets (codes : List (Byte × Bits)) (sym : Nat) : List Byte :=
  match codeOf codes (BitVec.ofNat 8 sym) with
  | none => []
  | some code => BitVec.ofNat 8 code.length :: BitVec.ofNat 8 sym :: pack code

theorem tableOctets_eq (codes : List (Byte × Bits)) :
    tableOctets codes = (List.range 256).flatMap (entryOctets codes) := rfl

/-- The codes have bits. -/
abbrev NonemptyCodes (codes : List (Byte × Bits)) : Prop := ∀ e ∈ codes, 1 ≤ e.2.length

/-- The files of the encoder hold `codes`. -/
abbrev HoldsCodes (h : HufEncUnit) (codes : List (Byte × Bits)) : Prop := FilesHold h.clen h.cbits codes

theorem Appended.holdsCodes {s t : State} {vs : List Byte} {codes : List (Byte × Bits)} (happ : Appended s t vs)
    (h : HoldsCodes s.he codes) : HoldsCodes t.he codes := by
  obtain ⟨hclen, hcbits⟩ := happ.codes
  rw [HoldsCodes, hclen, hcbits]
  exact h

theorem HoldsCodes.codeLen_none {h : HufEncUnit} {codes : List (Byte × Bits)} (hf : HoldsCodes h codes) {c : Byte}
    (hc : codeOf codes c = none) : codeLen h c.toNat = 0 := by
  rw [codeLen, hf.len, hc]
  rfl

theorem HoldsCodes.codeLen_some {h : HufEncUnit} {codes : List (Byte × Bits)} (hf : HoldsCodes h codes) {c : Byte}
    {code : Bits} (hc : codeOf codes c = some code) : codeLen h c.toNat = code.length ∧ codeBits h c.toNat = code := by
  rw [codeLen, hf.len, hc, codeBits]
  exact ⟨rfl, hf.bits c code hc⟩

theorem writeEntry_emits {s : State} {codes : List (Byte × Bits)} (hf : HoldsCodes s.he codes)
    (hne : NonemptyCodes codes) {sym : Nat} (hsym : sym < 256) :
    Emits s (entryOctets codes sym) (fun _ => True) (writeEntry sym s) := by
  have hback : (BitVec.ofNat 8 sym).toNat = sym := by rw [BitVec.toNat_ofNat]; omega
  rw [entryOctets, writeEntry]
  cases hc : codeOf codes (BitVec.ofNat 8 sym) with
  | none =>
    have hlen := hf.codeLen_none hc
    rw [hback] at hlen
    rw [if_neg (by omega)]
    exact .ok (.refl s) trivial
  | some code =>
    obtain ⟨hlen, hbits⟩ := hf.codeLen_some hc
    rw [hback] at hlen hbits
    have hpos : 1 ≤ code.length := hne _ (mem_of_codeOf hc)
    rw [if_pos (by omega), hlen]
    refine (append_emits (BitVec.ofNat 8 code.length) s).bind (ws := _ :: pack code) fun {t} happ _ => ?_
    refine (append_emits (BitVec.ofNat 8 sym) t).bind (ws := pack code) fun {u} happ' _ => ?_
    have hkeep : codeBits u.he sym = code := by
      obtain ⟨-, hcbits⟩ := (happ.trans happ').codes
      rw [codeBits, hcbits]
      exact hbits
    exact hkeep ▸ packCode_emits _ u

theorem writeEntries_emits {s : State} {codes : List (Byte × Bits)} (hf : HoldsCodes s.he codes)
    (hne : NonemptyCodes codes) {syms : List Nat} (hsyms : ∀ sym ∈ syms, sym < 256) :
    Emits s (syms.flatMap (entryOctets codes)) (fun _ => True) (writeEntries syms s) := by
  induction syms generalizing s with
  | nil => exact .ok (.refl s) trivial
  | cons sym syms ih =>
    rw [List.flatMap_cons]
    exact (writeEntry_emits hf hne (hsyms sym List.mem_cons_self)).bind fun happ _ =>
      ih (happ.holdsCodes hf) fun sym' h => hsyms sym' (List.mem_cons_of_mem sym h)

/-! ### The payload -/

/-- IPOS and the registers of the encoder set, as the payload pass does around the packer. -/
def withCounts (ipos : Nat) (he : HufEncUnit) (s : State) : State := { s with ipos := ipos, he := he }

@[simp] theorem withCounts_pk (ipos : Nat) (he : HufEncUnit) (s : State) : (withCounts ipos he s).pk = s.pk := rfl

theorem append_withCounts (v : Byte) (i : Nat) (he : HufEncUnit) (s : State) :
    append v (withCounts i he s) = (append v s).map (withCounts i he) := by
  simp only [append_eq, withCounts]
  split <;> rfl

theorem packBit_withCounts (b : Bool) (i : Nat) (he : HufEncUnit) (s : State) :
    packBit b (withCounts i he s) = (packBit b s).map (withCounts i he) := by
  simp only [packBit, withCounts_pk, append_withCounts]
  split
  · cases append (setBit s.pk.acc (7 - s.pk.cnt) b) s <;> rfl
  · rfl

theorem packBits_withCounts (bits : Bits) (i : Nat) (he : HufEncUnit) (s : State) :
    packBits bits (withCounts i he s) = (packBits bits s).map (withCounts i he) := by
  induction bits generalizing s with
  | nil => rfl
  | cons b bits ih =>
    rw [packBits, packBits, packBit_withCounts]
    cases packBit b s with
    | error k => rfl
    | ok t => exact ih t

theorem packFlush_withCounts (i : Nat) (he : HufEncUnit) (s : State) :
    packFlush (withCounts i he s) = (packFlush s).map (withCounts i he) := by
  simp only [packFlush, withCounts_pk, append_withCounts]
  split
  · rfl
  · cases append s.pk.acc s <;> rfl

theorem packBits_append (bits bits' : Bits) (s : State) :
    packBits (bits ++ bits') s = packBits bits s >>= packBits bits' := by
  induction bits generalizing s with
  | nil => rfl
  | cons b bits ih =>
    rw [List.cons_append, packBits, packBits]
    cases packBit b s with
    | error k => rfl
    | ok t => exact ih t

theorem payloadBits_cons (codes : List (Byte × Bits)) (c : Byte) (x : List Byte) :
    payloadBits codes (c :: x) = (codeOf codes c).getD [] ++ payloadBits codes x := List.flatMap_cons

/-- A symbol with a code packs its bits and counts them (R181). -/
theorem packSymbol_eq {s : State} {codes : List (Byte × Bits)} (hf : HoldsCodes s.he codes) (hne : NonemptyCodes codes)
    {c : Byte} {code : Bits} (hcode : codeOf codes c = some code) (ipos : Nat) :
    packSymbol c { s with ipos := ipos } =
      (packBits code s).map (withCounts ipos { s.he with btot := s.he.btot + code.length }) := by
  obtain ⟨hlen, hbits⟩ := hf.codeLen_some hcode
  have hpos : 1 ≤ code.length := hne _ (mem_of_codeOf hcode)
  rw [packSymbol, hlen, if_neg (by omega), hbits]
  show packBits code (withCounts ipos s.he s) >>= _ = _
  rw [packBits_withCounts]
  cases packBits code s with
  | error k => rfl
  | ok t => exact congrArg (fun n => Except.ok (withCounts ipos { s.he with btot := s.he.btot + n } t)) hlen

/-- The payload pass packs the codes of the symbols that remain, and counts their bits (R181). -/
theorem payloadLoop_eq {fuel : Nat} {s : State} {codes : List (Byte × Bits)} (hf : HoldsCodes s.he codes)
    (hne : NonemptyCodes codes) (hcoded : ∀ c ∈ s.remaining, codeOf codes c ≠ none) (hin : s.ipos ≤ s.ilen.toNat)
    (hfuel : s.remaining.length ≤ fuel) :
    payloadLoop fuel s = (packBits (payloadBits codes s.remaining) s).map
      (withCounts s.ilen.toNat { s.he with btot := s.he.btot + (payloadBits codes s.remaining).length }) := by
  induction fuel generalizing s with
  | zero =>
    have hnil : s.remaining = [] := List.length_eq_zero_iff.mp (Nat.le_zero.mp hfuel)
    have hipos : s.ipos = s.ilen.toNat := Nat.le_antisymm hin (remaining_eq_nil_iff.mp hnil)
    rw [hnil, ← hipos]
    rfl
  | succ fuel ih =>
    rw [payloadLoop]
    split
    next hlt =>
      have hcons := remaining_cons hlt
      rw [hcons] at hcoded hfuel ⊢
      obtain ⟨code, hcode⟩ := Option.ne_none_iff_exists'.mp (hcoded _ List.mem_cons_self)
      rw [packSymbol_eq hf hne hcode, payloadBits_cons, hcode, Option.getD_some, packBits_append]
      cases hrun : packBits code s with
      | error k => rfl
      | ok t =>
        have hsame : SameInput s t := sameInput_of_kept (packBits_grows hrun).kept
        have hrest : (withCounts (s.ipos + 1) { s.he with btot := s.he.btot + code.length } t).remaining =
            { s with ipos := s.ipos + 1 }.remaining :=
          remaining_moved (k := 0) ⟨hsame.ilen, hsame.ibuf, hsame.ibufEpoch, hsame.cfg, hsame.port, hsame.reply⟩ rfl
        have hloop := ih (s := withCounts (s.ipos + 1) { s.he with btot := s.he.btot + code.length } t) hf
          (hrest ▸ fun c hc => hcoded c (List.mem_cons_of_mem _ hc))
          (hsame.ilen ▸ hlt) (hrest ▸ Nat.le_of_succ_le_succ hfuel)
        rw [hrest] at hloop
        refine hloop.trans ?_
        rw [packBits_withCounts, List.length_append, ← Nat.add_assoc,
          show (withCounts (s.ipos + 1) { s.he with btot := s.he.btot + code.length } t).ilen = s.ilen from hsame.ilen]
        show Except.map _ (Except.map _ _) = Except.map _ (packBits _ t)
        cases packBits (payloadBits codes { s with ipos := s.ipos + 1 }.remaining) t <;> rfl
    next hge =>
      have hipos : s.ipos = s.ilen.toNat := by omega
      rw [remaining_eq_nil_iff.mpr (not_lt.mp hge), ← hipos]
      rfl

end Sys2Proof.Machine
end

section
/-! SUPPORT. The result of HUF_ENC (42_huffman_encoder.md R170, R180 to R188): the octets in OBUF after the payload and
the two back-fills are the container, and the command completes with it. -/

namespace Sys2Proof.Machine

/-! ### Octets that stand in OBUF -/

/-- OBUF holds the octets `vs` from index `a` on. -/
def Stands (s : State) (a : Nat) (vs : List Byte) : Prop := ∀ j (hj : j < vs.length), readObuf s (a + j) = vs[j]

theorem Stands.append {s : State} {a : Nat} {vs ws : List Byte} (h : Stands s a vs) (h' : Stands s (a + vs.length) ws) :
    Stands s a (vs ++ ws) := by
  intro j hj
  rw [List.length_append] at hj
  by_cases hlt : j < vs.length
  · rw [List.getElem_append_left hlt]
    exact h j hlt
  · rw [List.getElem_append_right (Nat.not_lt.mp hlt), ← h' (j - vs.length) (by omega)]
    congr 1
    omega

theorem Stands.congr {s t : State} {a : Nat} {vs : List Byte} (h : Stands s a vs)
    (hread : ∀ b, a ≤ b → b < a + vs.length → readObuf t b = readObuf s b) : Stands t a vs := fun j hj => by
  rw [hread (a + j) (Nat.le_add_right a j) (by omega)]
  exact h j hj

/-- What is appended stands from OPOS on, and what stood before it still stands. -/
theorem Appended.stands {s t : State} {vs : List Byte} (h : Appended s t vs) : Stands t s.opos vs :=
  fun _ hj => readObuf_appended h hj

theorem Appended.keeps {s t : State} {vs ws : List Byte} {a : Nat} (h : Appended s t vs) (hs : Stands s a ws)
    (hbefore : a + ws.length ≤ s.opos) : Stands t a ws :=
  hs.congr fun _ _ hb => readObuf_appended_frame h (.inl (hb.trans_le hbefore))

theorem readObuf_writeObufAll {s : State} {a : Nat} {vs : List Byte} (hfit : a + vs.length ≤ s.cfg.mMax) (b : Nat) :
    readObuf (writeObufAll a vs s) b =
      if a ≤ b ∧ b < a + vs.length then vs.getD (b - a) 0 else readObuf s b := by
  rw [readObuf, writeObufAll_obuf hfit, Memory.lookup_insertAll, writeObufAll_obufEpoch]
  split
  next hin =>
    have hlt : b - a < vs.length := by omega
    rw [List.getD_eq_getElem _ _ hlt, List.getElem?_eq_getElem hlt]
    rfl
  next => rfl

theorem backfill_stands {s : State} {a : Nat} {vs : List Byte} (hfit : a + vs.length ≤ s.cfg.mMax) :
    Stands (writeObufAll a vs s) a vs := fun j hj => by
  rw [readObuf_writeObufAll hfit, if_pos (by omega), Nat.add_sub_cancel_left, List.getD_eq_getElem _ _ hj]

theorem backfill_keeps {s : State} {a b : Nat} {vs ws : List Byte} (hfit : a + vs.length ≤ s.cfg.mMax)
    (hs : Stands s b ws) (hafter : a + vs.length ≤ b) : Stands (writeObufAll a vs s) b ws :=
  hs.congr fun c hb _ => by rw [readObuf_writeObufAll hfit, if_neg (by omega)]

/-! ### The two halves of the container -/

theorem Emits.cases {s : State} {vs : List Byte} {Q : State → Prop} {p : Except ErrorKind State} (h : Emits s vs Q p) :
    (∃ t, p = .ok t ∧ Appended s t vs ∧ Q t) ∨ (p = .error .capacityExceeded ∧ s.cfg.mMax < s.opos + vs.length) := by
  cases h with
  | ok happ hQ => exact .inl ⟨_, rfl, happ, hQ⟩
  | noRoom hroom => exact .inr ⟨rfl, hroom⟩

/-- After the table writer the field `T` and the table stand in OBUF (R178 to R180), or the table does not fit. -/
theorem writeTable_stands {s : State} {codes : List (Byte × Bits)} (hf : HoldsCodes s.he codes)
    (hne : NonemptyCodes codes) (htable : tableOctets codes ≠ []) :
    (writeTable s = .error .capacityExceeded ∧ s.cfg.mMax < 12 + (tableOctets codes).length) ∨
    ∃ t, writeTable s = .ok t ∧ t.kept = s.kept ∧ HoldsCodes t.he codes ∧ t.opos = 12 + (tableOctets codes).length ∧
      t.opos ≤ s.cfg.mMax ∧ Stands t 8 (putBE (tableOctets codes).length 4 ++ tableOctets codes) := by
  have hemits := writeEntries_emits (s := { s with phase := .hTab, opos := Config.hdrLen }) hf hne
    (syms := List.range 256) fun _ => List.mem_range.mp
  rw [← tableOctets_eq] at hemits
  rw [writeTable]
  obtain ⟨u, hu, happ, -⟩ | ⟨hu, hroom⟩ := hemits.cases
  · have hopos : u.opos = 12 + (tableOctets codes).length := happ.opos
    have hfit : u.opos ≤ s.cfg.mMax := happ.room.resolve_left htable
    have hcfg : u.cfg = s.cfg := happ.cfg
    have hlen : u.opos - Config.hdrLen = (tableOctets codes).length := by rw [hopos]; exact Nat.add_sub_cancel_left ..
    have hlen4 := putBE_length (tableOctets codes).length 4
    refine .inr ⟨_, except_bind_ok.mpr ⟨u, hu, rfl⟩, ?_⟩
    simp only [hlen]
    have hroom : 8 + (putBE (tableOctets codes).length 4).length ≤
        { u with he := { u.he with tlen := (tableOctets codes).length } }.cfg.mMax := by
      rw [hlen4]; dsimp only; rw [hcfg]; omega
    refine ⟨(writeObufAll_kept ..).trans happ.kept, ?_, by rw [writeObufAll_opos]; exact hopos,
      by rw [writeObufAll_opos]; exact hfit, (backfill_stands hroom).append ?_⟩
    · rw [HoldsCodes, writeObufAll_he]
      exact happ.holdsCodes hf
    · rw [hlen4]
      exact backfill_keeps hroom happ.stands (by rw [hlen4])
  · exact .inl ⟨by rw [hu]; rfl, hroom⟩

/-- An emission assigns no codes. -/
theorem Emits.codes {s : State} {vs : List Byte} {Q : State → Prop} {p : Except ErrorKind State} (h : Emits s vs Q p) :
    Emits s vs (fun t => t.he.clen = s.he.clen ∧ t.he.cbits = s.he.cbits) p := by
  cases h with
  | ok happ _ => exact .ok happ happ.codes
  | noRoom hroom => exact .noRoom hroom

theorem payloadLoop_packFlush {s : State} {codes : List (Byte × Bits)} (hf : HoldsCodes s.he codes)
    (hne : NonemptyCodes codes) (hipos : s.ipos = 0) (hcoded : ∀ c ∈ s.input, codeOf codes c ≠ none) :
    (payloadLoop s.ilen.toNat (packInit s) >>= packFlush) =
      ((appendAll (pack (payloadBits codes s.input)) s).map packInit).map
        (withCounts s.ilen.toNat { s.he with btot := s.he.btot + (payloadBits codes s.input).length }) := by
  have hall : (packInit s).remaining = s.input := by
    rw [State.remaining, show (packInit s).ipos = 0 from hipos]
    rfl
  rw [payloadLoop_eq (s := packInit s) hf hne (hall ▸ hcoded) (hipos ▸ Nat.zero_le _ : (packInit s).ipos ≤ _)
    (by rw [hall, input_length]), hall, ← packCode_eq]
  show _ = (packBits (payloadBits codes s.input) (packInit s) >>= packFlush).map _
  cases packBits (payloadBits codes s.input) (packInit s) with
  | error k => rfl
  | ok t => exact packFlush_withCounts _ _ t

/-- The state in which the payload pass begins, but for the packer (R181, log 17). -/
def payloadStart (s : State) : State := { s with phase := .hPay, ipos := 0, he := { s.he with btot := 0 } }

theorem payloadStart_appended (s : State) : Appended s (payloadStart s) [] := ⟨rfl, ⟨rfl, rfl⟩, rfl, rfl, .inl rfl⟩

theorem writePayload_eq (s : State) :
    writePayload s = (payloadLoop s.ilen.toNat (packInit (payloadStart s)) >>= packFlush) >>=
      fun v => .ok (writeObufAll 0 (putBE v.he.btot 8) v) := by
  rw [bind_assoc]
  rfl

/-- The payload pass and its flush emit the packed payload bits (R181, R182), whose number is left in BTOT. -/
theorem payload_emits {s : State} {codes : List (Byte × Bits)} (hf : HoldsCodes s.he codes)
    (hne : NonemptyCodes codes) (hcoded : ∀ c ∈ s.input, codeOf codes c ≠ none) :
    Emits s (pack (payloadBits codes s.input)) (fun t => t.he.btot = (payloadBits codes s.input).length)
      (payloadLoop s.ilen.toNat (packInit (payloadStart s)) >>= packFlush) := by
  have hpack := packCode_emits (payloadBits codes s.input) (payloadStart s)
  rw [packCode_eq] at hpack
  refine .after ?_ (payloadStart_appended s)
  have hpass : (payloadLoop s.ilen.toNat (packInit (payloadStart s)) >>= packFlush) = _ :=
    payloadLoop_packFlush (s := payloadStart s) hf hne rfl hcoded
  rw [hpass]
  refine hpack.codes.map (f := withCounts _ _) fun {t} hcodes => ?_
  obtain ⟨hclen, hcbits⟩ := hcodes
  exact ⟨⟨rfl, ⟨hclen.symm, hcbits.symm⟩, rfl, rfl, .inl rfl⟩, Nat.zero_add _⟩

/-- After the payload writer the field `B` and the payload stand in OBUF (R181 to R183) beside what stood behind `B`
before, or the payload does not fit. -/
theorem writePayload_stands {s : State} {codes : List (Byte × Bits)} (hf : HoldsCodes s.he codes)
    (hne : NonemptyCodes codes) (hcoded : ∀ c ∈ s.input, codeOf codes c ≠ none) {ws : List Byte}
    (hws : Stands s 8 ws) (hopos : s.opos = 8 + ws.length) (hfit : s.opos ≤ s.cfg.mMax) :
    (writePayload s = .error .capacityExceeded ∧
      s.cfg.mMax < s.opos + (pack (payloadBits codes s.input)).length) ∨
    ∃ t, writePayload s = .ok t ∧ t.kept = s.kept ∧ t.opos = s.opos + (pack (payloadBits codes s.input)).length ∧
      t.opos ≤ s.cfg.mMax ∧
      Stands t 0 (putBE (payloadBits codes s.input).length 8 ++ (ws ++ pack (payloadBits codes s.input))) := by
  rw [writePayload_eq]
  obtain ⟨v, hv, happ, hbtot⟩ | ⟨hv, hroom⟩ := (payload_emits hf hne hcoded).cases
  · have hlen8 := putBE_length (payloadBits codes s.input).length 8
    have hfit' : v.opos ≤ s.cfg.mMax := Grows.fits happ.grows hfit
    have hroom : 0 + (putBE (payloadBits codes s.input).length 8).length ≤ v.cfg.mMax := by
      rw [hlen8, happ.cfg]; omega
    refine .inr ⟨_, except_bind_ok.mpr ⟨v, hv, rfl⟩, ?_⟩
    rw [hbtot]
    refine ⟨(writeObufAll_kept ..).trans happ.kept, by rw [writeObufAll_opos]; exact happ.opos,
      by rw [writeObufAll_opos]; exact hfit', (backfill_stands hroom).append (backfill_keeps hroom ?_ ?_)⟩
    · rw [hlen8]
      exact (happ.keeps hws hopos.ge).append (hopos ▸ happ.stands)
    · rw [hlen8]
  · exact .inl ⟨by rw [hv]; rfl, hroom⟩

/-! ### The procedure -/

/-- `t` ends a procedure begun in `s` with the octets `out` in OBUF; only OBUF, PHASE and scratch were written. -/
structure Written (s t : State) (out : List Byte) : Prop where
  kept : t.kept = s.kept
  opos : t.opos = out.length
  fits : t.opos ≤ s.cfg.mMax
  octets : Stands t 0 out

/-- The function's answer `r` and the procedure's answer `p` from `s` agree: the same error, or the result stands in
OBUF. -/
inductive Computes (s : State) : Except ErrorKind (List Byte) → Except ErrorKind State → Prop
  | ok {t : State} {out : List Byte} (h : Written s t out) : Computes s (.ok out) (.ok t)
  | error (k : ErrorKind) : Computes s (.error k) (.error k)

theorem Computes.of_kept {s s' : State} {r : Except ErrorKind (List Byte)} {p : Except ErrorKind State}
    (h : Computes s' r p) (hkept : s'.kept = s.kept) : Computes s r p := by
  cases h with
  | ok hw => exact .ok ⟨hw.kept.trans hkept, hw.opos, cfg_eq_of_kept hkept ▸ hw.fits, hw.octets⟩
  | error k => exact .error k

theorem SameInput.input {s t : State} (h : SameInput s t) : t.input = s.input := by
  rw [State.input, State.input, h.ilen, ibufOctets, ibufOctets]
  exact List.map_congr_left fun j _ => readIbuf_congr h.ibuf h.ibufEpoch _

theorem entryOctets_of_codeOf {codes : List (Byte × Bits)} {c : Byte} {code : Bits} (h : codeOf codes c = some code) :
    entryOctets codes c.toNat = BitVec.ofNat 8 code.length :: c :: pack code := by
  rw [entryOctets, BitVec.ofNat_toNat, BitVec.setWidth_eq, h]

theorem tableOctets_ne_nil {codes : List (Byte × Bits)} {c : Byte} (h : codeOf codes c ≠ none) :
    tableOctets codes ≠ [] := by
  obtain ⟨code, hcode⟩ := Option.ne_none_iff_exists'.mp h
  intro hnil
  rw [tableOctets_eq, List.flatMap_eq_nil_iff] at hnil
  have hentry := hnil c.toNat (List.mem_range.mpr c.isLt)
  rw [entryOctets_of_codeOf hcode] at hentry
  cases hentry

theorem hufStream_length (codes : List (Byte × Bits)) (x : List Byte) :
    (hufStream codes x).length = 12 + (tableOctets codes).length + (pack (payloadBits codes x)).length := by
  simp only [hufStream, container, List.length_append, putBE_length]

/-- The table and the payload written from the codes of the input make its container, if that fits (R170, R271). -/
theorem writeContainer_computes {s : State} {codes : List (Byte × Bits)} (hf : HoldsCodes s.he codes)
    (hne : NonemptyCodes codes) (hcoded : ∀ c ∈ s.input, codeOf codes c ≠ none) (hinput : s.input ≠ []) :
    Computes s
      (if s.cfg.mMax < (hufStream codes s.input).length then .error .capacityExceeded
        else .ok (hufStream codes s.input))
      (writeTable s >>= writePayload) := by
  obtain ⟨c, hc⟩ := List.exists_mem_of_ne_nil _ hinput
  have hlen := hufStream_length codes s.input
  obtain ⟨htable, hroom⟩ | ⟨u, htable, hkept, hfu, hopos, hfit, hstands⟩ :=
    writeTable_stands hf hne (tableOctets_ne_nil (hcoded c hc))
  · rw [if_pos (by omega), htable]
    exact .error _
  · have hsame : SameInput s u := sameInput_of_kept hkept
    have hinput' : u.input = s.input := hsame.input
    have hcfg : u.cfg = s.cfg := hsame.cfg
    rw [htable]
    show Computes s _ (writePayload u)
    have hpayload := writePayload_stands hfu hne (hinput' ▸ hcoded) hstands
      (by rw [List.length_append, putBE_length, hopos]; omega) (hcfg ▸ hfit)
    rw [hinput', hcfg] at hpayload
    obtain ⟨hpay, hroom⟩ | ⟨t, hpay, hkept', hopos', hfit', hstands'⟩ := hpayload
    · rw [if_pos (by omega), hpay]
      exact .error _
    · rw [if_neg (by omega), hpay]
      refine .ok ⟨hkept'.trans hkept, by omega, hfit', ?_⟩
      simpa only [hufStream, container, List.append_assoc] using hstands'

/-- The function of R170 on an input with a tree: no code is too long (R177). -/
theorem hufEncFn_eq {x : List Byte} {t : Tree} (c : Config) (ht : huffTree x = some t) :
    hufEncFn c x =
      if c.mMax < (hufStream t.codes x).length then .error .capacityExceeded else .ok (hufStream t.codes x) := by
  have hshort : t.codes.any (fun e => decide (255 < e.2.length)) = false :=
    List.any_eq_false.mpr fun e he => by
      have := (codes_length_le ht he).2
      simpa using this
  rw [hufEncFn, ht]
  simp only [hshort, Bool.false_eq_true, if_false]

/-- The steps of HUF_ENC on a non-empty input, once its codes are assigned. -/
theorem hufEncProc_eq {s : State} {h : HufEncUnit} (hlen : s.ilen ≠ 0)
    (hassign : assignCodes (buildTree (pushLeaves (frequencies s).he)) = .ok h) :
    hufEncProc s = writeTable { frequencies s with phase := .hCode, he := h } >>= writePayload := by
  rw [hufEncProc, if_neg hlen]
  show assignCodes (buildTree (pushLeaves (frequencies s).he)) >>= _ = _
  rw [hassign]
  rfl

/-- HUF_ENC computes the function of R170. -/
theorem hufEncProc_computes (s : State) : Computes s (hufEncFn s.cfg s.input) (hufEncProc s) := by
  by_cases hlen : s.ilen = 0
  · have herror : hufEncProc s = .error .emptyInput := if_pos hlen
    rw [input_eq_nil_iff.mpr hlen, herror]
    exact .error _
  · have hne : s.input ≠ [] := mt input_eq_nil_iff.mp hlen
    obtain ⟨t, ht, hroot⟩ := buildTree_huffTree (h := (frequencies s).he) hne fun c hc => by
      rw [← freqAt_frequencies, BitVec.toNat_ofNat, Nat.mod_eq_of_lt hc]
    obtain ⟨h, hassign, hf⟩ := assignCodes_codes hroot (symbols_of_huffTree ht).1
    have hkept : { frequencies s with phase := .hCode, he := h }.kept = s.kept := (frequencies_kept s).1
    have hsame : SameInput s { frequencies s with phase := .hCode, he := h } := sameInput_of_kept hkept
    rw [hufEncProc_eq hlen hassign, hufEncFn_eq s.cfg ht, ← hsame.input, ← hsame.cfg]
    exact (writeContainer_computes hf (fun e he => (codes_length_le ht he).1)
      (hsame.input ▸ codeOf_ne_none_of_huffTree ht) (hsame.input ▸ hne)).of_kept hkept

/-! ### Completion -/

/-- What stands in OBUF from index 0 on is the result of the command. -/
theorem doneWith_of_written {s t : State} {out : List Byte} (hroom : s.cfg.mMax < 2 ^ 64) (h : Written s t out) :
    DoneWith s (completeDone t) out := by
  have hsame : SameInput s t := sameInput_of_kept h.kept
  have hop : t.kept.op = s.kept.op := by rw [h.kept]
  have hfits := h.fits
  have holen : (completeDone t).olen.toNat = out.length := by
    rw [completeDone_olen, BitVec.toNat_ofNat, h.opos, Nat.mod_eq_of_lt (by rw [← h.opos]; omega)]
  exact
    { state := rfl
      errKind := rfl
      olen := holen
      result := List.ext_getElem (by rw [result_length, holen]) fun j _ hj => by
        rw [← h.octets j hj]
        simp only [State.result, obufOctets, List.getElem_map, List.getElem_range]
        rfl
      phase := rfl
      ibuf := readIbuf_congr hsame.ibuf hsame.ibufEpoch
      ilen := hsame.ilen
      op := hop
      cfg := hsame.cfg
      port := hsame.port
      reply := hsame.reply }

/-- Execute answers as the command's function with the entry check does (R241), or completes with the procedure's answer
where the function is asked. -/
theorem execute_outcome (fn : Config → List Byte → Except ErrorKind (List Byte))
    (proc : State → Except ErrorKind State) (s : State) :
    (outcomeOf fn s = .error .capacityExceeded ∧ execute proc s = failCommand .capacityExceeded s) ∨
    (outcomeOf fn s = fn s.cfg s.input ∧ execute proc s = complete s (proc s)) := by
  obtain ⟨hlong, hexec⟩ | ⟨hfits, hexec⟩ := execute_cases proc s
  · exact .inl ⟨if_pos hlong, hexec⟩
  · exact .inr ⟨if_neg (Nat.not_lt.mpr hfits), hexec⟩

theorem Computes.complete_errorWith {s : State} {r : Except ErrorKind (List Byte)} {p : Except ErrorKind State}
    {k : ErrorKind} (h : Computes s r p) (hr : r = .error k) : ErrorWith s (complete s p) k := by
  cases h with
  | ok hw => cases hr
  | error k' => cases hr; exact errorWith_failCommand k s

theorem Computes.complete_doneWith {s : State} {r : Except ErrorKind (List Byte)} {p : Except ErrorKind State}
    {out : List Byte} (hroom : s.cfg.mMax < 2 ^ 64) (h : Computes s r p) (hr : r = .ok out) :
    DoneWith s (complete s p) out := by
  cases h with
  | ok hw => cases hr; exact doneWith_of_written hroom hw
  | error k => cases hr

theorem exec_hufEnc_busy {s : State} (hbusy : s.runState = .busy) : exec .hufEnc s = .next (execute hufEncProc s) :=
  congrArg Host.Outcome.next (codecCommand_busy hbusy)

theorem execute_hufEnc_errorWith {s : State} {k : ErrorKind} (hout : outcomeOf hufEncFn s = .error k) :
    ErrorWith s (execute hufEncProc s) k := by
  obtain ⟨hlong, hexec⟩ | ⟨hfn, hexec⟩ := execute_outcome hufEncFn hufEncProc s
  · cases hlong.symm.trans hout
    exact hexec ▸ errorWith_failCommand _ s
  · exact hexec ▸ (hufEncProc_computes s).complete_errorWith (hfn.symm.trans hout)

theorem execute_hufEnc_doneWith {s : State} {out : List Byte} (hvalid : s.cfg.Valid)
    (hout : outcomeOf hufEncFn s = .ok out) : DoneWith s (execute hufEncProc s) out := by
  obtain ⟨-, -, -, hmax⟩ := hvalid
  obtain ⟨hlong, -⟩ | ⟨hfn, hexec⟩ := execute_outcome hufEncFn hufEncProc s
  · cases hlong.symm.trans hout
  · exact hexec ▸ (hufEncProc_computes s).complete_doneWith (by omega) (hfn.symm.trans hout)

/-- Settles O45: the procedure computes the function of R170. -/
theorem hufEncBuildsTheContainer : Obligations.HufEncBuildsTheContainer := fun _ _ hbusy hvalid hout =>
  ⟨_, exec_hufEnc_busy hbusy, execute_hufEnc_doneWith hvalid hout⟩

theorem outcomeOf_hufEncFn {s : State} (hfits : s.ilen.toNat ≤ s.cfg.nMax) :
    outcomeOf hufEncFn s = hufEncFn s.cfg s.input := if_neg (Nat.not_lt.mpr hfits)

/-- Settles O46: each error is the function's. -/
theorem hufEncErrors : Obligations.HufEncErrors := by
  intro s hbusy
  have hends : ∀ k, outcomeOf hufEncFn s = .error k → ∃ t, exec .hufEnc s = .next t ∧ ErrorWith s t k :=
    fun k hk => ⟨_, exec_hufEnc_busy hbusy, execute_hufEnc_errorWith hk⟩
  refine ⟨fun hlong => hends _ (if_pos hlong), fun hlen => hends _ ?_, hends⟩
  have hzero : s.ilen.toNat = 0 := by rw [hlen]; rfl
  rw [outcomeOf_hufEncFn (by omega), input_eq_nil_iff.mpr hlen]
  rfl

/-- The function of R170 gives no other error than these two. -/
theorem hufEncFn_error {c : Config} {x : List Byte} {k : ErrorKind} (h : hufEncFn c x = .error k) :
    k = .emptyInput ∨ k = .capacityExceeded := by
  cases ht : huffTree x with
  | none =>
    rw [hufEncFn, ht] at h
    cases h
    exact .inl rfl
  | some t =>
    rw [hufEncFn_eq c ht] at h
    split at h <;> cases h
    exact .inr rfl

/-- Settles O48: HUF_ENC raises what its function gives, and the tree of an input has a code of at most 255 bits for
each of its symbols. -/
theorem hufEncNeverRaisesTheInternalErrors : Obligations.HufEncNeverRaisesTheInternalErrors := by
  intro s t hbusy hexec
  cases (exec_hufEnc_busy hbusy).symm.trans hexec
  obtain ⟨-, hfail⟩ | ⟨-, hrun⟩ := execute_outcome hufEncFn hufEncProc s
  · rw [hfail]
    exact ⟨nofun, nofun⟩
  · have hcomp := hufEncProc_computes s
    rw [hrun]
    generalize hr : hufEncFn s.cfg s.input = r, hufEncProc s = p at hcomp
    cases hcomp with
    | ok hw => exact ⟨nofun, nofun⟩
    | error k =>
      rcases hufEncFn_error hr with rfl | rfl <;> exact ⟨nofun, nofun⟩

end Sys2Proof.Machine
end

section
/-! SUPPORT. An input of one distinct symbol (42_huffman_encoder.md R175, R188): its tree is a leaf, and its code is
"0". -/

namespace Sys2Proof.Machine

/-- A tree whose leaves name one symbol only is a leaf. -/
theorem codes_of_one_symbol {t : Tree} {c : Byte} (hnodup : t.symbols.Nodup) (hall : ∀ b ∈ t.symbols, b = c) :
    t.codes = [(c, [false])] := by
  cases t with
  | leaf w sym =>
    rw [hall sym (List.mem_singleton_self sym)]
    rfl
  | branch w l r =>
    obtain ⟨b, hb⟩ := List.exists_mem_of_length_pos l.symbols_length_pos
    obtain ⟨b', hb'⟩ := List.exists_mem_of_length_pos r.symbols_length_pos
    have heq : b = b' :=
      (hall b (List.mem_append_left _ hb)).trans (hall b' (List.mem_append_right _ hb')).symm
    exact absurd heq ((List.nodup_append.mp hnodup).2.2 b hb b' hb')

theorem huffTree_replicate {n : Nat} (c : Byte) (hn : n ≠ 0) :
    ∃ t, huffTree (List.replicate n c) = some t ∧ t.codes = [(c, [false])] := by
  obtain ⟨t, ht, -⟩ := huffTree_symbols (x := List.replicate n c) (by simpa using hn)
  obtain ⟨hnodup, hmem⟩ := symbols_of_huffTree ht
  exact ⟨t, ht, codes_of_one_symbol hnodup fun b hb => List.eq_of_mem_replicate ((hmem b).mp hb)⟩

theorem flatMap_range_single {α : Type} {f : Nat → List α} {k n : Nat} (hk : k < n)
    (h : ∀ s, s < n → s ≠ k → f s = []) : (List.range n).flatMap f = f k := by
  induction n with
  | zero => omega
  | succ n ih =>
    rw [List.range_succ, List.flatMap_append, List.flatMap_singleton]
    by_cases hlast : k = n
    · have hbefore : (List.range n).flatMap f = [] :=
        List.flatMap_eq_nil_iff.mpr fun s hs => by
          have := List.mem_range.mp hs
          exact h s (by omega) (by omega)
      rw [hbefore, hlast, List.nil_append]
    · rw [ih (by omega) fun s hs => h s (by omega), h n n.lt_succ_self (Ne.symm hlast), List.append_nil]

theorem tableOctets_one (c : Byte) : tableOctets [(c, [false])] = [1, c, 0] := by
  have hcode : codeOf [(c, [false])] c = some [false] := by rw [codeOf_cons, if_pos rfl]
  have hpack : pack [false] = [0] := by decide
  have hother : ∀ s, s < 256 → s ≠ c.toNat → entryOctets [(c, [false])] s = [] := fun s hs hne => by
    rw [entryOctets, codeOf_cons, if_neg]
    · rfl
    · intro (heq : c = BitVec.ofNat 8 s)
      rw [heq, BitVec.toNat_ofNat] at hne
      exact hne (Nat.mod_eq_of_lt hs).symm
  rw [tableOctets_eq, flatMap_range_single c.isLt hother, entryOctets_of_codeOf hcode, hpack]
  rfl

theorem payloadBits_one (c : Byte) (n : Nat) :
    payloadBits [(c, [false])] (List.replicate n c) = List.replicate n false := by
  have hcode : codeOf [(c, [false])] c = some [false] := by rw [codeOf_cons, if_pos rfl]
  induction n with
  | zero => rfl
  | succ n ih =>
    rw [List.replicate_succ, payloadBits_cons, hcode, ih]
    rfl

theorem pack_zeros (n : Nat) : pack (List.replicate n false) = List.replicate (ceil8 n) 0 := by
  refine List.eq_replicate_iff.mpr ⟨by rw [pack_length, List.length_replicate], fun o ho => ?_⟩
  obtain ⟨q, -, rfl⟩ := List.mem_map.mp ho
  refine (eq_packOctet fun p _ => ?_).symm
  rw [List.drop_replicate, List.getD_eq_getElem?_getD, List.getElem?_replicate]
  split <;> simp

theorem hufStream_one (c : Byte) (n : Nat) :
    hufStream [(c, [false])] (List.replicate n c) =
      putBE n 8 ++ [0, 0, 0, 3] ++ [1, c, 0] ++ List.replicate (ceil8 n) 0 := by
  have hT : putBE [1, c, 0].length 4 = [0, 0, 0, 3] := (by decide : putBE 3 4 = [0, 0, 0, 3])
  rw [hufStream, container, tableOctets_one, payloadBits_one, pack_zeros, List.length_replicate, hT]

/-- Settles O49: HUF_ENC gives the container of the single code "0". -/
theorem hufEncOfOneSymbol : Obligations.HufEncOfOneSymbol := by
  intro s c hbusy hvalid hlen hfits hinput hroom
  have hn : s.ilen.toNat ≠ 0 := fun hzero => hlen (BitVec.eq_of_toNat_eq hzero)
  obtain ⟨t, ht, hcodes⟩ := huffTree_replicate c hn
  refine ⟨_, exec_hufEnc_busy hbusy, execute_hufEnc_doneWith hvalid ?_⟩
  have hsize : ¬ s.cfg.mMax < (hufStream [(c, [false])] (List.replicate s.ilen.toNat c)).length := by
    rw [hufStream_length, tableOctets_one, payloadBits_one, pack_length, List.length_replicate]
    exact Nat.not_lt.mpr hroom
  rw [outcomeOf_hufEncFn hfits, hinput, hufEncFn_eq s.cfg ht, hcodes, if_neg hsize, hufStream_one]

end Sys2Proof.Machine
end

section
/-! SUPPORT. HUF_DEC computes its function (43_huffman_decoder.md R210 to R222): DLEN and DBITS hold the entries read so
far, so that the table walk decides as the function does, entry by entry. -/

namespace Sys2Proof.Machine

/-! ### The table that is held -/

/-- The files of the decoder hold the entries `got`: no symbol and no code comes twice, and every code has bits. -/
structure HoldsTable (h : HufDecUnit) (got : List (Byte × Bits)) : Prop where
  files : FilesHold h.dlen h.dbits got
  nonempty : NonemptyCodes got
  symbols : (got.map Prod.fst).Nodup
  codes : (got.map Prod.snd).Nodup

theorem HoldsTable.congr {h h' : HufDecUnit} {got : List (Byte × Bits)} (ht : HoldsTable h got)
    (hdlen : h'.dlen = h.dlen) (hdbits : h'.dbits = h.dbits) : HoldsTable h' got :=
  ⟨hdlen ▸ hdbits ▸ ht.files, ht.nonempty, ht.symbols, ht.codes⟩

theorem any_symbol_iff {got : List (Byte × Bits)} {sym : Byte} :
    got.any (fun e => e.1 == sym) = true ↔ sym ∈ got.map Prod.fst := by
  simp

theorem any_code_iff {got : List (Byte × Bits)} {code : Bits} :
    got.any (fun e => e.2 == code) = true ↔ code ∈ got.map Prod.snd := by
  simp

/-- A symbol named before is one with a length (R217). -/
theorem HoldsTable.dlen_ne_zero_iff {h : HufDecUnit} {got : List (Byte × Bits)} (ht : HoldsTable h got) (sym : Byte) :
    h.dlen.toList.getD sym.toNat 0 ≠ 0 ↔ got.any (fun e => e.1 == sym) = true := by
  rw [ht.files.len, any_symbol_iff]
  cases hc : codeOf got sym with
  | none => simp [codeOf_eq_none_iff.mp hc]
  | some code =>
    have hmem := mem_of_codeOf hc
    have hpos : 1 ≤ code.length := ht.nonempty _ hmem
    exact ⟨fun _ => List.mem_map_of_mem hmem, fun _ => Nat.ne_of_gt hpos⟩

/-- The entry of a symbol matches a code exactly if it stands in the table. -/
theorem HoldsTable.match_iff {h : HufDecUnit} {got : List (Byte × Bits)} (ht : HoldsTable h got) {c : Byte}
    {code : Bits} (hne : code ≠ []) :
    (h.dlen.toList.getD c.toNat 0 = code.length ∧ h.dbits.toList.getD c.toNat [] = code) ↔ (c, code) ∈ got := by
  rw [ht.files.len]
  cases hc : codeOf got c with
  | none =>
    refine ⟨fun ⟨hlen, _⟩ => absurd (List.length_eq_zero_iff.mp hlen.symm) hne, fun hmem => ?_⟩
    exact absurd (List.mem_map_of_mem hmem) (codeOf_eq_none_iff.mp hc)
  | some code' =>
    rw [ht.files.bits c code' hc]
    constructor
    · rintro ⟨-, rfl⟩
      exact mem_of_codeOf hc
    · intro hmem
      cases hc.symm.trans (codeOf_of_mem ht.symbols hmem)
      exact ⟨rfl, rfl⟩

theorem zip_getElem (h : HufDecUnit) {k : Nat} (hk : k < (h.dlen.toList.zip h.dbits.toList).length) :
    (h.dlen.toList.zip h.dbits.toList)[k] = (h.dlen.toList.getD k 0, h.dbits.toList.getD k []) := by
  rw [List.length_zip] at hk
  rw [List.getElem_zip, List.getD_eq_getElem _ _ (by omega), List.getD_eq_getElem _ _ (by omega)]

/-- Looking a code up in the files finds the symbol that the table gives it (R218, R220). -/
theorem HoldsTable.lookupCode_eq {h : HufDecUnit} {got : List (Byte × Bits)} (ht : HoldsTable h got) {code : Bits}
    (hne : code ≠ []) : lookupCode h code = (got.find? (fun e => e.2 == code)).map (fun e => e.1.toNat) := by
  have hsize : (h.dlen.toList.zip h.dbits.toList).length = 256 := by simp
  have hmatch : ∀ k (hk : k < (h.dlen.toList.zip h.dbits.toList).length),
      ((h.dlen.toList.zip h.dbits.toList)[k].1 == code.length && (h.dlen.toList.zip h.dbits.toList)[k].2 == code) =
        true ↔ (BitVec.ofNat 8 k, code) ∈ got := fun k hk => by
    have hback : (BitVec.ofNat 8 k).toNat = k := by rw [BitVec.toNat_ofNat]; omega
    rw [← ht.match_iff hne, hback, zip_getElem h hk, Bool.and_eq_true, beq_iff_eq, beq_iff_eq]
  rw [lookupCode]
  cases hfind : got.find? (fun e => e.2 == code) with
  | none =>
    refine List.findIdx?_eq_none_iff.mpr fun p hp => Bool.eq_false_iff.mpr fun htrue => ?_
    obtain ⟨k, hk, rfl⟩ := List.mem_iff_getElem.mp hp
    simpa using List.find?_eq_none.mp hfind _ ((hmatch k hk).mp htrue)
  | some e =>
    have hcode : e.2 = code := by simpa using List.find?_some hfind
    have hmem : (e.1, code) ∈ got := hcode ▸ List.mem_of_find?_eq_some hfind
    have hlt : e.1.toNat < (h.dlen.toList.zip h.dbits.toList).length := e.1.isLt.trans_eq hsize.symm
    refine List.findIdx?_eq_some_iff_getElem.mpr ⟨hlt, (hmatch _ hlt).mpr (by simpa using hmem), fun j hj => ?_⟩
    intro hp
    have hmem' := (hmatch j (hj.trans hlt)).mp hp
    have heq : (BitVec.ofNat 8 j, code) = (e.1, code) := List.inj_on_of_nodup_map ht.codes hmem' hmem rfl
    have hj' : (BitVec.ofNat 8 j).toNat = e.1.toNat := congrArg BitVec.toNat (congrArg Prod.fst heq)
    rw [BitVec.toNat_ofNat] at hj'
    dsimp only at hj
    omega

/-- An entry of a new symbol and a new code joins the table (R214). -/
theorem HoldsTable.set {h : HufDecUnit} {got : List (Byte × Bits)} (ht : HoldsTable h got) {len sym : Byte}
    {code : Bits} (hlen : code.length = len.toNat) (hne : len ≠ 0) (hsym : ¬ got.any (fun e => e.1 == sym) = true)
    (hcode : ¬ got.any (fun e => e.2 == code) = true) :
    HoldsTable (setEntry len sym code h) (got ++ [(sym, code)]) where
  files := by
    rw [any_symbol_iff, ← codeOf_eq_none_iff] at hsym
    rw [setEntry_dlen, setEntry_dbits, ← hlen]
    exact ht.files.set code hsym
  nonempty e he := by
    rcases List.mem_append.mp he with he | he
    · exact ht.nonempty e he
    · rw [List.mem_singleton.mp he, hlen]
      exact Nat.pos_of_ne_zero fun hzero => hne (BitVec.eq_of_toNat_eq hzero)
  symbols := by
    rw [any_symbol_iff] at hsym
    rw [List.map_append]
    exact nodup_snoc ht.symbols hsym
  codes := by
    rw [any_code_iff] at hcode
    rw [List.map_append]
    exact nodup_snoc ht.codes hcode

/-! ### One entry, by the function and by the procedure -/

@[simp] theorem parseFuel_nil (fuel : Nat) (got : List (Byte × Bits)) : parseFuel fuel [] got = .ok got := by
  cases fuel <;> rfl

theorem parseFuel_zero (os : List Byte) (got : List (Byte × Bits)) : parseFuel 0 os got = .ok got := by
  cases os <;> rfl

/-- `ParseTable` (R210) reads the entry at the head of its octets, if its symbol and its code are new. -/
theorem parseFuel_entry (fuel : Nat) {len : Byte} (sym : Byte) {code : List Byte} (rest : List Byte)
    (got : List (Byte × Bits)) (hlen : len ≠ 0) (hcode : code.length = ceil8 len.toNat) :
    parseFuel (fuel + 1) (len :: sym :: (code ++ rest)) got =
      if got.any (fun e => e.1 == sym) then .error .malformedStream
      else if got.any (fun e => e.2 == unpack code len.toNat) then .error .malformedStream
      else parseFuel fuel rest (got ++ [(sym, unpack code len.toNat)]) := by
  have hroom : ¬ (code ++ rest).length < code.length := by simp
  simp only [parseFuel, ← hcode, List.take_left, List.drop_left]
  rw [if_neg hlen, if_neg hroom]

/-- `ParseTable` stops at octets that are no entry (R215, R216). -/
theorem parseFuel_malformed (fuel : Nat) {os : List Byte} (got : List (Byte × Bits)) {e : Reject} (hne : os ≠ [])
    (h : decodeEntry os = .error e) : parseFuel (fuel + 1) os got = .error .malformedStream := by
  match os with
  | [_] => rfl
  | len :: sym :: rest =>
    rw [decodeEntry] at h
    simp only [parseFuel]
    by_cases hlen : len = 0
    · rw [if_pos hlen]
    · rw [if_neg hlen] at h ⊢
      by_cases hroom : rest.length < ceil8 len.toNat
      · rw [if_pos hroom]
      · rw [if_neg hroom] at h
        cases h

/-- The octets of the code table from TPOS on. -/
def State.tableRest (s : State) : List Byte := ibufOctets s s.hd.tpos (tableEnd s - s.hd.tpos)

theorem tableRest_eq_nil_iff {s : State} : s.tableRest = [] ↔ tableEnd s ≤ s.hd.tpos := by
  rw [State.tableRest, ← List.length_eq_zero_iff, ibufOctets_length, Nat.sub_eq_zero_iff_le]

theorem entryWindow_eq (s : State) : entryWindow s = s.tableRest.take longestEntry := ibufOctets_min ..

/-- What stands at the head of a table: an entry, or no entry. -/
theorem table_cases (os : List Byte) :
    (∃ (len sym : Byte) (code rest : List Byte), len ≠ 0 ∧ code.length = ceil8 len.toNat ∧
      os = len :: sym :: (code ++ rest) ∧ decodeEntry os = .ok (.hufEntry len sym code, rest)) ∨
    ∃ e, decodeEntry os = .error e := by
  cases h : decodeEntry os with
  | error e => exact .inr ⟨e, rfl⟩
  | ok p =>
    obtain ⟨i, rest⟩ := p
    obtain ⟨hi, hos⟩ := encode_of_decodeEntry h
    cases i with
    | clr | rleEnc | rleDec | hufEnc | hufDec | rleRepeat _ _ | rleLiteral _ _ => cases hos
    | hufEntry len sym code =>
      obtain ⟨hlen, hcode⟩ := wellFormed_hufEntry_iff.mp hi
      cases hos
      exact .inl ⟨len, sym, code, rest, hlen, hcode, rfl, rfl⟩

theorem nextEntry_entry {s : State} {len sym : Byte} {code rest : List Byte}
    (h : decodeEntry s.tableRest = .ok (.hufEntry len sym code, rest)) : nextEntry s = tableEntry len sym code s := by
  obtain ⟨rest', hwindow⟩ : ∃ rest', decodeEntry (entryWindow s) = .ok (.hufEntry len sym code, rest') :=
    map_fst_ok (by rw [entryWindow_eq, decodeEntry_take le_rfl, h]; rfl)
  rw [nextEntry, hwindow]

theorem nextEntry_malformed {s : State} {e : Reject} (h : decodeEntry s.tableRest = .error e) :
    nextEntry s = .error .malformedStream := by
  have hwindow : decodeEntry (entryWindow s) = .error e :=
    map_fst_error (by rw [entryWindow_eq, decodeEntry_take le_rfl, h]; rfl)
  rw [nextEntry, hwindow]

/-- An entry recorded, and TPOS past it (R214). -/
def recordEntry (len sym : Byte) (code : List Byte) (s : State) : State :=
  { s with hd := { setEntry len sym (unpack code len.toNat) s.hd with tpos := s.hd.tpos + (2 + ceil8 len.toNat) } }

/-- The decoder's action on an entry is to refuse a symbol or a code that the table has, and to record others. -/
theorem tableEntry_eq {s : State} {got : List (Byte × Bits)} (ht : HoldsTable s.hd got) {len sym : Byte}
    (code : List Byte) (hne : len ≠ 0) :
    tableEntry len sym code s =
      if got.any (fun e => e.1 == sym) then .error .malformedStream
      else if got.any (fun e => e.2 == unpack code len.toNat) then .error .malformedStream
      else .ok (recordEntry len sym code s) := by
  have hbits : unpack code len.toNat ≠ [] := fun hnil => hne <| BitVec.eq_of_toNat_eq <| by
    have hlen := unpack_length code len.toNat
    rw [hnil] at hlen
    exact hlen.symm
  have hlookup : (lookupCode s.hd (unpack code len.toNat)).isSome = true ↔
      got.any (fun e => e.2 == unpack code len.toNat) = true := by
    rw [ht.lookupCode_eq hbits, Option.isSome_map, List.find?_isSome, List.any_eq_true]
  simp only [tableEntry, ht.dlen_ne_zero_iff, hlookup]
  rfl

/-- How the answers of the table walk's function and procedure go together. -/
inductive TableAgrees (s : State) : Except ErrorKind (List (Byte × Bits)) → Except ErrorKind State → Prop
  | ok {t : State} {table : List (Byte × Bits)} (happ : Appended s t []) (ht : HoldsTable t.hd table)
    (hB : t.hd.hB = s.hd.hB) (hT : t.hd.hT = s.hd.hT) : TableAgrees s (.ok table) (.ok t)
  | error (k : ErrorKind) : TableAgrees s (.error k) (.error k)

theorem TableAgrees.after {s t : State} {r : Except ErrorKind (List (Byte × Bits))} {p : Except ErrorKind State}
    (happ : Appended s t []) (hB : t.hd.hB = s.hd.hB) (hT : t.hd.hT = s.hd.hT) (h : TableAgrees t r p) :
    TableAgrees s r p := by
  cases h with
  | ok happ' ht hB' hT' => exact .ok (happ.trans happ') ht (hB'.trans hB) (hT'.trans hT)
  | error k => exact .error k

/-- The registers of the decoder are scratch. -/
theorem setTable_appended (hd : HufDecUnit) (s : State) : Appended s { s with hd := hd } [] :=
  ⟨rfl, ⟨rfl, rfl⟩, rfl, rfl, .inl rfl⟩

/-- Past `k` octets of the table, what is left is what was left without them. -/
theorem tableRest_moved {s t : State} {k : Nat} (h : SameInput s t) (hT : t.hd.hT = s.hd.hT)
    (htpos : t.hd.tpos = s.hd.tpos + k) : t.tableRest = s.tableRest.drop k := by
  have hend : tableEnd t = tableEnd s := by rw [tableEnd, tableEnd, hT]
  refine List.ext_getElem ?_ fun j _ _ => ?_
  · rw [List.length_drop, State.tableRest, State.tableRest, ibufOctets_length, ibufOctets_length, htpos, hend]
    omega
  · simp [State.tableRest, ibufOctets, htpos, readIbuf_congr h.ibuf h.ibufEpoch, Nat.add_assoc]

/-- The table walk of R214 and `ParseTable` agree from any entry on, whatever the fuel. -/
theorem tableLoop_agrees (fuel : Nat) {s : State} {got : List (Byte × Bits)} (ht : HoldsTable s.hd got) :
    TableAgrees s (parseFuel fuel s.tableRest got) (tableLoop fuel s) := by
  induction fuel generalizing s got with
  | zero => rw [parseFuel_zero]; exact .ok (.refl s) ht rfl rfl
  | succ fuel ih =>
    rw [tableLoop]
    split
    next hin =>
      have hne : s.tableRest ≠ [] := fun hnil => by have := tableRest_eq_nil_iff.mp hnil; omega
      obtain ⟨len, sym, code, rest, hlen, hcode, hos, hdec⟩ | ⟨e, he⟩ := table_cases s.tableRest
      · rw [nextEntry_entry hdec, tableEntry_eq ht code hlen, hos, parseFuel_entry fuel sym rest got hlen hcode]
        have hrest : (recordEntry len sym code s).tableRest = rest := by
          refine (tableRest_moved (s := s) (t := recordEntry len sym code s) (sameInput_of_kept rfl) rfl rfl).trans ?_
          rw [hos, ← hcode]
          simp [Nat.add_comm 2]
        split
        next => exact .error _
        next hsym =>
          split
          next => exact .error _
          next hnew =>
            have hheld : HoldsTable (recordEntry len sym code s).hd _ :=
              (ht.set (unpack_length code len.toNat) hlen hsym hnew).congr rfl rfl
            rw [← hrest]
            exact .after (t := recordEntry len sym code s) (setTable_appended _ s) rfl rfl (ih hheld)
      · rw [nextEntry_malformed he, parseFuel_malformed fuel got hne he]
        exact .error _
    next hend =>
      rw [tableRest_eq_nil_iff.mpr (not_lt.mp hend), parseFuel_nil]
      exact .ok (.refl s) ht rfl rfl

end Sys2Proof.Machine
end

section
/-! SUPPORT. The symbol mapper of HUF_DEC and the whole command (43_huffman_decoder.md R211 to R213, R219 to R222): the
header is read from the input, and the mapper takes each payload bit as the function does. -/

namespace Sys2Proof.Machine

/-! ### The payload bits -/

/-- Octets of IBUF inside the input are octets of the input. -/
theorem ibufOctets_eq_input {s : State} {o n : Nat} (h : o + n ≤ s.ilen.toNat) :
    ibufOctets s o n = (s.input.drop o).take n := by
  refine List.ext_getElem (by simp; omega) fun j _ _ => ?_
  simp [State.input, ibufOctets]

/-- The payload bits of the input from UP_IDX on (R134, R219). -/
def State.bitsRest (s : State) : Bits := (unpack (s.input.drop (tableEnd s)) s.hd.hB.toNat).drop s.hd.upIdx

/-- The payload that `H_B` names lies inside the input (R219). -/
abbrev PayloadFits (s : State) : Prop := s.hd.hB.toNat ≤ 8 * (s.ilen.toNat - tableEnd s)

/-- UP_IDX moved past the next bit, which is appended to CUR (R220). -/
def takeBit (b : Bool) (s : State) : State :=
  { s with hd := { s.hd with upIdx := s.hd.upIdx + 1, cur := s.hd.cur ++ [b] } }

/-- The payload bit at UP_IDX. -/
def nextBit (s : State) : Bool := (readIbuf s (tableEnd s + s.hd.upIdx / 8)).getLsbD (7 - s.hd.upIdx % 8)

theorem bitsRest_cons {s : State} (hfits : PayloadFits s) (hin : s.hd.upIdx < s.hd.hB.toNat) (b : Bool) :
    s.bitsRest = nextBit s :: (takeBit b s).bitsRest := by
  have hlt : s.hd.upIdx < (unpack (s.input.drop (tableEnd s)) s.hd.hB.toNat).length := by rwa [unpack_length]
  have hq : s.hd.upIdx / 8 < (s.input.drop (tableEnd s)).length := by
    rw [List.length_drop, input_length]
    have : s.hd.hB.toNat ≤ 8 * (s.ilen.toNat - tableEnd s) := hfits
    omega
  rw [State.bitsRest, List.drop_eq_getElem_cons hlt]
  congr 1
  have hbit := unpack_getD (s.input.drop (tableEnd s)) hin
  rw [List.getD_eq_getElem _ _ hlt, List.getD_eq_getElem _ _ hq] at hbit
  rw [hbit, nextBit]
  simp [State.input, ibufOctets]

theorem bitsRest_nil {s : State} (hend : s.hd.hB.toNat ≤ s.hd.upIdx) : s.bitsRest = [] :=
  List.drop_eq_nil_of_le (by rwa [unpack_length])

/-! ### One bit, by the procedure -/

/-- A bit (R220, R221) lengthens CUR, and emits the symbol whose code CUR then is. -/
theorem mapBit_eq {s : State} {table : List (Byte × Bits)} (ht : HoldsTable s.hd table) :
    mapBit s =
      if 255 < s.hd.cur.length + 1 then .error .malformedStream
      else match table.find? (fun e => e.2 == s.hd.cur ++ [nextBit s]) with
        | none => .ok (takeBit (nextBit s) s)
        | some e => append e.1 (takeBit (nextBit s) s) >>= fun t => .ok (clearCur t) := by
  have hlookup : lookupCode (takeBit (nextBit s) s).hd (s.hd.cur ++ [nextBit s]) = _ :=
    (ht.congr rfl rfl).lookupCode_eq (List.append_ne_nil_of_right_ne_nil _ (List.cons_ne_nil _ _))
  have hmap : mapBit s =
      if Config.maxCodeLen < (s.hd.cur ++ [nextBit s]).length then .error .malformedStream
      else match lookupCode (takeBit (nextBit s) s).hd (s.hd.cur ++ [nextBit s]) with
        | none => .ok (takeBit (nextBit s) s)
        | some sym => append (BitVec.ofNat 8 sym) (takeBit (nextBit s) s) >>= fun t => .ok (clearCur t) := rfl
  rw [hmap, hlookup, List.length_append]
  refine if_congr Iff.rfl rfl ?_
  cases table.find? (fun e => e.2 == s.hd.cur ++ [nextBit s]) with
  | none => rfl
  | some e => simp

/-! ### The mapper -/

/-- The end of the payload (R222): no incomplete code is left over. -/
def endPayload (s : State) : Except ErrorKind State := if s.hd.curLen = 0 then .ok s else .error .malformedStream

theorem takeBit_appended (b : Bool) (s : State) : Appended s (takeBit b s) [] := setTable_appended _ s

theorem Refines.skip {s t : State} {out : List Byte} {r : Except ErrorKind (List Byte)} {p : Except ErrorKind State}
    (h : Appended s t []) (h' : Refines t out r p) : Refines s out r p :=
  .after h ((List.append_nil out).symm ▸ h')

theorem endPayload_refines {s : State} (table : List (Byte × Bits)) (out : List Byte)
    (hend : s.hd.hB.toNat ≤ s.hd.upIdx) :
    Refines s out (mapBits s.cfg table s.bitsRest s.hd.cur out) (endPayload s) := by
  rw [bitsRest_nil hend, mapBits, endPayload]
  by_cases hcur : s.hd.cur = []
  · have hlen : s.hd.curLen = 0 := congrArg List.length hcur
    rw [if_pos hcur, if_pos hlen]
    exact refines_same s out
  · have hlen : s.hd.curLen ≠ 0 := mt List.length_eq_zero_iff.mp hcur
    rw [if_neg hcur, if_neg hlen]
    exact .error _

/-- A complete code emits its symbol and clears CUR (R220), if there is room. -/
theorem emitSymbol_cases (c : Byte) (b : Bool) (s : State) :
    (s.opos < s.cfg.mMax ∧ ∃ t, (append c (takeBit b s) >>= fun t => .ok (clearCur t)) = .ok t ∧ Appended s t [c] ∧
      t.hd = { s.hd with upIdx := s.hd.upIdx + 1, cur := [] }) ∨
    (s.cfg.mMax ≤ s.opos ∧
      (append c (takeBit b s) >>= fun t => .ok (clearCur t)) = .error .capacityExceeded) := by
  by_cases hroom : s.opos < s.cfg.mMax
  · have happ : append c (takeBit b s) =
        .ok { takeBit b s with obuf := Memory.insert s.obuf s.opos c, opos := s.opos + 1 } := by
      rw [append_eq]
      exact if_pos hroom
    rw [happ]
    exact .inl ⟨hroom, _, rfl, (takeBit_appended b s).trans ((append_appended happ).trans (setTable_appended _ _)), rfl⟩
  · have happ : append c (takeBit b s) = .error .capacityExceeded := by
      rw [append_eq]
      exact if_neg hroom
    rw [happ]
    exact .inr ⟨Nat.not_lt.mp hroom, rfl⟩

theorem bitsRest_congr {s t : State} (h : SameInput s t) (hB : t.hd.hB = s.hd.hB) (hT : t.hd.hT = s.hd.hT)
    (hup : t.hd.upIdx = s.hd.upIdx) : t.bitsRest = s.bitsRest := by
  rw [State.bitsRest, State.bitsRest, h.input, hB, hup, tableEnd, tableEnd, hT]

theorem payloadFits_congr {s t : State} (h : SameInput s t) (hB : t.hd.hB = s.hd.hB) (hT : t.hd.hT = s.hd.hT)
    (hfits : PayloadFits s) : PayloadFits t := by
  rw [PayloadFits, tableEnd, hB, hT, h.ilen]
  exact hfits

/-- The mapper of R220 and its function agree from any bit on. -/
theorem mapLoop_refines {fuel : Nat} {s : State} {table : List (Byte × Bits)} {out : List Byte}
    (ht : HoldsTable s.hd table) (hfits : PayloadFits s) (hfuel : s.hd.hB.toNat ≤ s.hd.upIdx + fuel)
    (hout : out.length = s.opos) :
    Refines s out (mapBits s.cfg table s.bitsRest s.hd.cur out) (mapLoop fuel s >>= endPayload) := by
  induction fuel generalizing s out with
  | zero => exact endPayload_refines table out hfuel
  | succ fuel ih =>
    rw [mapLoop]
    by_cases hin : s.hd.upIdx < s.hd.hB.toNat
    · rw [if_pos hin, mapBit_eq ht, bitsRest_cons hfits hin (nextBit s), mapBits]
      have hstep := takeBit_appended (nextBit s) s
      split
      next => exact .error _
      next =>
        cases table.find? (fun e => e.2 == s.hd.cur ++ [nextBit s]) with
        | none =>
          exact .skip hstep (ih (s := takeBit (nextBit s) s) (ht.congr rfl rfl) hfits
            (by rw [takeBit]; dsimp only; omega) hout)
        | some e =>
          obtain ⟨hroom, t, hemit, happ, hhd⟩ | ⟨hfull, hemit⟩ := emitSymbol_cases e.1 (nextBit s) s
          · have hsame : SameInput s t := sameInput_of_kept happ.kept
            have hroom : ¬ s.cfg.mMax ≤ out.length := hout ▸ Nat.not_le.mpr hroom
            have hrest : t.bitsRest = (takeBit (nextBit s) s).bitsRest :=
              bitsRest_congr (s := takeBit (nextBit s) s) (sameInput_of_kept (happ.kept.trans hstep.kept.symm))
                (by rw [hhd]; rfl) (by rw [hhd]; rfl) (by rw [hhd]; rfl)
            have hnext := ih (s := t) (out := out ++ [e.1]) (ht.congr (by rw [hhd]) (by rw [hhd]))
              (payloadFits_congr hsame (by rw [hhd]) (by rw [hhd]) hfits) (by rw [hhd]; dsimp only; omega)
              (by rw [happ.opos, List.length_append, hout])
            rw [hrest, hsame.cfg, hhd] at hnext
            simp only [if_neg hroom, hemit]
            exact .after happ hnext
          · have hfull : s.cfg.mMax ≤ out.length := hout ▸ hfull
            simp only [if_pos hfull, hemit]
            exact .error _
    · rw [if_neg hin]
      exact endPayload_refines table out (Nat.not_lt.mp hin)

/-! ### The command -/

theorem beNat_lt (os : List Byte) : beNat os < 256 ^ os.length := by
  induction os with
  | nil => exact Nat.one_pos
  | cons o os ih =>
    have ho : o.toNat < 256 := o.isLt
    rw [beNat_cons, List.length_cons, pow_succ]
    nlinarith

/-- The field of `w` octets at `o` is read from the input (R212). -/
theorem beNat_ibufOctets {s : State} {o w : Nat} (h : o + w ≤ s.ilen.toNat) :
    beNat (ibufOctets s o w) = getBE s.input o w := by
  rw [ibufOctets_eq_input h, getBE]

theorem beNat_ibufOctets_lt (s : State) (o w : Nat) : beNat (ibufOctets s o w) < 256 ^ w := by
  have h := beNat_lt (ibufOctets s o w)
  rwa [ibufOctets_length] at h

theorem readHeader_hB {s : State} (h : 12 ≤ s.ilen.toNat) : (readHeader s).hd.hB.toNat = getBE s.input 0 8 := by
  have hlt : beNat (ibufOctets s 0 8) < 2 ^ 64 := beNat_ibufOctets_lt s 0 8
  rw [← beNat_ibufOctets (by omega)]
  exact (BitVec.toNat_ofNat _ 64).trans (Nat.mod_eq_of_lt hlt)

theorem readHeader_hT {s : State} (h : 12 ≤ s.ilen.toNat) : (readHeader s).hd.hT.toNat = getBE s.input 8 4 := by
  have hlt : beNat (ibufOctets s 8 4) < 2 ^ 32 := beNat_ibufOctets_lt s 8 4
  rw [← beNat_ibufOctets (by omega)]
  exact (BitVec.toNat_ofNat _ 32).trans (Nat.mod_eq_of_lt hlt)

/-- The payload phase (R219 to R222) and its function agree. -/
theorem hufDecPayload_refines {s : State} {table : List (Byte × Bits)} (ht : HoldsTable s.hd table) :
    Refines { s with opos := 0 } []
      (if 8 * (s.ilen.toNat - tableEnd s) < s.hd.hB.toNat then .error .malformedStream
        else mapBits s.cfg table (unpack (s.input.drop (tableEnd s)) s.hd.hB.toNat) [] [])
      (hufDecPayload s) := by
  rw [hufDecPayload]
  split
  next => exact .error _
  next hfits =>
    exact .after (t := { s with phase := .hDpay, opos := 0, hd := { s.hd with upIdx := 0, cur := [] } })
      ⟨rfl, ⟨rfl, rfl⟩, rfl, rfl, .inl rfl⟩
      (mapLoop_refines (ht.congr rfl rfl) (Nat.not_lt.mp hfits) (Nat.zero_add _).ge rfl)

/-- The state in which the table walk of HUF_DEC begins (R211 to R214). -/
def tableStart (s : State) : State :=
  { readHeader (hufDecInit s) with
    phase := .hDtab, hd := { (readHeader (hufDecInit s)).hd with tpos := Config.hdrLen } }

theorem hufDecProc_eq (s : State) :
    hufDecProc s =
      if s.ilen.toNat < 12 then .error .malformedStream
      else if s.ilen.toNat < tableEnd (tableStart s) then .error .malformedStream
      else tableLoop (tableStart s).hd.hT.toNat (tableStart s) >>= hufDecPayload := rfl

/-- HUF_DEC computes the function of R210. -/
theorem hufDecProc_refines (s : State) : Refines { s with opos := 0 } [] (hufDecFn s.cfg s.input) (hufDecProc s) := by
  rw [hufDecFn, hufDecProc_eq, input_length]
  by_cases hshort : s.ilen.toNat < 12
  · rw [if_pos hshort, if_pos hshort]
    exact .error _
  · rw [if_neg hshort, if_neg hshort]
    have hB : (tableStart s).hd.hB.toNat = getBE s.input 0 8 :=
      readHeader_hB (s := hufDecInit s) (by exact not_lt.mp hshort)
    have hT : (tableStart s).hd.hT.toNat = getBE s.input 8 4 :=
      readHeader_hT (s := hufDecInit s) (by exact not_lt.mp hshort)
    have hend : tableEnd (tableStart s) = 12 + getBE s.input 8 4 := congrArg (12 + ·) hT
    have hstart : Appended { s with opos := 0 } (tableStart s) [] := ⟨rfl, ⟨rfl, rfl⟩, rfl, rfl, .inl rfl⟩
    simp only [hend]
    split
    next => exact .error _
    next hroom =>
      have hrest : (tableStart s).tableRest = (s.input.drop 12).take (getBE s.input 8 4) := by
        rw [State.tableRest, hend, ← ibufOctets_eq_input (by omega)]
        exact congrArg (ibufOctets s 12) (Nat.add_sub_cancel_left ..)
      have hlen : ((s.input.drop 12).take (getBE s.input 8 4)).length = getBE s.input 8 4 := by
        rw [List.length_take, List.length_drop, input_length]
        omega
      have hagree := tableLoop_agrees (tableStart s).hd.hT.toNat (s := tableStart s) (got := [])
        ⟨filesHold_nil _, nofun, List.nodup_nil, List.nodup_nil⟩
      rw [hrest, hT] at hagree
      rw [hT, parseTable, hlen]
      generalize parseFuel (getBE s.input 8 4) _ [] = r, tableLoop _ (tableStart s) = p at hagree ⊢
      cases hagree with
      | error k => exact .error k
      | @ok t table happ ht hB' hT' =>
        have hcfg : t.cfg = s.cfg := happ.cfg
        have hsame : SameInput s t := sameInput_of_kept happ.kept
        have hend' : tableEnd t = 12 + getBE s.input 8 4 := by rw [tableEnd, hT', ← hend, tableEnd]
        have hinput : t.input = s.input := hsame.input
        have hrewind : Appended t { t with opos := 0 } [] := ⟨rfl, ⟨rfl, rfl⟩, rfl, happ.opos.symm, .inl rfl⟩
        have hpayload := Refines.skip (hstart.trans (happ.trans hrewind)) (hufDecPayload_refines ht)
        rw [hsame.ilen, hend', hB', hB, hcfg, hinput] at hpayload
        exact hpayload

end Sys2Proof.Machine
end

section
/-! SUPPORT. The Huffman round trip (42_huffman_encoder.md R184 (e)): the code table of parted codes is read back, and
the payload bits are cut into the codes of the input again. -/

namespace Sys2Proof.Machine

/-! ### Parted codes -/

/-- Codes of 1 to 255 bits of which none begins another (R184 (a), (b)). -/
structure PartedCodes (codes : List (Byte × Bits)) : Prop where
  length : ∀ {c : Byte} {code : Bits}, codeOf codes c = some code → 1 ≤ code.length ∧ code.length ≤ 255
  parted : ∀ {c c' : Byte} {code code' : Bits}, codeOf codes c = some code → codeOf codes c' = some code' →
    code <+: code' → c = c' ∧ code = code'

theorem partedCodes_of_huffTree {x : List Byte} {t : Tree} (ht : huffTree x = some t) : PartedCodes t.codes where
  length hc := codes_length_le ht (mem_of_codeOf hc)
  parted hc hc' h := Prod.ext_iff.mp (codes_parted (mem_of_codeOf hc) (mem_of_codeOf hc') h)

/-! ### The code table -/

/-- The entry of a symbol, if it has a code. -/
def entryOf (codes : List (Byte × Bits)) (sym : Nat) : Option (Byte × Bits) :=
  (codeOf codes (BitVec.ofNat 8 sym)).map (fun code => (BitVec.ofNat 8 sym, code))

/-- The codes in ascending order of symbol. -/
def sortedCodes (codes : List (Byte × Bits)) : List (Byte × Bits) := (List.range 256).filterMap (entryOf codes)

theorem entryOf_eq_some_iff {codes : List (Byte × Bits)} {sym : Nat} {e : Byte × Bits} :
    entryOf codes sym = some e ↔ e.1 = BitVec.ofNat 8 sym ∧ codeOf codes e.1 = some e.2 := by
  obtain ⟨c, code⟩ := e
  rw [entryOf, Option.map_eq_some_iff]
  constructor
  · rintro ⟨code', hcode, heq⟩
    cases heq
    exact ⟨rfl, hcode⟩
  · rintro ⟨rfl, hcode⟩
    exact ⟨code, hcode, rfl⟩

theorem mem_sortedCodes {codes : List (Byte × Bits)} {e : Byte × Bits} :
    e ∈ sortedCodes codes ↔ codeOf codes e.1 = some e.2 := by
  rw [sortedCodes, List.mem_filterMap]
  constructor
  · rintro ⟨sym, -, he⟩
    exact (entryOf_eq_some_iff.mp he).2
  · intro hcode
    exact ⟨e.1.toNat, List.mem_range.mpr e.1.isLt, entryOf_eq_some_iff.mpr ⟨by simp, hcode⟩⟩

/-- `ParseTable` reads one entry written by the serialiser, if its symbol and its code are new. -/
theorem parseFuel_entryOctets {codes got : List (Byte × Bits)} (hp : PartedCodes codes) (fuel : Nat) {sym : Nat}
    {code : Bits} (rest : List Byte) (hcode : codeOf codes (BitVec.ofNat 8 sym) = some code)
    (hgot : ∀ e ∈ got, codeOf codes e.1 = some e.2) (hnew : BitVec.ofNat 8 sym ∉ got.map Prod.fst) :
    parseFuel (fuel + 1) (entryOctets codes sym ++ rest) got =
      parseFuel fuel rest (got ++ [(BitVec.ofNat 8 sym, code)]) := by
  obtain ⟨hlo, hhi⟩ := hp.length hcode
  have hlen : (BitVec.ofNat 8 code.length).toNat = code.length := by rw [BitVec.toNat_ofNat]; omega
  have hne : BitVec.ofNat 8 code.length ≠ 0 := fun hzero => by
    rw [hzero] at hlen
    exact absurd hlen.symm (Nat.ne_of_gt hlo)
  have hsym : ¬ got.any (fun e => e.1 == BitVec.ofNat 8 sym) = true := mt any_symbol_iff.mp hnew
  have hnewcode : ¬ got.any (fun e => e.2 == code) = true := fun hany => by
    obtain ⟨e, he, heq⟩ := List.mem_map.mp (any_code_iff.mp hany)
    have hsame := (hp.parted (hgot e he) hcode (heq ▸ List.prefix_rfl)).1
    exact hnew (hsame ▸ List.mem_map_of_mem he)
  have hentry : entryOctets codes sym = BitVec.ofNat 8 code.length :: BitVec.ofNat 8 sym :: pack code := by
    rw [entryOctets, hcode]
  rw [hentry, List.cons_append, List.cons_append,
    parseFuel_entry fuel _ rest got hne (by rw [pack_length, hlen]), hlen, unpack_pack, if_neg hsym, if_neg hnewcode]

/-- `ParseTable` reads back the entries of the symbols `syms`. -/
theorem parseFuel_entries {codes : List (Byte × Bits)} (hp : PartedCodes codes) {syms : List Nat} (hnodup : syms.Nodup)
    (hlt : ∀ sym ∈ syms, sym < 256) {fuel : Nat} (hfuel : (syms.flatMap (entryOctets codes)).length ≤ fuel)
    {got : List (Byte × Bits)} (hgot : ∀ e ∈ got, codeOf codes e.1 = some e.2)
    (hnew : ∀ sym ∈ syms, BitVec.ofNat 8 sym ∉ got.map Prod.fst) :
    parseFuel fuel (syms.flatMap (entryOctets codes)) got = .ok (got ++ syms.filterMap (entryOf codes)) := by
  induction syms generalizing fuel got with
  | nil => simp
  | cons sym syms ih =>
    have hnodup' := List.nodup_cons.mp hnodup
    have hlt' : ∀ sym' ∈ syms, sym' < 256 := fun sym' h => hlt sym' (List.mem_cons_of_mem sym h)
    have hnew' : ∀ sym' ∈ syms, BitVec.ofNat 8 sym' ∉ got.map Prod.fst := fun sym' h =>
      hnew sym' (List.mem_cons_of_mem sym h)
    rw [List.flatMap_cons] at hfuel ⊢
    cases hcode : codeOf codes (BitVec.ofNat 8 sym) with
    | none =>
      have hnone : entryOctets codes sym = [] := by rw [entryOctets, hcode]
      rw [hnone, List.nil_append] at hfuel ⊢
      rw [ih hnodup'.2 hlt' hfuel hgot hnew', List.filterMap_cons_none (by rw [entryOf, hcode]; rfl)]
    | some code =>
      have hsome : entryOf codes sym = some (BitVec.ofNat 8 sym, code) := by rw [entryOf, hcode]; rfl
      have hpos : 0 < (entryOctets codes sym).length := by rw [entryOctets, hcode]; exact Nat.succ_pos _
      rw [List.length_append] at hfuel
      obtain ⟨fuel, rfl⟩ := Nat.exists_eq_succ_of_ne_zero (n := fuel) (by omega)
      rw [parseFuel_entryOctets hp fuel _ hcode hgot (hnew sym List.mem_cons_self),
        ih hnodup'.2 hlt' (by omega), List.filterMap_cons_some hsome, List.append_assoc]
      · rfl
      · intro e he
        rcases List.mem_append.mp he with he | he
        · exact hgot e he
        · rw [List.mem_singleton.mp he]; exact hcode
      · intro sym' hsym' hmem
        rw [List.map_append, List.mem_append] at hmem
        rcases hmem with hmem | hmem
        · exact hnew' sym' hsym' hmem
        · have heq := ofNat_byte_inj (hlt' sym' hsym') (hlt sym List.mem_cons_self) (List.mem_singleton.mp hmem)
          exact hnodup'.1 (heq ▸ hsym')

theorem parseTable_tableOctets {codes : List (Byte × Bits)} (hp : PartedCodes codes) :
    parseTable (tableOctets codes) = .ok (sortedCodes codes) := by
  rw [parseTable, tableOctets_eq]
  exact parseFuel_entries hp List.nodup_range (fun _ => List.mem_range.mp) le_rfl nofun fun _ _ => List.not_mem_nil

/-! ### The payload -/

/-- The code of a symbol is found in the table with that symbol. -/
theorem find_code {codes : List (Byte × Bits)} (hp : PartedCodes codes) {sym : Byte} {code : Bits}
    (hcode : codeOf codes sym = some code) : (sortedCodes codes).find? (fun e => e.2 == code) = some (sym, code) := by
  have hmem : (sym, code) ∈ sortedCodes codes := mem_sortedCodes.mpr hcode
  obtain ⟨e, he⟩ := Option.isSome_iff_exists.mp
    (List.find?_isSome.mpr ⟨_, hmem, beq_self_eq_true code⟩ :
      ((sortedCodes codes).find? (fun e => e.2 == code)).isSome = true)
  have heq : e.2 = code := by simpa using List.find?_some he
  have hcode' := mem_sortedCodes.mp (List.mem_of_find?_eq_some he)
  rw [he, Option.some.injEq]
  exact Prod.ext (hp.parted hcode' hcode (heq ▸ List.prefix_rfl)).1 heq

/-- The beginning of a code that is not all of it is no code in the table. -/
theorem find_begin_of_code {codes : List (Byte × Bits)} (hp : PartedCodes codes) {sym : Byte} {cur tail : Bits}
    (hcode : codeOf codes sym = some (cur ++ tail)) (hne : tail ≠ []) :
    (sortedCodes codes).find? (fun e => e.2 == cur) = none := by
  refine List.find?_eq_none.mpr fun e he heq => hne ?_
  have hcode' := mem_sortedCodes.mp he
  rw [beq_iff_eq.mp heq] at hcode'
  exact List.self_eq_append_right.mp (hp.parted hcode' hcode (List.prefix_append cur tail)).2

/-- The mapper reads the rest of a code, and emits its symbol. -/
theorem mapBits_code {c : Config} {codes : List (Byte × Bits)} (hp : PartedCodes codes) {sym : Byte} {cur tail : Bits}
    (hcode : codeOf codes sym = some (cur ++ tail)) (hne : tail ≠ []) (bits : Bits) {out : List Byte}
    (hroom : out.length < c.mMax) :
    mapBits c (sortedCodes codes) (tail ++ bits) cur out = mapBits c (sortedCodes codes) bits [] (out ++ [sym]) := by
  induction tail generalizing cur with
  | nil => exact absurd rfl hne
  | cons b tail ih =>
    have hlen := (hp.length hcode).2
    rw [List.length_append, List.length_cons] at hlen
    rw [List.append_cons] at hcode
    rw [List.cons_append, mapBits, if_neg (by omega)]
    by_cases hlast : tail = []
    · rw [hlast, List.append_nil] at hcode
      rw [find_code hp hcode, hlast]
      exact if_neg (Nat.not_le.mpr hroom)
    · rw [find_begin_of_code hp hcode hlast]
      exact ih hcode hlast

/-- The mapper reads the payload bits of an input back. -/
theorem mapBits_payloadBits {c : Config} {codes : List (Byte × Bits)} (hp : PartedCodes codes) {x out : List Byte}
    (hcoded : ∀ s ∈ x, codeOf codes s ≠ none) (hroom : out.length + x.length ≤ c.mMax) :
    mapBits c (sortedCodes codes) (payloadBits codes x) [] out = .ok (out ++ x) := by
  induction x generalizing out with
  | nil => simp [payloadBits, mapBits]
  | cons s x ih =>
    obtain ⟨code, hcode⟩ := Option.ne_none_iff_exists'.mp (hcoded s List.mem_cons_self)
    rw [List.length_cons] at hroom
    have hbits : code ≠ [] := List.ne_nil_of_length_pos (hp.length hcode).1
    rw [payloadBits_cons, hcode, Option.getD_some, mapBits_code (cur := []) hp hcode hbits _ (by omega),
      ih (fun b hb => hcoded b (List.mem_cons_of_mem s hb)) (by rw [List.length_append, List.length_singleton]; omega),
      List.append_assoc]
    rfl

/-! ### The container -/

theorem entryOctets_length_le {codes : List (Byte × Bits)} (hp : PartedCodes codes) (sym : Nat) :
    (entryOctets codes sym).length ≤ 34 := by
  rw [entryOctets]
  cases hcode : codeOf codes (BitVec.ofNat 8 sym) with
  | none => simp
  | some code =>
    have hhi := (hp.length hcode).2
    simp only [List.length_cons, pack_length, ceil8]
    omega

/-- A code table has at most 256 entries of at most 34 octets (R179). -/
theorem tableOctets_length_le {codes : List (Byte × Bits)} (hp : PartedCodes codes) :
    (tableOctets codes).length ≤ 8704 := by
  rw [tableOctets_eq, List.length_flatMap]
  have hsum := List.sum_le_card_nsmul ((List.range 256).map (fun sym => (entryOctets codes sym).length)) 34
    fun n hn => by
      obtain ⟨sym, -, rfl⟩ := List.mem_map.mp hn
      exact entryOctets_length_le hp sym
  simpa using hsum

/-- A symbol takes at most 255 bits of the payload (R181). -/
theorem payloadBits_length_le {codes : List (Byte × Bits)} (hp : PartedCodes codes) (x : List Byte) :
    (payloadBits codes x).length ≤ 255 * x.length := by
  induction x with
  | nil => simp [payloadBits]
  | cons s x ih =>
    rw [payloadBits_cons, List.length_append, List.length_cons]
    cases hcode : codeOf codes s with
    | none => simp; omega
    | some code =>
      have hhi := (hp.length hcode).2
      simp
      omega

/-- HUF_DEC, as a function, gives back the input of a container (R184 (e)). -/
theorem hufDecFn_hufStream {c : Config} {codes : List (Byte × Bits)} (hp : PartedCodes codes) {x : List Byte}
    (hcoded : ∀ s ∈ x, codeOf codes s ≠ none) (hbits : 255 * x.length < 2 ^ 64) (hroom : x.length ≤ c.mMax) :
    hufDecFn c (hufStream codes x) = .ok x := by
  have hB : getBE (hufStream codes x) 0 8 = (payloadBits codes x).length := by
    have hfield : (payloadBits codes x).length < 256 ^ 8 :=
      (payloadBits_length_le hp x).trans_lt (hbits.trans_eq (by decide))
    have hread := getBE_putBE []
      (putBE (tableOctets codes).length 4 ++ tableOctets codes ++ pack (payloadBits codes x)) hfield
    simpa only [hufStream, container, List.nil_append, List.append_assoc, List.length_nil] using hread
  have hT : getBE (hufStream codes x) 8 4 = (tableOctets codes).length := by
    have hfield : (tableOctets codes).length < 256 ^ 4 := (tableOctets_length_le hp).trans_lt (by decide)
    have hread := getBE_putBE (putBE (payloadBits codes x).length 8)
      (tableOctets codes ++ pack (payloadBits codes x)) hfield
    simpa only [hufStream, container, List.append_assoc, putBE_length] using hread
  have hlen := hufStream_length codes x
  have hsplit : (hufStream codes x).drop 12 = tableOctets codes ++ pack (payloadBits codes x) := by
    rw [hufStream, container, List.append_assoc]
    exact List.drop_left' (by simp only [List.length_append, putBE_length])
  have htable : ((hufStream codes x).drop 12).take (tableOctets codes).length = tableOctets codes := by
    rw [hsplit, List.take_left]
  have hpayload : (hufStream codes x).drop (12 + (tableOctets codes).length) = pack (payloadBits codes x) := by
    rw [← List.drop_drop, hsplit, List.drop_left]
  have hoctets : (payloadBits codes x).length ≤ 8 * (pack (payloadBits codes x)).length := by
    rw [pack_length, ceil8]
    omega
  have hmap := mapBits_payloadBits (c := c) (out := []) hp hcoded ((Nat.zero_add _).trans_le hroom)
  rw [List.nil_append] at hmap
  rw [hufDecFn, if_neg (by omega)]
  simp only [hT, hB, htable, hpayload, parseTable_tableOctets hp, unpack_pack]
  rw [if_neg (by omega)]
  show (if _ then _ else _) = _
  rw [if_neg (by omega)]
  exact hmap

theorem exec_hufDec_busy {s : State} (hbusy : s.runState = .busy) : exec .hufDec s = .next (execute hufDecProc s) :=
  congrArg Host.Outcome.next (codecCommand_busy hbusy)

/-- A DONE result of HUF_ENC is the container of its input, by the codes of the input's tree. -/
theorem hufEnc_done_result {s : State} (hvalid : s.cfg.Valid) (hdone : (execute hufEncProc s).runState = .done) :
    s.ilen.toNat ≤ s.cfg.nMax ∧
      ∃ t, huffTree s.input = some t ∧ (execute hufEncProc s).result = hufStream t.codes s.input := by
  cases hout : outcomeOf hufEncFn s with
  | error k => exact absurd ((execute_hufEnc_errorWith hout).state.symm.trans hdone) (by decide)
  | ok out =>
    rw [(execute_hufEnc_doneWith hvalid hout).result]
    rw [outcomeOf] at hout
    split at hout
    next => cases hout
    next hfits =>
      refine ⟨Nat.not_lt.mp hfits, ?_⟩
      cases ht : huffTree s.input with
      | none => rw [hufEncFn, ht] at hout; cases hout
      | some t =>
        rw [hufEncFn_eq s.cfg ht] at hout
        split at hout <;> cases hout
        exact ⟨t, rfl, rfl⟩

/-- Settles O56: the result of HUF_ENC is the container of the input, whose tree has parted codes. -/
theorem hufRoundTrip : Obligations.HufRoundTrip := by
  intro s t u hbusy hvalid hexec hdone hbusy' hvalid' hinput hfits hroom
  cases (exec_hufEnc_busy hbusy).symm.trans hexec
  obtain ⟨hlen, tree, htree, hresult⟩ := hufEnc_done_result hvalid hdone
  have hdec : hufDecFn u.cfg u.input = .ok s.input := by
    obtain ⟨-, hmax, -, -⟩ := hvalid
    rw [hinput, hresult]
    exact hufDecFn_hufStream (partedCodes_of_huffTree htree) (codeOf_ne_none_of_huffTree htree)
      (by rw [input_length]; omega) (by rw [input_length]; exact hroom)
  have hout : outcomeOf hufDecFn u = .ok s.input := (if_neg (Nat.not_lt.mpr hfits)).trans hdec
  have hdone' := execute_completesWith hvalid' (hufDecProc_refines u)
  rw [hout] at hdone'
  exact ⟨_, exec_hufDec_busy hbusy', hdone'⟩

end Sys2Proof.Machine
end

section
/-! SUPPORT. What HUF_DEC answers (43_huffman_decoder.md R210 to R224): its result and its errors are those of its
function, and that function reads the header, the table and the first `B` bits of the payload only. -/

namespace Sys2Proof.Machine

/-- Settles O51: the procedure refines the function of R210. -/
theorem hufDecDecodesTheContainer : Obligations.HufDecDecodesTheContainer := by
  intro s out hbusy ⟨_, _, _, hmax⟩ hout
  exact ⟨_, exec_hufDec_busy hbusy, execute_doneWith (by omega) (hufDecProc_refines s) hout⟩

/-! ### Inputs that end before the payload -/

theorem hufDecFn_short_header (c : Config) {y : List Byte} (h : y.length < 12) :
    hufDecFn c y = .error .malformedStream := if_pos h

/-- An input that ends inside the table that its header announces (R213). -/
theorem hufDecFn_short_table (c : Config) {y : List Byte} (h : y.length < 12 + getBE y 8 4) :
    hufDecFn c y = .error .malformedStream := by
  by_cases hheader : y.length < 12
  · exact hufDecFn_short_header c hheader
  · exact (if_neg hheader).trans (if_pos h)

theorem outcomeOf_of_fits {fn : Config → List Byte → Except ErrorKind (List Byte)} {s : State}
    (hfits : s.ilen.toNat ≤ s.cfg.nMax) : outcomeOf fn s = fn s.cfg s.input := if_neg (Nat.not_lt.mpr hfits)

/-- Settles O52: each error is the function's. -/
theorem hufDecErrors : Obligations.HufDecErrors := by
  intro s hbusy
  have hends : ∀ k, outcomeOf hufDecFn s = .error k → ∃ t, exec .hufDec s = .next t ∧ ErrorWith s t k := fun k hk =>
    ⟨_, exec_hufDec_busy hbusy, execute_errorWith (hufDecProc_refines s) hk⟩
  refine ⟨hends, fun hfits hshort => hends _ ?_, fun hfits _ hshort => hends _ ?_⟩ <;> rw [← input_length] at hshort
  · exact (outcomeOf_of_fits hfits).trans (hufDecFn_short_header s.cfg hshort)
  · exact (outcomeOf_of_fits hfits).trans (hufDecFn_short_table s.cfg hshort)

/-! ### Padding bits and octets after the payload -/

/-- A field that lies in the first `p` octets is read from them alone. -/
theorem getBE_take (buf : List Byte) {o w p : Nat} (h : o + w ≤ p) : getBE (buf.take p) o w = getBE buf o w := by
  rw [getBE, getBE, List.drop_take, List.take_take, Nat.min_eq_left (by omega)]

theorem getBE_congr {buf buf' : List Byte} {o w p : Nat} (htake : buf.take p = buf'.take p) (h : o + w ≤ p) :
    getBE buf o w = getBE buf' o w := by
  rw [← getBE_take buf h, htake, getBE_take buf' h]

/-- On an input that holds its whole payload, the function of R210 is to parse the table and to map the first `B` bits
after it. -/
theorem hufDecFn_of_complete (c : Config) {y : List Byte} {b p : Nat} (hb : getBE y 0 8 = b)
    (hp : 12 + getBE y 8 4 = p) (hlen : p + ceil8 b ≤ y.length) :
    hufDecFn c y =
      parseTable ((y.take p).drop 12) >>= fun table => mapBits c table (unpack (y.drop p) b) [] [] := by
  have htable : (y.drop 12).take (getBE y 8 4) = (y.take p).drop 12 := by
    rw [List.drop_take, ← hp, Nat.add_sub_cancel_left]
  have hpayload : ¬ 8 * (y.length - p) < b := by rw [ceil8] at hlen; omega
  simp only [hufDecFn, htable, hp, hb, if_neg hpayload]
  rw [if_neg (by omega), if_neg (by omega)]

/-- The function of R210 does not see what comes after the first `B` payload bits (R223). -/
theorem hufDecFn_congr (c : Config) {y y' : List Byte} {b p : Nat} (hb : getBE y 0 8 = b) (hp : 12 + getBE y 8 4 = p)
    (hlen : p + ceil8 b ≤ y.length) (hlen' : p + ceil8 b ≤ y'.length) (hhead : y'.take p = y.take p)
    (hbits : unpack (y'.drop p) b = unpack (y.drop p) b) : hufDecFn c y' = hufDecFn c y := by
  have hb' : getBE y' 0 8 = b := (getBE_congr hhead (by omega)).trans hb
  have hp' : 12 + getBE y' 8 4 = p := by rw [getBE_congr hhead (by omega), hp]
  rw [hufDecFn_of_complete c hb hp hlen, hufDecFn_of_complete c hb' hp' hlen', hhead, hbits]

/-- Two commands with the same outcome show the host the same STATUS, OLEN and result (R244). -/
theorem CompletesWith.same_answer {s s' u u' : State} {r : Except ErrorKind (List Byte)} (h : CompletesWith s s' r)
    (h' : CompletesWith u u' r) :
    statusWord s' = statusWord u' ∧ s'.olen = u'.olen ∧ s'.result = u'.result := by
  cases r with
  | ok out =>
    refine ⟨?_, BitVec.eq_of_toNat_eq (h.olen.trans h'.olen.symm), h.result.trans h'.result.symm⟩
    rw [statusWord, statusWord, h.state, h.errKind, h'.state, h'.errKind]
  | error k =>
    have hempty : ∀ {v t : State}, ErrorWith v t k → t.result = [] := fun ht => by rw [State.result, ht.olen]; rfl
    refine ⟨?_, h.olen.trans h'.olen.symm, (hempty h).trans (hempty h').symm⟩
    rw [statusWord, statusWord, h.state, h.errKind, h'.state, h'.errKind]

/-- Settles O53: the two inputs have the same outcome. -/
theorem hufDecIgnoresPaddingAndTail : Obligations.HufDecIgnoresPaddingAndTail := by
  intro s u hbusy hbusy' hvalid hcfg hfits hfits' b p _ hlen hlen' hhead hbits
  have hout : outcomeOf hufDecFn u = outcomeOf hufDecFn s := by
    rw [outcomeOf_of_fits hfits, outcomeOf_of_fits hfits', hcfg]
    exact hufDecFn_congr u.cfg rfl rfl (by rwa [input_length]) (by rwa [input_length]) hhead hbits
  have hs := execute_completesWith hvalid (hufDecProc_refines s)
  have hu := execute_completesWith (hcfg ▸ hvalid) (hufDecProc_refines u)
  exact ⟨_, _, exec_hufDec_busy hbusy, exec_hufDec_busy hbusy', hs.same_answer (hout ▸ hu)⟩

end Sys2Proof.Machine
end

section
/-! SUPPORT. HUF.ENTRY on any decoder tables (43_huffman_decoder.md R214 to R218): which entries are refused as
repeated, and what the others record. -/

namespace Sys2Proof.Machine

/-- A code is looked up among the lengths and bits of all 256 symbols (R218, R220). -/
theorem lookupCode_isSome_iff {h : HufDecUnit} {code : Bits} :
    (lookupCode h code).isSome = true ↔
      ∃ k, k < 256 ∧ h.dlen.toList.getD k 0 = code.length ∧ h.dbits.toList.getD k [] = code := by
  have hsize : (h.dlen.toList.zip h.dbits.toList).length = 256 := by simp
  rw [lookupCode, List.findIdx?_isSome, List.any_eq_true]
  constructor
  · rintro ⟨e, hmem, he⟩
    obtain ⟨k, hk, rfl⟩ := List.mem_iff_getElem.mp hmem
    rw [zip_getElem, Bool.and_eq_true, beq_iff_eq, beq_iff_eq] at he
    exact ⟨k, hsize ▸ hk, he⟩
  · rintro ⟨k, hk, hlen, hbits⟩
    have hk' : k < (h.dlen.toList.zip h.dbits.toList).length := hsize.symm ▸ hk
    exact ⟨_, List.getElem_mem hk', by rw [zip_getElem, hlen, hbits]; simp⟩

/-- The symbol of an entry has a code already (R217), or its code is another symbol's (R218). -/
def RepeatsEntry (h : HufDecUnit) (len sym : Byte) (code : List Byte) : Prop :=
  h.dlen.toList.getD sym.toNat 0 ≠ 0 ∨
    ∃ k, k < 256 ∧ h.dlen.toList.getD k 0 = len.toNat ∧ h.dbits.toList.getD k [] = unpack code len.toNat

theorem repeatsEntry_iff {h : HufDecUnit} {len sym : Byte} {code : List Byte} :
    RepeatsEntry h len sym code ↔
      h.dlen.toList.getD sym.toNat 0 ≠ 0 ∨ (lookupCode h (unpack code len.toNat)).isSome = true := by
  rw [RepeatsEntry, lookupCode_isSome_iff, unpack_length]

theorem tableEntry_of_repeats {s : State} {len sym : Byte} {code : List Byte}
    (h : RepeatsEntry s.hd len sym code) : tableEntry len sym code s = .error .malformedStream := by
  simp only [tableEntry]
  by_cases hsym : s.hd.dlen.toList.getD sym.toNat 0 ≠ 0
  · exact if_pos hsym
  · rw [if_neg hsym, if_pos ((repeatsEntry_iff.mp h).resolve_left hsym)]

theorem tableEntry_of_new {s : State} {len sym : Byte} {code : List Byte}
    (h : ¬ RepeatsEntry s.hd len sym code) : tableEntry len sym code s = .ok (recordEntry len sym code s) := by
  obtain ⟨hsym, hcode⟩ := not_or.mp (mt repeatsEntry_iff.mpr h)
  simp only [tableEntry]
  rw [if_neg hsym, if_neg hcode]
  rfl

theorem exec_hufEntry {len : Byte} (sym : Byte) {code : List Byte} (s : State) (hlen : len ≠ 0)
    (hcode : code.length = ceil8 len.toNat) :
    exec (.hufEntry len sym code) s = .next (streamStep s (tableEntry len sym code s)) :=
  if_pos (wellFormed_hufEntry_iff.mpr ⟨hlen, hcode⟩)

/-- An entry recorded gives its symbol its length, and the other symbols keep theirs (R214). -/
theorem recordEntry_dlen (len sym : Byte) (code : List Byte) (s : State) (k : Nat) :
    (recordEntry len sym code s).hd.dlen.toList.getD k 0 =
      if sym.toNat = k then len.toNat else s.hd.dlen.toList.getD k 0 := by
  simp only [recordEntry, setEntry_dlen, getD_setIfInBounds, sym.isLt, and_true]

/-- An entry recorded gives its symbol its code bits, and the other symbols keep theirs (R214, R216). -/
theorem recordEntry_dbits (len sym : Byte) (code : List Byte) (s : State) (k : Nat) :
    (recordEntry len sym code s).hd.dbits.toList.getD k [] =
      if sym.toNat = k then unpack code len.toNat else s.hd.dbits.toList.getD k [] := by
  simp only [recordEntry, setEntry_dbits, getD_setIfInBounds, sym.isLt, and_true]

/-- Settles O54: a new entry is recorded. -/
theorem entryRecordsItsCode : Obligations.EntryRecordsItsCode := by
  intro len sym code s hlen hcode hsym hnew
  have hnot : ¬ RepeatsEntry s.hd len sym code := by
    rintro (hold | ⟨k, hk, hmatch⟩)
    · exact hold hsym
    · exact hnew k hk hmatch
  refine ⟨recordEntry len sym code s, ?_, rfl, ?_, ?_, fun k hk => ⟨?_, ?_⟩⟩
  · rw [exec_hufEntry sym s hlen hcode, tableEntry_of_new hnot, streamStep]
  · rw [recordEntry_dlen, if_pos rfl]
  · rw [recordEntry_dbits, if_pos rfl]
  · rw [recordEntry_dlen, if_neg hk.symm]
  · rw [recordEntry_dbits, if_neg hk.symm]

/-- Settles O55: a repeated entry raises, and a contradictory term is not well formed. -/
theorem repeatedEntryRaises : Obligations.RepeatedEntryRaises := by
  refine ⟨fun len sym code s hlen hcode hrepeats => ?_, fun len sym code s hbad => if_neg fun hwf => ?_⟩
  · rw [exec_hufEntry sym s hlen hcode, tableEntry_of_repeats hrepeats, streamStep]
  · obtain ⟨hlen, hcode⟩ := wellFormed_hufEntry_iff.mp hwf
    exact hbad.elim hlen fun hne => hne hcode

end Sys2Proof.Machine
end

section
/-! SUPPORT. Issue and Execute (44_codec_interface.md R240 to R248): OP and the codec commands name each other, CMD
outside BUSY issues, the sequencer's turn in P_CHECK executes and ends, and what a host sees of the end is a function of
the input. -/

namespace Sys2Proof.Machine

/-! ### The identifier ROMs and CLR -/

/-- Settles O16. -/
theorem tagRomsReadTheIdentifiers : Obligations.TagRomsReadTheIdentifiers := by
  refine ⟨fun s es a h ha => step_readOctet h (readOctet_tagRle_of_lt _ ha),
    fun s es a h ha => step_readOctet h (readOctet_tagHuf_of_lt _ ha), fun s es a v h => ?_⟩
  rcases h with ⟨h, ha⟩ | ⟨h, ha⟩ <;> exact step_writeOctet h (if_pos ha)

theorem exec_clr_busy {s : State} (hbusy : s.runState = .busy) : exec .clr s = .next s :=
  congrArg Host.Outcome.next (if_pos hbusy)

theorem exec_clr_free {s : State} (hfree : s.runState ≠ .busy) : exec .clr s = .next (clearStatus s) :=
  congrArg Host.Outcome.next (if_neg hfree)

/-- Settles O20. -/
theorem clrReturnsToIdle : Obligations.ClrReturnsToIdle := fun _ => ⟨exec_clr_free, exec_clr_busy⟩

/-! ### OP and the codec commands -/

theorem opInstr_of_range {op : BitVec 3} (h : 1 ≤ op.toNat ∧ op.toNat ≤ 4) : ∃ i, opInstr op = some i := by
  rw [← Option.isSome_iff_exists]
  decide +revert

theorem exists_op_of_codec {i : Instr} (hi : (codecFn i).isSome = true) : ∃ op, opInstr op = some i := by
  cases i with
  | rleEnc => exact ⟨1, rfl⟩
  | rleDec => exact ⟨2, rfl⟩
  | hufEnc => exact ⟨3, rfl⟩
  | hufDec => exact ⟨4, rfl⟩
  | clr | rleRepeat _ _ | rleLiteral _ _ | hufEntry _ _ _ => cases hi

/-- The command that OP names runs, and is issued, under that opcode (R240, R242). -/
theorem exec_of_opInstr {op : BitVec 3} {i : Instr} (h : opInstr op = some i) :
    ∃ proc, ∀ s, exec i s = .next (codecCommand op proc s) := by
  unfold opInstr at h
  split at h <;> cases h
  next hop => exact ⟨rleEncProc, fun _ => by rw [show op = 1 from BitVec.eq_of_toNat_eq hop]; rfl⟩
  next hop => exact ⟨rleDecProc, fun _ => by rw [show op = 2 from BitVec.eq_of_toNat_eq hop]; rfl⟩
  next hop => exact ⟨hufEncProc, fun _ => by rw [show op = 3 from BitVec.eq_of_toNat_eq hop]; rfl⟩
  next hop => exact ⟨hufDecProc, fun _ => by rw [show op = 4 from BitVec.eq_of_toNat_eq hop]; rfl⟩

theorem exec_free_of_opInstr {op : BitVec 3} {i : Instr} {s : State} (h : opInstr op = some i)
    (hfree : s.runState ≠ .busy) : exec i s = .next (issue op s) := by
  obtain ⟨proc, hexec⟩ := exec_of_opInstr h
  rw [hexec, codecCommand_free hfree]

/-- Settles O21: each of the four opcodes names its command, which outside BUSY is issued. -/
theorem codecCommandIsIssued : Obligations.CodecCommandIsIssued := by
  intro s hfree i op hmem
  have hop : opInstr op = some i := by
    simp only [List.mem_cons, List.not_mem_nil, or_false, Prod.mk.injEq] at hmem
    rcases hmem with ⟨rfl, rfl⟩ | ⟨rfl, rfl⟩ | ⟨rfl, rfl⟩ | ⟨rfl, rfl⟩ <;> rfl
  exact exec_free_of_opInstr hop hfree

/-! ### The sequencer's turn -/

theorem step_noEvent {s : State} (hport : s.port = []) : step s = sequencerTurn s := by
  rw [step, hport]

theorem sequencerTurn_check {s : State} {i : Instr} (hbusy : s.runState = .busy) (hphase : s.phase = .check)
    (hi : opInstr s.op = some i) : sequencerTurn s = exec i s := by
  have hfetch : fetch s = .run i := by
    rw [fetch, if_pos hbusy, hphase]
    show fetchCommand s = _
    rw [fetchCommand, hi]
  rw [sequencerTurn, hfetch]

theorem sequencerTurn_free {s : State} (hfree : s.runState ≠ .busy) : sequencerTurn s = .next s := by
  rw [sequencerTurn, fetch, if_neg hfree]

/-- CMD outside BUSY runs the command that its word decodes to (R240). -/
theorem step_command {s : State} {w : Word} {es : List PortEvent} {i : Instr} (h : s.port = .writeReg 0 w :: es)
    (hfree : s.runState ≠ .busy) (hw : decodeCommand w = .ok i) : step s = exec i { s with port := es } :=
  (step_writeCmd h).trans (commandWrite_ok hfree hw)

/-- With no host action left, the command in OP runs (R242, R243). -/
theorem step_check {s : State} {i : Instr} (h : s.port = []) (hbusy : s.runState = .busy) (hphase : s.phase = .check)
    (hi : opInstr s.op = some i) : step s = exec i s :=
  (step_noEvent h).trans (sequencerTurn_check hbusy hphase hi)

/-- Settles O23: CMD runs the word it is given, and the turn runs the command in OP. -/
theorem stepRunsTheCommand : Obligations.StepRunsTheCommand :=
  ⟨fun _ _ _ _ => step_command, fun _ _ => step_check, fun s es _ h hbusy hphase hi =>
    (step_event h).trans (sequencerTurn_check (s := { s with port := es }) hbusy hphase hi)⟩

/-! ### Execute ends -/

/-- Execute ends in DONE or ERROR, at rest (R243, R244). -/
theorem exec_codec_ends {i : Instr} {s : State} (hi : (codecFn i).isSome = true) (hbusy : s.runState = .busy) :
    ∃ t, exec i s = .next t ∧ (t.runState = .done ∨ t.runState = .error) ∧ t.phase = .idle := by
  obtain ⟨op, proc, hexec⟩ := exec_codec hi
  refine ⟨_, hexec s, ?_⟩
  obtain ⟨hfree, -⟩ | ⟨-, u, -, ht⟩ | ⟨-, k, ht⟩ := exec_codec_cases hi (hexec s)
  · exact absurd hbusy hfree
  · rw [ht]; exact ⟨.inl rfl, rfl⟩
  · rw [ht]; exact ⟨.inr rfl, rfl⟩

/-- In BUSY at rest the sequencer's turn is the Execute step of the command in OP (R242, R243). -/
theorem sequencerTurn_ends {s : State} (hs : s.Inv) (hbusy : s.runState = .busy) :
    ∃ t, sequencerTurn s = .next t ∧ (t.runState = .done ∨ t.runState = .error) := by
  obtain ⟨i, hi⟩ := opInstr_of_range (hs.op hbusy)
  obtain ⟨t, ht, hend, -⟩ := exec_codec_ends (opInstr_some hi) hbusy
  exact ⟨t, (sequencerTurn_check hbusy (hs.phase.trans (if_pos hbusy)) hi).trans ht, hend⟩

/-- Settles O26. -/
theorem executeAlwaysEnds : Obligations.ExecuteAlwaysEnds := by
  intro s hs hbusy hport
  rw [step_noEvent hport]
  exact sequencerTurn_ends hs hbusy

/-- Settles O27: the first step issues the command, the second executes it. -/
theorem writtenCommandEndsInTwoSteps : Obligations.WrittenCommandEndsInTwoSteps := by
  intro s w i hport hfree hw hclr
  have hcodec : (codecFn i).isSome = true := (decodeCommand_ok hw).resolve_left hclr
  obtain ⟨op, hop⟩ := exists_op_of_codec hcodec
  have hissue : step s = .next (issue op { s with port := [] }) :=
    (step_command hport hfree hw).trans (exec_free_of_opInstr hop hfree)
  obtain ⟨t, hexec, hend, hphase⟩ := exec_codec_ends hcodec (s := issue op { s with port := [] }) rfl
  have hturn : step (issue op { s with port := [] }) = .next t := (step_check rfl rfl rfl hop).trans hexec
  have hsame := exec_sameInput hexec
  exact ⟨t, (run_succ hissue 1).trans (run_succ hturn 0), hend, hphase, hsame.ilen, hsame.ibuf⟩

/-! ### The transitions of STATE -/

/-- A CMD write outside BUSY, by what it decodes to (R240, R246, R248). -/
theorem commandWrite_runState {w : Word} {s t : State} (hfree : s.runState ≠ .busy) (h : commandWrite w s = .next t) :
    match decodeCommand w with
    | .error _ => t.runState = .error ∧ t.errKind = some .badCommand
    | .ok .clr => t.runState = .idle
    | .ok _ => t.runState = .busy := by
  cases hw : decodeCommand w with
  | error e =>
    cases (commandWrite_error hfree hw).symm.trans h
    exact ⟨rfl, rfl⟩
  | ok i =>
    have hexec : exec i s = .next t := (commandWrite_ok hfree hw).symm.trans h
    obtain rfl | hi := decodeCommand_ok hw
    · cases (exec_clr_free hfree).symm.trans hexec
      rfl
    · obtain ⟨op, hop⟩ := exists_op_of_codec hi
      cases (exec_free_of_opInstr hop hfree).symm.trans hexec
      cases i with
      | clr => cases hi
      | _ => rfl

/-- The sequencer's turn at rest: Execute in BUSY, nothing otherwise (R248). -/
theorem sequencerTurn_runState {s t : State} (hs : s.Inv) (h : sequencerTurn s = .next t) :
    if s.runState = .busy then t.runState = .done ∨ t.runState = .error else t.runState = s.runState := by
  split
  next hbusy =>
    obtain ⟨u, hu, hend⟩ := sequencerTurn_ends hs hbusy
    cases hu.symm.trans h
    exact hend
  next hfree =>
    cases (sequencerTurn_free hfree).symm.trans h
    rfl

/-- A host access other than a CMD write keeps STATE. -/
theorem access_runState {e : PortEvent} {s t : State} (h : portStep e s = .next t) (hcmd : ∀ v, e ≠ .writeReg 0 v)
    (hreset : e ≠ .reset) (hturn : e ≠ .turn) : t.runState = s.runState := by
  cases e with
  | readReg n =>
    obtain ⟨p, hp, rfl⟩ := answerWord_next h
    show p.2.runState = _
    obtain hsame | hsame := readReg_state hp <;> rw [hsame]
  | readOctet sp a =>
    obtain ⟨p, hp, rfl⟩ := answerOctet_next h
    show p.2.runState = _
    obtain hsame | hsame := readOctet_state hp <;> rw [hsame]
  | writeReg n v =>
    have hn : n ≠ 0 := fun hn => hcmd v (hn ▸ rfl)
    obtain rfl | rfl := writeReg_state (answerWrite_next ((if_neg hn).symm.trans h)) <;> rfl
  | writeOctet sp a v => obtain rfl | ⟨-, rfl⟩ := writeOctet_state (answerWrite_next h) <;> rfl
  | reset => exact absurd rfl hreset
  | turn => exact absurd rfl hturn

/-- Settles O28, by the event that heads the host's list. -/
theorem stateTransitionsAreTheTable : Obligations.StateTransitionsAreTheTable := by
  intro s t hs h
  cases hport : s.port with
  | nil => exact sequencerTurn_runState hs ((step_noEvent hport).symm.trans h)
  | cons e es =>
    have hevent : portStep e { s with port := es } = .next t := (step_event hport).symm.trans h
    have haccess := access_runState hevent
    cases e with
    | readReg n | readOctet sp a | writeOctet sp a v => exact haccess nofun nofun nofun
    | reset => cases hevent; rfl
    | turn =>
      exact sequencerTurn_runState (s := { s with port := es }) (hs.setHostSide s.ilen es s.reply s.fresh) hevent
    | writeReg n w =>
      cases n with
      | succ n => exact haccess nofun nofun nofun
      | zero =>
        show if s.runState = .busy then _ else _
        split
        next hbusy =>
          have ht : t = { s with port := es } :=
            Host.Outcome.next.inj (hevent.symm.trans (commandWrite_busy (s := { s with port := es }) w hbusy))
          rw [ht]
          exact hbusy
        next hfree => exact commandWrite_runState (s := { s with port := es }) hfree hevent

/-! ### The outcome is a function of the input -/

/-- The outcome reads the parameters, ILEN and IBUF[0..ILEN) only (R245). -/
theorem outcomeOf_congr (fn : Config → List Byte → Except ErrorKind (List Byte)) {s u : State} (hcfg : s.cfg = u.cfg)
    (hilen : s.ilen = u.ilen) (hibuf : ∀ a, a < s.ilen.toNat → readIbuf s a = readIbuf u a) :
    outcomeOf fn s = outcomeOf fn u := by
  have hinput : s.input = u.input := by
    rw [State.input, State.input, ← hilen, ibufOctets, ibufOctets]
    refine List.map_congr_left fun j hj => ?_
    rw [Nat.zero_add]
    exact hibuf j (List.mem_range.mp hj)
  rw [outcomeOf, outcomeOf, hcfg, hilen, hinput]

theorem execute_hufEnc_completesWith {s : State} (hvalid : s.cfg.Valid) :
    CompletesWith s (execute hufEncProc s) (outcomeOf hufEncFn s) := by
  cases hout : outcomeOf hufEncFn s with
  | ok out => exact execute_hufEnc_doneWith hvalid hout
  | error k => exact execute_hufEnc_errorWith hout

/-- In BUSY every codec command completes with the outcome of its function (R243, R244). -/
theorem exec_codec_completesWith {i : Instr} {fn : Config → List Byte → Except ErrorKind (List Byte)} {s : State}
    (hi : codecFn i = some fn) (hbusy : s.runState = .busy) (hvalid : s.cfg.Valid) :
    ∃ t, exec i s = .next t ∧ CompletesWith s t (outcomeOf fn s) := by
  cases i with
  | rleEnc => cases hi; exact ⟨_, exec_rleEnc_busy hbusy, execute_completesWith hvalid (rleEncProc_refines s)⟩
  | rleDec => cases hi; exact ⟨_, exec_rleDec_busy hbusy, execute_completesWith hvalid (rleDecProc_refines s)⟩
  | hufEnc => cases hi; exact ⟨_, exec_hufEnc_busy hbusy, execute_hufEnc_completesWith hvalid⟩
  | hufDec => cases hi; exact ⟨_, exec_hufDec_busy hbusy, execute_completesWith hvalid (hufDecProc_refines s)⟩
  | clr | rleRepeat _ _ | rleLiteral _ _ | hufEntry _ _ _ => cases hi

theorem codecFn_of_mem {i : Instr} (hi : i ∈ [Instr.rleEnc, .rleDec, .hufEnc, .hufDec]) :
    ∃ fn, codecFn i = some fn := by
  simp only [List.mem_cons, List.not_mem_nil, or_false] at hi
  rcases hi with rfl | rfl | rfl | rfl <;> exact ⟨_, rfl⟩

/-- Settles O31: both commands complete with the outcome of one function on one input. -/
theorem outcomeDependsOnTheInputAlone : Obligations.OutcomeDependsOnTheInputAlone := by
  intro s u hbusy hbusy' hvalid hcfg hilen hibuf i hi
  obtain ⟨fn, hfn⟩ := codecFn_of_mem hi
  obtain ⟨s', hs', hdone⟩ := exec_codec_completesWith hfn hbusy hvalid
  obtain ⟨u', hu', hdone'⟩ := exec_codec_completesWith hfn hbusy' (hcfg ▸ hvalid)
  rw [← outcomeOf_congr fn hcfg hilen hibuf] at hdone'
  exact ⟨s', u', hs', hu', hdone.same_answer hdone'⟩

end Sys2Proof.Machine
end

section
/-! SUPPORT. Exceptions (60_exceptions.md R265 to R272, R285): what the error entry writes and keeps, the CMD write that
raises BadCommand, the groups whose symbols OBUF has no room for, and the states in which the sequencer waits. -/

namespace Sys2Proof.Machine

/-! ### The sequencer outside BUSY -/

/-- Settles O25: with or without a turn event, the step is the sequencer's turn. -/
theorem sequencerWaitsOutsideBusy : Obligations.SequencerWaitsOutsideBusy := fun s hfree =>
  ⟨fun hport => (step_noEvent hport).trans (sequencerTurn_free hfree),
    fun es hport => (step_event hport).trans (sequencerTurn_free (s := { s with port := es }) hfree)⟩

/-! ### The error entry -/

/-- After an error no octet of OBUF is specified (10_state.md R34, R266). -/
theorem failCommand_lookup_obuf (k : ErrorKind) (s : State) (a : Nat) :
    Memory.lookup (failCommand k s).obuf a = none := by
  rw [failCommand_obuf, Memory.lookup]

/-- Settles O29. -/
theorem errorEntrySavesNothing : Obligations.ErrorEntrySavesNothing := fun k s =>
  ⟨⟨errorWith_failCommand k s, failCommand_lookup_obuf k s⟩, rfl⟩

/-! ### BadCommand -/

/-- The opcodes from 5 on are those that 30_encoding.md R93 reserves. -/
theorem opcode_reserved_of_le : ∀ op : BitVec 3, 5 ≤ op.toNat → op = 5 ∨ op = 6 ∨ op = 7 := by decide

theorem decodeCommand_reserved {w : Word} (h : w.extractLsb' 3 61 ≠ 0 ∨ 5 ≤ (w.extractLsb' 0 3).toNat) :
    decodeCommand w = .error .reservedCommand :=
  (decodeCommand_reserved_iff w).mpr (h.imp_right (opcode_reserved_of_le _))

/-- ERROR in bits 1:0 and code 6 in bits 7:4 (10_state.md R23). -/
theorem statusWord_badCommand (s : State) : statusWord (raiseError .badCommand s) = 0x63 := by
  rw [statusWord, raiseError_runState, raiseError_errKind]
  decide

/-- A refused CMD write is the error entry and nothing more (R272). -/
theorem step_reserved {s : State} {w : Word} {es : List PortEvent} {e : Reject} (h : s.port = .writeReg 0 w :: es)
    (hfree : s.runState ≠ .busy) (hw : decodeCommand w = .error e) :
    step s = .next (raiseError .badCommand { s with port := es }) :=
  (step_writeCmd h).trans (commandWrite_error hfree hw)

/-- Settles O22: the word decodes to no command, and the fields are those of the error entry. -/
theorem reservedWordIsBadCommand : Obligations.ReservedWordIsBadCommand := fun _ _ _ hport hfree hw =>
  ⟨_, step_reserved hport hfree (decodeCommand_reserved hw), raiseError_runState .., raiseError_errKind ..,
    statusWord_badCommand _, raiseError_olen .., raiseError_ilen .., raiseError_ibuf .., raiseError_ibufEpoch ..,
    raiseError_op .., raiseError_cfg .., raiseError_port ..⟩

/-! ### Groups past the capacity -/

/-- Octets that OBUF has no room for raise CapacityExceeded; appending none succeeds at any OPOS (R271). -/
theorem appendAll_past_capacity {vs : List Byte} {s : State} (hne : 0 < vs.length)
    (h : s.cfg.mMax < s.opos + vs.length) : appendAll vs s = .error .capacityExceeded := by
  rw [appendAll_eq, if_neg (not_or.mpr ⟨List.ne_nil_of_length_pos hne, Nat.not_le.mpr h⟩)]

theorem repeatGroup_past_capacity {n : BitVec 7} (sym : Byte) {s : State} (h : s.cfg.mMax < s.opos + repeatCount n) :
    repeatGroup n sym s = .error .capacityExceeded := by
  have hlen : (List.replicate (repeatCount n) sym).length = repeatCount n := List.length_replicate
  apply appendAll_past_capacity <;> rw [hlen]
  · exact Nat.succ_pos _
  · exact h

theorem literalGroup_past_capacity {n : BitVec 7} {syms : List Byte} {s : State} (hlen : syms.length = literalCount n)
    (h : s.cfg.mMax < s.opos + literalCount n) : literalGroup n syms s = .error .capacityExceeded :=
  appendAll_past_capacity (hlen ▸ Nat.succ_pos _) (hlen ▸ h)

/-- A Literal term whose operands contradict its count has no meaning (log 12). -/
theorem exec_rleLiteral_illFormed {n : BitVec 7} {syms : List Byte} (s : State) (h : syms.length ≠ literalCount n) :
    exec (.rleLiteral n syms) s = .refused .illFormed :=
  if_neg (mt wellFormed_rleLiteral_iff.mp h)

/-- Settles O44: the group's procedure raises, and the step ends the command with what it raised. -/
theorem groupPastCapacityRaises : Obligations.GroupPastCapacityRaises := by
  refine ⟨fun n sym s hfull => ?_, fun n syms s hlen hfull => ?_, fun n syms s => exec_rleLiteral_illFormed s⟩
  · exact congrArg (Host.Outcome.next ∘ streamStep s) (repeatGroup_past_capacity sym hfull)
  · exact (exec_rleLiteral s hlen).trans
      (congrArg (Host.Outcome.next ∘ streamStep s) (literalGroup_past_capacity hlen hfull))

end Sys2Proof.Machine
end

section
/-! SUPPORT. How long a result lasts and which steps there are (70_reset_and_hazards.md R295, R298; 20_memory.md R65): a
host access other than a CMD write touches no part of a result that is held, and from a state at rest every step but an
access to a missing index has a next state. -/

namespace Sys2Proof.Machine

/-! ### The result that is held -/

/-- `t` holds the STATUS and the result of `s`: the fields that R295 names, OBUF with what stands behind its unlisted
octets. -/
structure SameResult (s t : State) : Prop where
  runState : t.runState = s.runState
  errKind : t.errKind = s.errKind
  olen : t.olen = s.olen
  obuf : t.obuf = s.obuf
  obufEpoch : t.obufEpoch = s.obufEpoch

theorem SameResult.refl (s : State) : SameResult s s := ⟨rfl, rfl, rfl, rfl, rfl⟩

/-- The octets of the result are a function of these fields. -/
theorem SameResult.result {s t : State} (h : SameResult s t) : t.result = s.result := by
  rw [State.result, State.result, h.olen, obufOctets, obufOctets]
  simp only [readObuf, h.obuf, h.obufEpoch]

theorem read_sameResult {s t : State} (reply : Reply) (h : t = s ∨ t = { s with fresh := s.fresh + 1 }) :
    SameResult s { t with reply := reply } := by
  rcases h with rfl | rfl <;> exact ⟨rfl, rfl, rfl, rfl, rfl⟩

/-- A host access other than a CMD write keeps the result, in BUSY and out of it; a write reaches ILEN and IBUF only. -/
theorem access_sameResult {e : PortEvent} {s t : State} (h : portStep e s = .next t) (hcmd : ∀ v, e ≠ .writeReg 0 v)
    (hreset : e ≠ .reset) (hturn : e ≠ .turn) : SameResult s t := by
  cases e with
  | readReg n =>
    obtain ⟨p, hp, rfl⟩ := answerWord_next h
    exact read_sameResult _ (readReg_state hp)
  | readOctet sp a =>
    obtain ⟨p, hp, rfl⟩ := answerOctet_next h
    exact read_sameResult _ (readOctet_state hp)
  | writeReg n v =>
    have hn : n ≠ 0 := fun hn => hcmd v (hn ▸ rfl)
    obtain rfl | rfl := writeReg_state (answerWrite_next ((if_neg hn).symm.trans h))
    · exact .refl t
    · exact ⟨rfl, rfl, rfl, rfl, rfl⟩
  | writeOctet sp a v =>
    obtain rfl | ⟨-, rfl⟩ := writeOctet_state (answerWrite_next h)
    · exact .refl t
    · exact ⟨rfl, rfl, rfl, rfl, rfl⟩
  | reset => exact absurd rfl hreset
  | turn => exact absurd rfl hturn

/-- Outside BUSY the sequencer's turn keeps the result too, because it waits (60_exceptions.md R285). -/
theorem portStep_sameResult {e : PortEvent} {s t : State} (hfree : s.runState ≠ .busy) (h : portStep e s = .next t)
    (hcmd : ∀ v, e ≠ .writeReg 0 v) (hreset : e ≠ .reset) : SameResult s t := by
  by_cases hturn : e = .turn
  · subst hturn
    cases (sequencerTurn_free hfree).symm.trans h
    exact .refl _
  · exact access_sameResult h hcmd hreset hturn

/-- Settles O19: taking the event off the host's list keeps the result, and so does the event. -/
theorem resultLastsUntilTheNextCommand : Obligations.ResultLastsUntilTheNextCommand := by
  intro s t e es hport hdone hcmd hreset hstep
  have hfree : s.runState ≠ .busy := by rw [hdone]; decide
  have hsame : SameResult { s with port := es } t :=
    portStep_sameResult hfree ((step_event hport).symm.trans hstep) hcmd hreset
  exact ⟨hsame.runState.trans hdone, hsame.errKind, hsame.olen, hsame.result⟩

/-! ### Steps that are not taken -/

/-- What R298 and R65 leave a step: a next state, or no action at an index that does not exist. -/
inductive Proceeds : Host.Outcome State Fault Refusal → Prop
  | next (t : State) : Proceeds (.next t)
  | missing : Proceeds (.refused .noSuchIndex)

theorem Proceeds.stops {o : Host.Outcome State Fault Refusal} (h : Proceeds o) :
    (∀ f, o ≠ .fault f) ∧ ∀ r, o = .refused r → r = .noSuchIndex := by
  cases h with
  | next t => exact ⟨nofun, nofun⟩
  | missing => exact ⟨nofun, fun r hr => (Host.Outcome.refused.inj hr).symm⟩

theorem answerWord_proceeds (r : Option (Word × State)) : Proceeds (answerWord r) := by
  cases r with
  | none => exact .missing
  | some p => exact .next _

theorem answerOctet_proceeds (r : Option (Byte × State)) : Proceeds (answerOctet r) := by
  cases r with
  | none => exact .missing
  | some p => exact .next _

theorem answerWrite_proceeds (r : Option State) : Proceeds (answerWrite r) := by
  cases r with
  | none => exact .missing
  | some t => exact .next t

/-- A command that a word can name has a next state in every state. -/
theorem exec_command_proceeds {w : Word} {i : Instr} (s : State) (hw : decodeCommand w = .ok i) :
    Proceeds (exec i s) := by
  obtain rfl | hi := decodeCommand_ok hw
  · exact .next _
  · obtain ⟨op, proc, hexec⟩ := exec_codec hi
    rw [hexec]
    exact .next _

theorem commandWrite_proceeds (w : Word) (s : State) : Proceeds (commandWrite w s) := by
  by_cases hbusy : s.runState = .busy
  · rw [commandWrite_busy w hbusy]
    exact .next s
  · cases hw : decodeCommand w with
    | ok i =>
      rw [commandWrite_ok hbusy hw]
      exact exec_command_proceeds s hw
    | error e =>
      rw [commandWrite_error hbusy hw]
      exact .next _

/-- At rest the sequencer waits or executes; the invariant keeps it from an OP that names no procedure (R242) and from
the inside of a stream. -/
theorem sequencerTurn_proceeds {s : State} (hs : s.Inv) : Proceeds (sequencerTurn s) := by
  by_cases hbusy : s.runState = .busy
  · obtain ⟨t, ht, -⟩ := sequencerTurn_ends hs hbusy
    rw [ht]
    exact .next t
  · rw [sequencerTurn_free hbusy]
    exact .next s

theorem portStep_proceeds (e : PortEvent) {s : State} (hs : s.Inv) : Proceeds (portStep e s) := by
  cases e with
  | readReg n => exact answerWord_proceeds _
  | writeReg n v =>
    rw [portStep]
    split
    · exact commandWrite_proceeds v s
    · exact answerWrite_proceeds _
  | readOctet sp a => exact answerOctet_proceeds _
  | writeOctet sp a v => exact answerWrite_proceeds _
  | reset => exact .next _
  | turn => exact sequencerTurn_proceeds hs

theorem step_proceeds {s : State} (hs : s.Inv) : Proceeds (step s) := by
  cases hport : s.port with
  | nil =>
    rw [step_noEvent hport]
    exact sequencerTurn_proceeds hs
  | cons e es =>
    rw [step_event hport]
    exact portStep_proceeds e (hs.setHostSide s.ilen es s.reply s.fresh)

/-- Settles O33, by the event that heads the host's list. -/
theorem onlyMissingIndicesStop : Obligations.OnlyMissingIndicesStop := fun _ hs => (step_proceeds hs).stops

end Sys2Proof.Machine
end

section
/-! SUPPORT. The result lengths of the codec commands (70_reset_and_hazards.md R297): a DONE result is what the
command's function gives for the input, and each function's results are bounded. -/

namespace Sys2Proof.Machine

/-! ### The result of a command is its function's -/

theorem outcomeOf_ok {fn : Config → List Byte → Except ErrorKind (List Byte)} {s : State} {out : List Byte}
    (h : outcomeOf fn s = .ok out) : fn s.cfg s.input = .ok out := by
  rw [outcomeOf] at h
  split at h
  · cases h
  · exact h

theorem exec_codec_done {i : Instr} {fn : Config → List Byte → Except ErrorKind (List Byte)} {s t : State}
    (hi : codecFn i = some fn) (hbusy : s.runState = .busy) (hvalid : s.cfg.Valid) (hexec : exec i s = .next t)
    (hdone : t.runState = .done) : fn s.cfg s.input = .ok t.result := by
  obtain ⟨u, hu, hcompletes⟩ := exec_codec_completesWith hi hbusy hvalid
  cases hu.symm.trans hexec
  exact outcomeOf_ok (hcompletes.eq_of_done hdone)

/-! ### RLE_DEC -/

/-- A group stands for at most 129 symbols for each two of its octets, of which it has at least two. -/
theorem symbols_length_le_half {r : Run} (h : r.inRange = true) : r.symbols.length ≤ 129 * (r.octets.length / 2) := by
  obtain ⟨hlow, -⟩ := octets_length_bounds h
  omega

theorem rleDecFuel_length_le {c : Config} (fuel : Nat) {os out res : List Byte}
    (h : rleDecFuel c fuel os out = .ok res) : res.length ≤ out.length + 129 * (os.length / 2) := by
  induction fuel generalizing os out with
  | zero =>
    rw [rleDecFuel_zero] at h
    cases h
    exact Nat.le_add_right ..
  | succ fuel ih =>
    by_cases hne : os = []
    · rw [hne, rleDecFuel_nil] at h
      cases h
      exact Nat.le_add_right ..
    obtain ⟨r, rest, hr, rfl⟩ | ⟨e, he⟩ := stream_cases os
    · rw [rleDecFuel_run c fuel hr] at h
      split at h
      · cases h
      · have hrest := ih h
        have hgroup := symbols_length_le_half hr
        rw [List.length_append] at hrest ⊢
        omega
    · rw [rleDecFuel_truncated c fuel out hne he] at h
      cases h

/-! ### HUF_ENC -/

/-- The field `B` of a container is the number of its payload bits (42_huffman_encoder.md R183). -/
theorem getBE_hufStream_bits {codes : List (Byte × Bits)} {x : List Byte}
    (h : (payloadBits codes x).length < 256 ^ 8) :
    getBE (hufStream codes x) 0 8 = (payloadBits codes x).length := by
  rw [hufStream, container, List.append_assoc, List.append_assoc]
  exact getBE_putBE [] _ h

/-- The field `T` of a container is the number of its table octets (R183). -/
theorem getBE_hufStream_table {codes : List (Byte × Bits)} {x : List Byte} (h : (tableOctets codes).length < 256 ^ 4) :
    getBE (hufStream codes x) 8 4 = (tableOctets codes).length := by
  rw [hufStream, container, List.append_assoc _ (tableOctets codes)]
  have hread := getBE_putBE (putBE (payloadBits codes x).length 8) (tableOctets codes ++ pack (payloadBits codes x)) h
  rwa [putBE_length] at hread

/-- A code table with an entry has at least the length, the symbol and one code octet (R179). -/
theorem three_le_tableOctets_length {codes : List (Byte × Bits)} (hp : PartedCodes codes) {c : Byte}
    (hc : codeOf codes c ≠ none) : 3 ≤ (tableOctets codes).length := by
  obtain ⟨code, hcode⟩ := Option.ne_none_iff_exists'.mp hc
  have hlo := (hp.length hcode).1
  have hentry : 3 ≤ (entryOctets codes c.toNat).length := by
    rw [entryOctets_of_codeOf hcode, List.length_cons, List.length_cons, pack_length, ceil8]
    omega
  have hpart : (entryOctets codes c.toNat).Sublist (tableOctets codes) := by
    rw [tableOctets_eq, List.flatMap_def]
    exact List.sublist_flatten_of_mem (List.mem_map_of_mem (List.mem_range.mpr c.isLt))
  exact hentry.trans hpart.length_le

/-- A symbol takes at least one bit of the payload (R181). -/
theorem le_payloadBits_length {codes : List (Byte × Bits)} (hp : PartedCodes codes) {x : List Byte}
    (hcoded : ∀ c ∈ x, codeOf codes c ≠ none) : x.length ≤ (payloadBits codes x).length := by
  induction x with
  | nil => exact Nat.zero_le _
  | cons c x ih =>
    obtain ⟨hc, hrest⟩ := List.forall_mem_cons.mp hcoded
    obtain ⟨code, hcode⟩ := Option.ne_none_iff_exists'.mp hc
    have hlo := (hp.length hcode).1
    have hlen := ih hrest
    rw [payloadBits_cons, hcode, Option.getD_some, List.length_append, List.length_cons]
    omega

/-- What R297 says of a container `os` for an input of `n` symbols. -/
structure ContainerBounds (n : Nat) (os : List Byte) : Prop where
  length : os.length = 12 + getBE os 8 4 + ceil8 (getBE os 0 8)
  table : 3 ≤ getBE os 8 4 ∧ getBE os 8 4 ≤ 8704
  bits : n ≤ getBE os 0 8 ∧ getBE os 0 8 ≤ 255 * n

/-- The bounds hold for the container of codes that cover an input, if its payload bits can be counted in `B`. -/
theorem hufStream_bounds {codes : List (Byte × Bits)} (hp : PartedCodes codes) {x : List Byte} (hne : x ≠ [])
    (hcoded : ∀ c ∈ x, codeOf codes c ≠ none) (hsize : 255 * x.length < 2 ^ 64) :
    ContainerBounds x.length (hufStream codes x) := by
  have hbits := payloadBits_length_le hp x
  have htable := tableOctets_length_le hp
  have hB : getBE (hufStream codes x) 0 8 = (payloadBits codes x).length :=
    getBE_hufStream_bits (hbits.trans_lt (hsize.trans_eq (by decide)))
  have hT : getBE (hufStream codes x) 8 4 = (tableOctets codes).length :=
    getBE_hufStream_table (htable.trans_lt (by decide))
  obtain ⟨c, hc⟩ := List.exists_mem_of_ne_nil x hne
  refine ⟨?_, ?_, ?_⟩
  · rw [hB, hT, hufStream_length, pack_length]
  · rw [hT]
    exact ⟨three_le_tableOctets_length hp (hcoded c hc), htable⟩
  · rw [hB]
    exact ⟨le_payloadBits_length hp hcoded, hbits⟩

theorem hufEnc_done_bounds {s t : State} (hbusy : s.runState = .busy) (hvalid : s.cfg.Valid)
    (hexec : exec .hufEnc s = .next t) (hdone : t.runState = .done) : ContainerBounds s.ilen.toNat t.result := by
  cases (exec_hufEnc_busy hbusy).symm.trans hexec
  obtain ⟨hfits, tree, htree, hresult⟩ := hufEnc_done_result hvalid hdone
  obtain ⟨-, hmax, -, -⟩ := hvalid
  have hne : s.input ≠ [] := fun hnil => by rw [hnil] at htree; cases htree
  rw [hresult, ← input_length s]
  exact hufStream_bounds (partedCodes_of_huffTree htree) hne (codeOf_ne_none_of_huffTree htree)
    (by rw [input_length]; omega)

/-! ### HUF_DEC -/

/-- The mapper emits at most one symbol for each payload bit (43_huffman_decoder.md R220). -/
theorem mapBits_length_le {c : Config} {table : List (Byte × Bits)} {bits cur : Bits} {out res : List Byte}
    (h : mapBits c table bits cur out = .ok res) : res.length ≤ out.length + bits.length := by
  induction bits generalizing cur out with
  | nil =>
    rw [mapBits] at h
    split at h <;> cases h
    exact Nat.le_add_right ..
  | cons b bits ih =>
    rw [mapBits] at h
    rw [List.length_cons]
    split at h
    · cases h
    · split at h
      next =>
        have hrest := ih h
        omega
      next e _ =>
        split at h
        · cases h
        · have hrest := ih h
          rw [List.length_append, List.length_singleton] at hrest
          omega

/-- A container that HUF_DEC accepts holds the `B` bits that it announces (R219), and gives at most as many symbols. -/
theorem hufDecFn_bounds {c : Config} {y out : List Byte} (h : hufDecFn c y = .ok out) :
    out.length ≤ getBE y 0 8 ∧ getBE y 0 8 ≤ 8 * (y.length - (12 + getBE y 8 4)) := by
  rw [hufDecFn] at h
  split at h
  · cases h
  · dsimp only at h
    split at h
    · cases h
    · cases htable : parseTable ((y.drop 12).take (getBE y 8 4)) with
      | error k => rw [htable] at h; cases h
      | ok table =>
        rw [htable] at h
        change (if _ then _ else _) = _ at h
        split at h
        next => cases h
        next hpayload =>
          have hlen := mapBits_length_le h
          rw [unpack_length, List.length_nil, Nat.zero_add] at hlen
          exact ⟨hlen, Nat.not_lt.mp hpayload⟩

/-! ### The bounds -/

/-- Settles O57: a DONE result is the function's for the input, whose length is ILEN. -/
theorem resultLengthsAreBounded : Obligations.ResultLengthsAreBounded := by
  intro s t hbusy hvalid hdone
  refine ⟨fun hexec => ?rleEnc, fun hexec => ?rleDec, fun hexec => ?hufEnc, fun hexec => ?hufDec⟩
  case rleEnc =>
    have hstream := rleEncFn_ok (exec_codec_done rfl hbusy hvalid hexec hdone)
    rw [← input_length, ← result_length, hstream]
    exact rleStream_length_bounds s.input
  case rleDec =>
    have hlen := rleDecFuel_length_le _ (exec_codec_done rfl hbusy hvalid hexec hdone)
    rwa [result_length, input_length, List.length_nil, Nat.zero_add] at hlen
  case hufEnc =>
    obtain ⟨hlen, ⟨hTlo, hThi⟩, hBlo, hBhi⟩ := hufEnc_done_bounds hbusy hvalid hexec hdone
    exact ⟨(result_length t).symm.trans hlen, hTlo, hThi, hBlo, hBhi⟩
  case hufDec =>
    obtain ⟨hlen, hpayload⟩ := hufDecFn_bounds (exec_codec_done rfl hbusy hvalid hexec hdone)
    rw [result_length] at hlen
    rw [input_length, ← Nat.sub_sub] at hpayload
    exact ⟨hlen, hpayload⟩

end Sys2Proof.Machine
end
